-- ==== Sys2Proof/Word.lean ====
section
/-! DEFINITION. The machine's one word: the byte (spec 00_scope.md R10, R11), and the 7-bit device address. -/

namespace Sys2Proof

/-- R10, R11: every register, data byte, address byte and frame byte is 8 bits wide and unsigned. -/
abbrev Byte := BitVec 8

/-- R10: a device address is 7 bits wide. -/
abbrev Addr7 := BitVec 7

end Sys2Proof
end

