-- ==== Sys2Proof/Config.lean ====
section
/-! DEFINITION. The configuration record CFG (spec 00_scope.md R8, 10_state.md R49) and the free values: what the spec leaves
to the implementation, to the peers, or open. -/

namespace Sys2Proof

/-- R8 `DOTS`: the dot-matrix size. -/
inductive Dots where
  | dots5x8
  | dots5x10
  deriving DecidableEq, Repr

/-- R30 `REG_ADDR` (OPEN, decision D3): the platform's numeric I/O addresses of the four peripheral registers. The
machine addresses registers by name, so no rule reads these. -/
structure RegAddr where
  ctrl    : Nat
  status  : Nat
  data    : Nat
  bitrate : Nat
  deriving DecidableEq, Repr

/-- R8: the configuration record, field by field in the order of its table. A device address is a `BitVec 7`, so R9's
clause "an address is wider than 7 bits" holds by type. -/
structure Cfg where
  fCpu : Nat
  fScl : Nat
  lcdAddr : Addr7
  rgbAddr : Addr7
  rows : Nat
  dots : Dots
  entryId : Bool
  entryS : Bool
  cursor : Bool
  blink : Bool
  selCmd : Byte
  selData : Byte
  base0 : Byte
  base1 : Byte
  regMode1 : Byte
  regMode2 : Byte
  regOutput : Byte
  regRed : Byte
  regGreen : Byte
  regBlue : Byte
  valMode1 : Byte
  valOutput : Byte
  valMode2 : Byte
  tPowerOn : Nat
  tFs1 : Nat
  tFs2 : Nat
  tClear : Nat
  tHome : Nat
  clearDelayOnError : Bool
  regAddr : RegAddr
  deriving DecidableEq, Repr

namespace Config

/-- R8 `MAXBUF`: the longest buffer operand of one command (decision D2). -/
def maxBuf : Nat := 255

/-- FREE VALUE (assumption 3). R8 `CLEAR_DELAY_ON_ERROR` is OPEN with no default: "A model quantifies over both values". This
constant is the value the reset configuration holds; nothing can evaluate it. -/
opaque clearDelayOnError : Bool

/-- FREE VALUE (assumption 2). R44: the status code SC of the n-th completed event of the run, where no script and no ideal oracle
gives it. Any of the 32 codes; bits 2..0 of the drawn status byte are 0. -/
opaque freeStatus : Nat → BitVec 5

/-- FREE VALUE (assumption 2). R44: the data byte the peripheral supplies at the n-th completed event of the run. -/
opaque freeByte : Nat → Byte

/-- R8's defaults and values, with R30's ATmega328P register addresses and R8's example clocks (PRESUMED or DESIGN CHOICE as
assumptions 1 and 3 say). It is the configuration of the reset state; every claim about all states holds of every other one. -/
def default : Cfg where
  fCpu := 16000000
  fScl := 100000
  lcdAddr := 0x3E#7
  rgbAddr := 0x62#7
  rows := 2
  dots := .dots5x8
  entryId := true
  entryS := false
  cursor := false
  blink := false
  selCmd := 0x80#8
  selData := 0x40#8
  base0 := 0x80#8
  base1 := 0xC0#8
  regMode1 := 0x00#8
  regMode2 := 0x01#8
  regOutput := 0x08#8
  regRed := 0x04#8
  regGreen := 0x03#8
  regBlue := 0x02#8
  valMode1 := 0x00#8
  valOutput := 0xFF#8
  valMode2 := 0x20#8
  tPowerOn := 30000
  tFs1 := 4500
  tFs2 := 150
  tClear := 2000
  tHome := 1520
  clearDelayOnError := clearDelayOnError
  regAddr := { ctrl := 0xBC, status := 0xB9, data := 0xBB, bitrate := 0xB8 }

end Config

end Sys2Proof
end

