-- ==== Sys2Proof/Syntax.lean ====
section
/-! DEFINITION. The instructions: one constructor per row of spec/opcode_table.json, in the table's order. The table has four
encoding layers (30_encoding.md): host command descriptors, CTRL trigger patterns, LCD command bytes, wire encodings. -/

namespace Sys2Proof

/-- R43 `xmode`: what the next plain trigger means to the peripheral. A CTRL trigger decodes on it (R111), so the syntax names it. -/
inductive XMode where
  | xidle
  | xaddr
  | xmt
  | xmr
  deriving DecidableEq, Repr

/-- R113: the direction flag of an address byte, 0 = write, 1 = read. -/
inductive Dir where
  | w
  | r
  deriving DecidableEq, Repr

inductive Instr where
  -- host command descriptors (R101)
  /-- R181, opcode 0x01 -/
  | busInit
  /-- R182, opcode 0x02: the whole address byte -/
  | beginTx (ab : Byte)
  /-- R183, opcode 0x03 -/
  | endTx
  /-- R184, opcode 0x04 -/
  | writeByte (b : Byte)
  /-- R185, opcode 0x05: the count byte is the buffer's length -/
  | writeBytes (buf : List Byte)
  /-- R186, opcode 0x06 -/
  | readAck
  /-- R187, opcode 0x07 -/
  | readNack
  /-- R188, opcode 0x08 -/
  | readBytes (n : Byte)
  /-- R190, opcode 0x09 -/
  | transmitOne (a b : Byte)
  /-- R191, opcode 0x0A -/
  | transmitTwo (a b0 b1 : Byte)
  /-- R189, opcode 0x0B -/
  | transmitMany (a : Byte) (buf : List Byte)
  /-- R233, opcode 0x10 -/
  | dispInit
  /-- R234, opcode 0x11 -/
  | clear
  /-- R235, opcode 0x12 -/
  | home
  /-- R236, opcode 0x13 -/
  | setCursor (col row : Byte)
  /-- R237, opcode 0x14 -/
  | putChar (c : Byte)
  /-- R238, opcode 0x15: the count byte is the string's length -/
  | putString (str : List Byte)
  /-- R239, opcode 0x16 -/
  | setBlReg (reg val : Byte)
  /-- R240, opcode 0x17 -/
  | setBlRgb (r g b : Byte)
  /-- R241, opcode 0x18 -/
  | setBlColor (r g b : Byte)
  /-- R103: a descriptor that spells no command (its whole byte list) -/
  | illegal (d : List Byte)
  -- CTRL trigger patterns (R110, R111)
  /-- R153, 0xA4 in any mode -/
  | start
  /-- R154, 0x84 in XADDR -/
  | sendAddr
  /-- R155, 0x84 in XMT -/
  | sendData
  /-- R156, 0xC4 in XMR -/
  | recvAck
  /-- R157, 0x84 in XMR -/
  | recvNack
  /-- R158, 0x94 in any mode -/
  | stop
  /-- R161: a trigger value and a mode that R111 decodes to no event -/
  | ctrlUndefined (v : Byte) (m : XMode)
  -- LCD command bytes (R116)
  /-- 0000 0001 -/
  | lcdClear
  /-- 0000 001x -/
  | lcdHome (x : Bool)
  /-- 0000 01IS -/
  | lcdEntryMode (i s : Bool)
  /-- 0000 1DCB -/
  | lcdDisplayControl (d c b : Bool)
  /-- 001L NFxx -/
  | lcdFunctionSet (dl n f : Bool) (x : BitVec 2)
  /-- 1aaa aaaa -/
  | lcdSetDdram (a : BitVec 7)
  -- wire encodings (R113 to R115)
  /-- R113: aaaa aaar -/
  | addressByte (addr : Addr7) (dir : Dir)
  /-- R114: [SEL_CMD, c] to LCD_ADDR -/
  | commandFrame (c : Byte)
  /-- R114: [SEL_DATA, c] to LCD_ADDR -/
  | characterFrame (c : Byte)
  /-- R115: [reg, val] to RGB_ADDR -/
  | backlightFrame (reg val : Byte)
  deriving DecidableEq, Repr

end Sys2Proof
end

