-- ==== Sys2Proof/WellFormed.lean ====
section
/-! DEFINITION. Well-formed instructions: the operand constraints of 30_encoding.md R104 and the shapes R101, R103 and R111 give. -/

namespace Sys2Proof

/-- R103: the bytes that spell no command: 0x00, 0x0C to 0x0F and 0x19 to 0xFF. -/
def illegalOpcode (op : Byte) : Bool :=
  op == 0x00#8 || (0x0C#8 ≤ op && op ≤ 0x0F#8) || 0x19#8 ≤ op

/-- R111: the pairs of masked trigger value and mode that decode to an event. -/
def triggerPairDefined (v : Byte) (m : XMode) : Bool :=
  let mv := v &&& 0xF5#8
  mv == 0xA4#8 || mv == 0x94#8 || (mv == 0x84#8 && m != .xidle) || (mv == 0xC4#8 && m == .xmr)

/-- The check on an instruction term. Rows with no constraint are well formed at every operand value. -/
def Instr.wf : Instr → Bool
  | .writeBytes buf => buf.length ≤ Config.maxBuf
  | .readBytes n => n != 0#8
  | .transmitOne a _ => !a.getLsbD 7
  | .transmitTwo a _ _ => !a.getLsbD 7
  | .transmitMany a buf => !a.getLsbD 7 && buf.length ≤ Config.maxBuf
  | .setCursor _ row => row == 0#8 || row == 1#8
  | .putString str => str.length ≤ Config.maxBuf && str.all (· != 0#8)
  | .illegal [] => true
  | .illegal (op :: _) => illegalOpcode op
  | .ctrlUndefined v m => v.getLsbD 7 && !triggerPairDefined v m
  | .busInit | .beginTx _ | .endTx | .writeByte _ | .readAck | .readNack | .dispInit | .clear | .home
  | .putChar _ | .setBlReg _ _ | .setBlRgb _ _ _ | .setBlColor _ _ _
  | .start | .sendAddr | .sendData | .recvAck | .recvNack | .stop
  | .lcdClear | .lcdHome _ | .lcdEntryMode _ _ | .lcdDisplayControl _ _ _ | .lcdFunctionSet _ _ _ _ | .lcdSetDdram _
  | .addressByte _ _ | .commandFrame _ | .characterFrame _ | .backlightFrame _ _ => true

end Sys2Proof
end

