-- ==== Sys2Proof/Decode.lean ====
section
/-! DEFINITION. The decoders of the four encoding layers (30_encoding.md), total on any bytes and rejecting by name, and after them
the encoder, written from the same tables. -/

namespace Sys2Proof

/-- A byte from its bits, bit 7 first (R11: bit 0 is the least significant). -/
def bits8 (b7 b6 b5 b4 b3 b2 b1 b0 : Bool) : Byte :=
  BitVec.ofBool b7 ++ BitVec.ofBool b6 ++ BitVec.ofBool b5 ++ BitVec.ofBool b4
    ++ BitVec.ofBool b3 ++ BitVec.ofBool b2 ++ BitVec.ofBool b1 ++ BitVec.ofBool b0

/-- Which layer a byte list belongs to. Nothing in the bytes tells: a host presents descriptors, the sequencer writes CTRL (and the
peripheral decodes the value with its `xmode`), the framer builds LCD command bytes and frames. -/
inductive Layer where
  | hostCmd
  | ctrlTrigger (m : XMode)
  | lcdCmd
  | wireAddress
  | wireDisplay
  | wireBacklight
  deriving DecidableEq, Repr

/-- Why bytes spell no instruction of their layer. -/
inductive DecodeError where
  /-- R102: the descriptor's byte count differs from its L, or its count byte is missing; the host interface raises FLT_BAD_LENGTH -/
  | badLength
  /-- R163: a CTRL value with bit 7 clear is no trigger -/
  | notATrigger
  /-- R116, R117: no LCD command byte of the framer has this pattern -/
  | notAnLcdCommand
  /-- R114, R115: not a two-byte frame, or its selector is neither SEL_CMD nor SEL_DATA -/
  | notAFrame
  /-- R113: an address byte is one byte -/
  | notAnAddressByte
  deriving DecidableEq, Repr

/-! ### Host command descriptors -/

/-- R101: the twenty opcodes, in the table's order. -/
inductive Opcode where
  | busInit | beginTx | endTx | writeByte | writeBytes | readAck | readNack | readBytes
  | transmitOne | transmitTwo | transmitMany
  | dispInit | clear | home | setCursor | putChar | putString | setBlReg | setBlRgb | setBlColor
  deriving DecidableEq, Repr

/-- R101, the column `d[0]`. -/
def Opcode.byte : Opcode → Byte
  | .busInit => 0x01#8
  | .beginTx => 0x02#8
  | .endTx => 0x03#8
  | .writeByte => 0x04#8
  | .writeBytes => 0x05#8
  | .readAck => 0x06#8
  | .readNack => 0x07#8
  | .readBytes => 0x08#8
  | .transmitOne => 0x09#8
  | .transmitTwo => 0x0A#8
  | .transmitMany => 0x0B#8
  | .dispInit => 0x10#8
  | .clear => 0x11#8
  | .home => 0x12#8
  | .setCursor => 0x13#8
  | .putChar => 0x14#8
  | .putString => 0x15#8
  | .setBlReg => 0x16#8
  | .setBlRgb => 0x17#8
  | .setBlColor => 0x18#8

/-- R101: its rows. -/
def Opcode.all : List Opcode :=
  [.busInit, .beginTx, .endTx, .writeByte, .writeBytes, .readAck, .readNack, .readBytes, .transmitOne, .transmitTwo, .transmitMany,
    .dispInit, .clear, .home, .setCursor, .putChar, .putString, .setBlReg, .setBlRgb, .setBlColor]

/-- R101, R103: the opcode a first byte spells, or none. -/
def opcodeOf (d0 : Byte) : Option Opcode :=
  Opcode.all.find? fun op => op.byte == d0

/-- R102: an opcode with no operand byte, `L = 1`. -/
def noOperand (i : Instr) : List Byte → Except DecodeError Instr
  | [] => .ok i
  | _ => .error .badLength

/-- R102: one operand byte, `L = 2`. -/
def oneOperand (f : Byte → Instr) : List Byte → Except DecodeError Instr
  | [a] => .ok (f a)
  | _ => .error .badLength

/-- R102: two operand bytes, `L = 3`. -/
def twoOperands (f : Byte → Byte → Instr) : List Byte → Except DecodeError Instr
  | [a, b] => .ok (f a b)
  | _ => .error .badLength

/-- R102: three operand bytes, `L = 4`. -/
def threeOperands (f : Byte → Byte → Byte → Instr) : List Byte → Except DecodeError Instr
  | [a, b, c] => .ok (f a b c)
  | _ => .error .badLength

/-- R102: a count byte and that many bytes. -/
def countedOperand (f : List Byte → Instr) : List Byte → Except DecodeError Instr
  | n :: buf => if buf.length = n.toNat then .ok (f buf) else .error .badLength
  | [] => .error .badLength

/-- R102: an address byte, a count byte and that many bytes. -/
def addressedOperand (f : Byte → List Byte → Instr) : List Byte → Except DecodeError Instr
  | a :: args => countedOperand (f a) args
  | [] => .error .badLength

/-- R101: the operand bytes `d[1..]` under an opcode. -/
def decodeOperands (op : Opcode) (args : List Byte) : Except DecodeError Instr :=
  match op with
  | .busInit => noOperand .busInit args
  | .beginTx => oneOperand .beginTx args
  | .endTx => noOperand .endTx args
  | .writeByte => oneOperand .writeByte args
  | .writeBytes => countedOperand .writeBytes args
  | .readAck => noOperand .readAck args
  | .readNack => noOperand .readNack args
  | .readBytes => oneOperand .readBytes args
  | .transmitOne => twoOperands .transmitOne args
  | .transmitTwo => threeOperands .transmitTwo args
  | .transmitMany => addressedOperand .transmitMany args
  | .dispInit => noOperand .dispInit args
  | .clear => noOperand .clear args
  | .home => noOperand .home args
  | .setCursor => twoOperands .setCursor args
  | .putChar => oneOperand .putChar args
  | .putString => countedOperand .putString args
  | .setBlReg => twoOperands .setBlReg args
  | .setBlRgb => threeOperands .setBlRgb args
  | .setBlColor => threeOperands .setBlColor args

/-- R100 to R103: a whole descriptor. An unknown or missing opcode is the instruction ILLEGAL (its meaning raises FLT_BAD_OPCODE); a
wrong byte count is rejected. The operand constraints of R104 are the meanings' own checks. -/
def decodeDescriptor : List Byte → Except DecodeError Instr
  | [] => .ok (.illegal [])
  | d0 :: args =>
    match opcodeOf d0 with
    | some op => decodeOperands op args
    | none => .ok (.illegal (d0 :: args))

/-! ### CTRL triggers -/

/-- R111: the event a trigger value decodes to, with the peripheral's mode. Bits 3 and 1 are ignored. -/
def decodeTrigger (v : Byte) (m : XMode) : Instr :=
  let mv := v &&& 0xF5#8
  if mv = 0xA4#8 then .start
  else if mv = 0x94#8 then .stop
  else if mv = 0x84#8 ∧ m = .xaddr then .sendAddr
  else if mv = 0x84#8 ∧ m = .xmt then .sendData
  else if mv = 0x84#8 ∧ m = .xmr then .recvNack
  else if mv = 0xC4#8 ∧ m = .xmr then .recvAck
  else .ctrlUndefined v m

/-! ### LCD command bytes and wire bytes -/

/-- R116: the highest set bit selects the command; the bits below it are its fields. R117's commands have no row. -/
def decodeLcd (c : Byte) : Option Instr :=
  if c.getLsbD 7 then some (.lcdSetDdram (c.extractLsb' 0 7))
  else if c.getLsbD 6 then none
  else if c.getLsbD 5 then some (.lcdFunctionSet (c.getLsbD 4) (c.getLsbD 3) (c.getLsbD 2) (c.extractLsb' 0 2))
  else if c.getLsbD 4 then none
  else if c.getLsbD 3 then some (.lcdDisplayControl (c.getLsbD 2) (c.getLsbD 1) (c.getLsbD 0))
  else if c.getLsbD 2 then some (.lcdEntryMode (c.getLsbD 1) (c.getLsbD 0))
  else if c.getLsbD 1 then some (.lcdHome (c.getLsbD 0))
  else if c.getLsbD 0 then some .lcdClear
  else none

/-- R113: the direction flag in bit 0. -/
def dirOf (ab : Byte) : Dir := if ab.getLsbD 0 then .r else .w

/-- R113: the 7-bit address in bits 7:1. -/
def addrOf (ab : Byte) : Addr7 := ab.extractLsb' 1 7

/-- R114: a frame's selector byte tells a command from a character. -/
def decodeDisplayFrame (cfg : Cfg) (sel c : Byte) : Except DecodeError Instr :=
  if sel = cfg.selCmd then .ok (.commandFrame c)
  else if sel = cfg.selData then .ok (.characterFrame c)
  else .error .notAFrame

/-- The decoder: total on any bytes of any layer. -/
def decode (cfg : Cfg) : Layer → List Byte → Except DecodeError Instr
  | .hostCmd, d => decodeDescriptor d
  | .ctrlTrigger m, [v] => if v.getLsbD 7 then .ok (decodeTrigger v m) else .error .notATrigger
  | .ctrlTrigger _, _ => .error .notATrigger
  | .lcdCmd, [c] => match decodeLcd c with
    | some i => .ok i
    | none => .error .notAnLcdCommand
  | .lcdCmd, _ => .error .notAnLcdCommand
  | .wireAddress, [ab] => .ok (.addressByte (addrOf ab) (dirOf ab))
  | .wireAddress, _ => .error .notAnAddressByte
  | .wireDisplay, [sel, c] => decodeDisplayFrame cfg sel c
  | .wireDisplay, _ => .error .notAFrame
  | .wireBacklight, [reg, val] => .ok (.backlightFrame reg val)
  | .wireBacklight, _ => .error .notAFrame

/-! ### The encoder -/

/-- R113: `ab = (addr << 1) | dir`. -/
def addressByte (addr : Addr7) (dir : Dir) : Byte :=
  addr ++ (match dir with | .w => 0#1 | .r => 1#1)

/-- R101: a count byte. -/
def countByte (buf : List Byte) : Byte := BitVec.ofNat 8 buf.length

/-- The bytes of an instruction: R101 (descriptors), R110 (triggers), R116 (LCD commands), R113 to R115 (wire). -/
def encode (cfg : Cfg) : Instr → List Byte
  | .busInit => [0x01#8]
  | .beginTx ab => [0x02#8, ab]
  | .endTx => [0x03#8]
  | .writeByte b => [0x04#8, b]
  | .writeBytes buf => 0x05#8 :: countByte buf :: buf
  | .readAck => [0x06#8]
  | .readNack => [0x07#8]
  | .readBytes n => [0x08#8, n]
  | .transmitOne a b => [0x09#8, a, b]
  | .transmitTwo a b0 b1 => [0x0A#8, a, b0, b1]
  | .transmitMany a buf => 0x0B#8 :: a :: countByte buf :: buf
  | .dispInit => [0x10#8]
  | .clear => [0x11#8]
  | .home => [0x12#8]
  | .setCursor col row => [0x13#8, col, row]
  | .putChar c => [0x14#8, c]
  | .putString str => 0x15#8 :: countByte str :: str
  | .setBlReg reg val => [0x16#8, reg, val]
  | .setBlRgb r g b => [0x17#8, r, g, b]
  | .setBlColor r g b => [0x18#8, r, g, b]
  | .illegal d => d
  | .start => [0xA4#8]
  | .sendAddr => [0x84#8]
  | .sendData => [0x84#8]
  | .recvAck => [0xC4#8]
  | .recvNack => [0x84#8]
  | .stop => [0x94#8]
  | .ctrlUndefined v _ => [v]
  | .lcdClear => [0x01#8]
  | .lcdHome x => [bits8 false false false false false false true x]
  | .lcdEntryMode i s => [bits8 false false false false false true i s]
  | .lcdDisplayControl d c b => [bits8 false false false false true d c b]
  | .lcdFunctionSet dl n f x => [bits8 false false true dl n f (x.getLsbD 1) (x.getLsbD 0)]
  | .lcdSetDdram a => [1#1 ++ a]
  | .addressByte addr dir => [addressByte addr dir]
  | .commandFrame c => [cfg.selCmd, c]
  | .characterFrame c => [cfg.selData, c]
  | .backlightFrame reg val => [reg, val]

/-- The layer of an instruction's bytes; for a trigger row, with the mode its row of R111 names (START and STOP decode in any mode). -/
def Instr.layer : Instr → Layer
  | .busInit | .beginTx _ | .endTx | .writeByte _ | .writeBytes _ | .readAck | .readNack | .readBytes _
  | .transmitOne _ _ | .transmitTwo _ _ _ | .transmitMany _ _
  | .dispInit | .clear | .home | .setCursor _ _ | .putChar _ | .putString _ | .setBlReg _ _ | .setBlRgb _ _ _
  | .setBlColor _ _ _ | .illegal _ => .hostCmd
  | .start | .stop => .ctrlTrigger .xidle
  | .sendAddr => .ctrlTrigger .xaddr
  | .sendData => .ctrlTrigger .xmt
  | .recvAck | .recvNack => .ctrlTrigger .xmr
  | .ctrlUndefined _ m => .ctrlTrigger m
  | .lcdClear | .lcdHome _ | .lcdEntryMode _ _ | .lcdDisplayControl _ _ _ | .lcdFunctionSet _ _ _ _ | .lcdSetDdram _ => .lcdCmd
  | .addressByte _ _ => .wireAddress
  | .commandFrame _ | .characterFrame _ => .wireDisplay
  | .backlightFrame _ _ => .wireBacklight

/-- The LCD command byte of an LCD row (R116). -/
def lcdByte : Instr → Byte
  | .lcdClear => 0x01#8
  | .lcdHome x => bits8 false false false false false false true x
  | .lcdEntryMode i s => bits8 false false false false false true i s
  | .lcdDisplayControl d c b => bits8 false false false false true d c b
  | .lcdFunctionSet dl n f x => bits8 false false true dl n f (x.getLsbD 1) (x.getLsbD 0)
  | .lcdSetDdram a => 1#1 ++ a
  | _ => 0x00#8

/-! ### One word of the opcode table -/

/-- R101: the operand bytes of an opcode, all zero (a count byte of zero has no buffer after it). -/
def zeroOperands : Opcode → List Byte
  | .busInit | .endTx | .readAck | .readNack | .dispInit | .clear | .home => []
  | .beginTx | .writeByte | .writeBytes | .readBytes | .putChar | .putString => [0#8]
  | .transmitOne | .transmitMany | .setCursor | .setBlReg => [0#8, 0#8]
  | .transmitTwo | .setBlRgb | .setBlColor => [0#8, 0#8, 0#8]

/-- `n` bytes of a number, the least significant first. -/
def littleEndian : Nat → Nat → List Byte
  | 0, _ => []
  | n + 1, w => BitVec.ofNat 8 w :: littleEndian n (w / 256)

/-- A descriptor from the bytes given of it, the missing operand bytes zero. -/
def zeroExtended : List Byte → List Byte
  | [] => []
  | d0 :: args =>
    match opcodeOf d0 with
    | some op => d0 :: args ++ (zeroOperands op).drop args.length
    | none => d0 :: args

/-- The layer and bytes of a table word (assumption 12). Rows of different layers share words: an 8-bit word is read as the first of
host opcode, CTRL trigger (0x84 in XADDR, 0xC4 in XMR), LCD command byte, ILLEGAL that it fits; a 16-bit word is a frame, its bits
15..8 the first byte sent, as the table numbers them. -/
def tableSlot (nbits w : Nat) : Layer × List Byte :=
  let b := BitVec.ofNat 8 w
  let hi := BitVec.ofNat 8 (w / 256)
  match nbits with
  | 8 =>
    if (opcodeOf b).isSome then (.hostCmd, zeroExtended [b])
    else if b &&& 0xF5#8 = 0xA4#8 ∨ b &&& 0xF5#8 = 0x94#8 then (.ctrlTrigger .xidle, [b])
    else if b &&& 0xF5#8 = 0x84#8 then (.ctrlTrigger .xaddr, [b])
    else if b &&& 0xF5#8 = 0xC4#8 then (.ctrlTrigger .xmr, [b])
    else if (decodeLcd b).isSome then (.lcdCmd, [b])
    else (.hostCmd, [b])
  | 16 =>
    if hi = Config.default.selCmd ∨ hi = Config.default.selData then (.wireDisplay, [hi, b])
    else (.wireBacklight, [hi, b])
  | _ => (.hostCmd, zeroExtended (littleEndian (nbits / 8) w))

/-- The instruction this decoder reads from a word of spec/opcode_table.json, numbered as the table numbers it. -/
def decodeTableWord (nbits w : Nat) : Option Instr :=
  match decode Config.default (tableSlot nbits w).1 (tableSlot nbits w).2 with
  | .ok i => some i
  | .error _ => none

end Sys2Proof
end

