-- ==== Sys2Proof/Machine/State.lean ====
section
/-! DEFINITION. The state: everything the spec gives the machine (10_state.md R30 to R53), the delay unit and the register trace the
other files add, and the environment (host, scheduler, oracle) as data the step reads. -/

namespace Sys2Proof.Machine

/-- 60_exceptions.md R304: the closed list of fault reasons. A reason is raised by setting the fault mark (R306); a step, or a meaning,
of a marked machine answers it. Every one is safe: the machine stops where the spec gives no further behaviour. -/
inductive Fault where
  /-- FLT_REENTRANT: raised at accept, a descriptor presented while seq = BUSY. Safe. -/
  | reentrant
  /-- FLT_BAD_OPCODE: raised at accept, an opcode outside R101 or the empty descriptor. Safe. -/
  | badOpcode
  /-- FLT_BAD_LENGTH: raised at accept, a descriptor of the wrong length. Safe. -/
  | badLength
  /-- FLT_BAD_OPERAND: raised at accept, an address with bit 7 set, a row not 0 or 1, a 0x00 in a PUT_STRING. Safe. -/
  | badOperand
  /-- FLT_READ_COUNT_ZERO: raised at accept, READ_BYTES 0. Safe. -/
  | readCountZero
  /-- FLT_PHASE: raised at accept, a write outside WRITE or a read outside READ. Safe. -/
  | phase
  /-- FLT_CTRL_UNDEFINED: raised by a CTRL trigger that decodes to no event. Safe; the sequencer never reaches it. -/
  | ctrlUndefined
  /-- FLT_TRIGGER_IN_FLIGHT: raised by a CTRL trigger while an event is in flight. Safe; the sequencer never reaches it. -/
  | triggerInFlight
  /-- FLT_NO_RESULT: raised by a host read of RESULT before any command has completed. Safe. -/
  | noResult
  deriving DecidableEq, Repr

/-- Why a step has no meaning. -/
inductive Refusal where
  /-- No meaning yet for the named instruction; raised by exec's arm. Safe. No arm raises it: every row is modelled. -/
  | notModelled (mnemonic : String)
  /-- 00_scope.md R9: the configuration breaks a legal-value constraint, and the model has no machine for it; raised by step. Safe. -/
  | illegalConfig
  deriving DecidableEq, Repr

/-! ### Peripheral -/

/-- R30: the four peripheral registers, addressed by name. -/
inductive Reg where
  | ctrl
  | status
  | data
  | bitrate
  deriving DecidableEq, Repr

/-- R31: the fields of CTRL. Bit 1 is reserved, reads 0 and has no storage. -/
structure Ctrl where
  int : Bool
  ea  : Bool
  sta : Bool
  sto : Bool
  wc  : Bool
  en  : Bool
  ie  : Bool
  deriving DecidableEq, Repr

/-- R36: the fields of STATUS. Bit 2 is reserved, reads 0 and has no storage. -/
structure Status where
  sc : BitVec 5
  ps : BitVec 2
  deriving DecidableEq, Repr

/-- R43 `ev`: the event values. A STOP is never one of them. -/
inductive Event where
  | start
  | sendAddr (b : Byte)
  | sendData (b : Byte)
  | recvAck
  | recvNack
  deriving DecidableEq, Repr

/-- R43 `bus`. -/
inductive Bus where
  | free
  | held
  deriving DecidableEq, Repr

/-- The bus peripheral: R30 to R37 and its hidden state R43. -/
structure Periph where
  ctrl    : Ctrl
  status  : Status
  data    : Byte
  bitrate : Byte
  ev      : Option Event
  xmode   : XMode
  bus     : Bus
  deriving DecidableEq, Repr

/-! ### Sequencer -/

/-- R41: the result of a command or sub-operation. -/
inductive Res where
  | ok
  | err
  deriving DecidableEq, Repr

/-- R45 `seq`. -/
inductive Seq where
  | ready
  | busy
  deriving DecidableEq, Repr

/-- R39 `phase`. -/
inductive Phase where
  | idle
  | write
  | read
  | readDone
  | failed
  deriving DecidableEq, Repr

/-- R38 `OPND`: the operand latch. `opcode :: fixed ++ buf` is the latched descriptor. -/
structure Opnd where
  opcode : Byte
  fixed  : List Byte
  buf    : List Byte
  idx    : Byte
  deriving DecidableEq, Repr

/-- 40_bus_events.md R164: the stages whose status is checked. -/
inductive Stage where
  | start
  | addr (dir : Dir)
  | data
  deriving DecidableEq, Repr

/-- One item of the continuation (R40): a micro-operation of R150, an assignment of the pseudocode, or a sub-operation call (R14) that
a later step replaces by its body. -/
inductive Op where
  /-- `RegWrite(r, v)` -/
  | write (r : Reg) (v : Byte)
  /-- `WaitEvent()` (R151) -/
  | wait
  /-- `RegRead(STATUS) & 0xF8`, compared with the stage's expected set; on a mismatch `phase <- FAILED` and the result is ERR -/
  | check (st : Stage)
  /-- `RegRead(DATA)`, appended to the bytes read so far (R167) -/
  | take
  /-- `Delay(t)` -/
  | delay (t : Nat)
  /-- `phase <- p` -/
  | setPhase (p : Phase)
  /-- a call of a lower layer's instruction: an LCD command, a frame, an address byte -/
  | run (i : Instr)
  /-- `WRITE_BYTES_body` from index `idx` on, with the bytes left -/
  | writeBytes (idx : Nat) (rest : List Byte)
  /-- `READ_BYTES_body` from index `idx` on, with the number of acknowledged reads left before the last read -/
  | readBytes (idx : Nat) (acked : Nat)
  /-- `PUT_STRING_body` from index `idx` on, with the characters left -/
  | putString (idx : Nat) (rest : List Byte)
  /-- `CLEAR_body()` -/
  | clearBody
  deriving DecidableEq, Repr

/-- When a continuation item still runs after a sub-operation has returned ERR. -/
inductive Guard where
  /-- "if r = ERR: return ERR" drops it -/
  | onOk
  /-- the unconditional STOP of R189 -/
  | always
  /-- the delay of R234 and R235: kept if and only if CLEAR_DELAY_ON_ERROR -/
  | clearDelay
  deriving DecidableEq, Repr

/-- One item of the continuation with its guard. -/
structure Task where
  op    : Op
  guard : Guard
  deriving DecidableEq, Repr

/-- R40: the results bound so far. `out` is the read buffer a read command is filling, none in every other command. -/
structure Bound where
  res : Res
  out : Option (List Byte)
  deriving DecidableEq, Repr

/-- The sequencer and the host interface registers: R38 to R42, R45, and the delay unit's pending wait (00_scope.md R5). -/
structure Sequencer where
  seq    : Seq
  phase  : Phase
  result : Option Res
  rdata  : List Byte
  opnd   : Option Opnd
  cont   : List Task
  bound  : Bound
  delay  : Option Nat
  deriving DecidableEq, Repr

/-! ### Observations -/

/-- 00_scope.md R15: the events of the bus trace. -/
inductive BusEvent where
  | start (s : Byte)
  | addr (b s : Byte)
  | tx (b s : Byte)
  | rxa (d s : Byte)
  | rxn (d s : Byte)
  | stop
  | delay (t : Nat)
  deriving DecidableEq, Repr

/-- R15, R150: the entries of the register trace: `W r<-v`, `P`, `R r->v`, and `DELAY(t)` for the micro-operation `Delay(t)` (assumption
22). -/
inductive RegEvent where
  | w (r : Reg) (v : Byte)
  | p
  | r (r : Reg) (v : Byte)
  | delay (t : Nat)
  deriving DecidableEq, Repr

/-- R46: one `(command, RESULT, RDATA)` triple; the command as its latched descriptor bytes. -/
structure Report where
  command : List Byte
  result  : Res
  rdata   : List Byte
  deriving DecidableEq, Repr

/-- What a claim observes: `trace` and the triples (R46), the register trace (R150), and what the host's reads of RESULT and RDATA
returned (R118). -/
structure Obs where
  trace    : List BusEvent
  regTrace : List RegEvent
  reports  : List Report
  seen     : List (BitVec 1 × List Byte)
  deriving DecidableEq, Repr

/-! ### Environment: the model's own fields -/

/-- R48, R41: what the host can do at the command interface. -/
inductive HostAction where
  | present (d : List Byte)
  | readResult
  deriving DecidableEq, Repr

/-- 00_scope.md R5: the agents, each its own step source. -/
inductive Agent where
  | host
  | sequencer
  | peripheral
  | delayUnit
  deriving DecidableEq, Repr

/-- R44: one draw of the oracle: the status code (bits 7:3 of a status byte whose bits 2:0 are 0) and a data byte. -/
structure Answer where
  sc   : BitVec 5
  data : Byte
  deriving DecidableEq, Repr

/-- What the oracle answers when no script is left: any value (R44), or 40_bus_events.md R165's two test oracles. -/
inductive OracleMode where
  | free
  | ideal
  | idealExcept (k : Nat) (sc : BitVec 5)
  deriving DecidableEq, Repr

/-- The environment as data: the host's actions to come, which agent moves next (then a default order), whether BUS_LIVE (R168) holds
by default, and the oracle. -/
structure Env where
  host   : List HostAction
  sched  : List Agent
  live   : Bool
  script : List Answer
  mode   : OracleMode
  reads  : List Byte
  drawn  : Nat
  deriving DecidableEq, Repr

/-- The whole machine: the configuration (R49), the peripheral, the sequencer, the observations, the fault mark (R47), the environment. -/
structure State where
  cfg   : Cfg
  per   : Periph
  sqr   : Sequencer
  obs   : Obs
  fault : Option Fault
  env   : Env
  deriving DecidableEq, Repr

/-! ### Reset -/

/-- R53: the peripheral after reset: CTRL 0x00, STATUS 0xF8, DATA 0xFF, BITRATE 0x00, `ev`, `xmode`, `bus` none, XIDLE, FREE. -/
def Periph.reset : Periph where
  ctrl := { int := false, ea := false, sta := false, sto := false, wc := false, en := false, ie := false }
  status := { sc := 0b11111#5, ps := 0#2 }
  data := 0xFF#8
  bitrate := 0x00#8
  ev := none
  xmode := .xidle
  bus := .free

/-- R40: the empty continuation's bound results. -/
def Bound.empty : Bound where
  res := .ok
  out := none

/-- R53: READY, IDLE, no RESULT, RDATA [], OPND and continuation empty. -/
def Sequencer.reset : Sequencer where
  seq := .ready
  phase := .idle
  result := none
  rdata := []
  opnd := none
  cont := []
  bound := Bound.empty
  delay := none

/-- R53: `trace` empty, and with it every other observation. -/
def Obs.reset : Obs where
  trace := []
  regTrace := []
  reports := []
  seen := []

/-- DESIGN CHOICE (assumption 4): no host action, no schedule, BUS_LIVE, no script, the free oracle. -/
def Env.reset : Env where
  host := []
  sched := []
  live := true
  script := []
  mode := .free
  reads := []
  drawn := 0

/-- R53 under a given configuration: the machine right after reset. -/
def State.resetWith (cfg : Cfg) : State where
  cfg := cfg
  per := Periph.reset
  sqr := Sequencer.reset
  obs := Obs.reset
  fault := none
  env := Env.reset

/-- The machine right after reset (R53, R340), with the configuration of R8's defaults. -/
def State.reset : State := State.resetWith Config.default

end Sys2Proof.Machine
end

