-- ==== Sys2Proof/Machine/Flags.lean ====
section
/-! DEFINITION. The status bits: CTRL and STATUS as bytes (10_state.md R33, R36), the status code (40_bus_events.md R166) and the
expected sets (R164). -/

namespace Sys2Proof.Machine

/-- R33: `INT<<7 | EA<<6 | STA<<5 | STO<<4 | WC<<3 | EN<<2 | IE`. -/
def ctrlByte (c : Ctrl) : Byte :=
  bits8 c.int c.ea c.sta c.sto c.wc c.en false c.ie

/-- R36: `SC<<3 | PS`. -/
def statusByte (t : Status) : Byte :=
  t.sc ++ 0#1 ++ t.ps

/-- R44: the status byte of a drawn code, `s[7:3] = sc` and `s[2:0] = 0`. -/
def codeByte (sc : BitVec 5) : Byte :=
  sc ++ 0#3

/-- R166: the status code of a STATUS byte. -/
def statusCode (v : Byte) : Byte :=
  v &&& 0xF8#8

/-- R164: the expected set of a stage. -/
def expected : Stage → Byte → Bool
  | .start, c => c == 0x08#8 || c == 0x10#8
  | .addr .w, c => c == 0x18#8
  | .addr .r, c => c == 0x40#8
  | .data, c => c == 0x28#8

/-- What a passed check does to `phase` (R182): only the address check sets it. -/
def phaseAfter : Stage → Phase → Phase
  | .addr .w, _ => .write
  | .addr .r, _ => .read
  | .start, p => p
  | .data, p => p

/-- R118: RESULT as the bit the host reads. -/
def resultBit : Res → BitVec 1
  | .ok => 0#1
  | .err => 1#1

end Sys2Proof.Machine
end

