-- ==== Sys2Proof/Machine/Operands.lean ====
section
/-! DEFINITION. Operands and the values computed from the configuration: the legal configurations (00_scope.md R9), the divisor
(R8, 41_bus_master.md R193), the DPL's bytes (42_display.md R232), the latch (10_state.md R38) and the operand checks
(30_encoding.md R104). -/

namespace Sys2Proof.Machine

/-! ### Configuration values -/

/-- R8, R193: `(F_CPU / F_SCL - 16) / 2`, before it is narrowed to the register. -/
def bitRateValue (cfg : Cfg) : Nat := (cfg.fCpu / cfg.fScl - 16) / 2

/-- R181: the divisor byte BUS_INIT writes. R9 refuses a configuration where it does not fit. -/
def bitRate (cfg : Cfg) : Byte := BitVec.ofNat 8 (bitRateValue cfg)

/-- R8, R9: the legal configurations. -/
def legalCfg (cfg : Cfg) : Bool :=
  (cfg.rows == 1 || cfg.rows == 2)
    && !(cfg.dots == .dots5x10 && cfg.rows == 2)
    && decide (16 ≤ cfg.fCpu / cfg.fScl)
    && decide (bitRateValue cfg ≤ 255)
    && cfg.base0 != cfg.base1
    && cfg.selCmd != cfg.selData
    && decide (0 < cfg.tHome) && decide (cfg.tHome < cfg.tClear)
    && decide (30000 ≤ cfg.tPowerOn) && decide (4500 ≤ cfg.tFs1) && decide (150 ≤ cfg.tFs2)

/-- R232 `FS`: `0x20 | N<<3 | F<<2`, DL = 0. -/
def functionSetByte (cfg : Cfg) : Byte :=
  bits8 false false true false (cfg.rows == 2) (cfg.dots == .dots5x10) false false

/-- R232 `DC`: `0x08 | 0x04 | CURSOR<<1 | BLINK`. -/
def displayControlByte (cfg : Cfg) : Byte :=
  bits8 false false false false true true cfg.cursor cfg.blink

/-- R232 `EM`: `0x04 | ENTRY_ID<<1 | ENTRY_S`. -/
def entryModeByte (cfg : Cfg) : Byte :=
  bits8 false false false false false true cfg.entryId cfg.entryS

/-- R232 `CLR`. -/
def clearByte : Byte := 0x01#8

/-- R232 `HOM`. -/
def homeByte : Byte := 0x02#8

/-- R232 `BASE(row)`. -/
def rowBase (cfg : Cfg) (row : Byte) : Byte :=
  if row = 0#8 then cfg.base0 else cfg.base1

/-- R236: `(col | BASE(row)) & 0xFF`. -/
def cursorByte (cfg : Cfg) (col row : Byte) : Byte :=
  (col ||| rowBase cfg row) &&& 0xFF#8

/-- R105: the address byte a TRANSMIT command builds, `(d[1] << 1) | 0`. -/
def writeAddress (a : Byte) : Byte := (a <<< 1) ||| 0#8

/-! ### The operand latch -/

/-- R38, R106: OPND at acceptance, the loop index at 0. -/
def latch (opcode : Byte) (fixed buf : List Byte) : Opnd where
  opcode := opcode
  fixed := fixed
  buf := buf
  idx := 0#8

/-- R46: the descriptor bytes of a latched command. -/
def descriptorOf : Option Opnd → List Byte
  | none => []
  | some o => o.opcode :: o.fixed ++ o.buf

/-! ### Operand checks -/

/-- R104: a TRANSMIT address has bit 7 clear. -/
def checkAddress (a : Byte) : Option Fault :=
  if a.getLsbD 7 then some .badOperand else none

/-- R104: a cursor row is 0 or 1. -/
def checkRow (row : Byte) : Option Fault :=
  if row = 0#8 ∨ row = 1#8 then none else some .badOperand

/-- R104: a string has no 0x00 byte. -/
def checkString (str : List Byte) : Option Fault :=
  if str.any (· == 0#8) then some .badOperand else none

/-- R104: a read count is at least 1. -/
def checkCount (n : Byte) : Option Fault :=
  if n = 0#8 then some .readCountZero else none

end Sys2Proof.Machine
end

