-- ==== Sys2Proof/Machine/Ops.lean ====
section
/-! DEFINITION. The shared operations: raising a fault (60_exceptions.md R306), register reads and writes (10_state.md R32 to R37), the
trigger (40_bus_events.md R159 to R161), acceptance (30_encoding.md R106, 60_exceptions.md R303), the end of a command
(10_state.md R45), the traces. -/

namespace Sys2Proof.Machine

/-- The answer of a step or a meaning. -/
abbrev Answered := Host.Outcome State Fault Refusal

/-! ### Faults -/

/-- R306: `fault <- reason`; every other piece of state keeps its value. -/
def raise (f : Fault) (s : State) : Answered :=
  .next { s with fault := some f }

/-- R306, R47: no agent has a step once the mark is set. -/
def unlessFaulted (s : State) (k : Answered) : Answered :=
  match s.fault with
  | some f => .fault f
  | none => k

/-! ### Traces -/

/-- R46: an event appended to the trace. -/
def logBus (e : BusEvent) (s : State) : State :=
  { s with obs := { s.obs with trace := s.obs.trace ++ [e] } }

/-- R150: an entry appended to the register trace. -/
def logReg (e : RegEvent) (s : State) : State :=
  { s with obs := { s.obs with regTrace := s.obs.regTrace ++ [e] } }

/-- R46, R150: `DELAY(t)` appended to the trace and, as the micro-operation it is, to the register trace. -/
def logDelay (t : Nat) (s : State) : State :=
  logReg (.delay t) (logBus (.delay t) s)

/-! ### Peripheral registers -/

/-- R33, R36, R37: `RegRead(r)`; no side effect (20_memory.md R76). -/
def readReg (r : Reg) (s : State) : Byte :=
  match r with
  | .ctrl => ctrlByte s.per.ctrl
  | .status => statusByte s.per.status
  | .data => s.per.data
  | .bitrate => s.per.bitrate

/-- R32 steps 1 to 3: the field updates of a CTRL write. `WC` is unchanged and bit 1 has no storage. -/
def writeCtrlFields (v : Byte) (p : Periph) : Periph :=
  { p with ctrl := { p.ctrl with
      int := if v.getLsbD 7 then false else p.ctrl.int
      ea := v.getLsbD 6
      sta := v.getLsbD 5
      sto := v.getLsbD 4
      en := v.getLsbD 2
      ie := v.getLsbD 0 } }

/-- R36: a STATUS write sets PS and nothing else. -/
def writeStatus (v : Byte) (p : Periph) : Periph :=
  { p with status := { p.status with ps := v.extractLsb' 0 2 } }

/-- R35: a DATA write is taken only while `INT = 1`; otherwise it is a collision. -/
def writeData (v : Byte) (p : Periph) : Periph :=
  if p.ctrl.int then { p with data := v, ctrl := { p.ctrl with wc := false } }
  else { p with ctrl := { p.ctrl with wc := true } }

/-- R37: BITRATE is read/write with no side effect. -/
def writeBitrate (v : Byte) (p : Periph) : Periph :=
  { p with bitrate := v }

/-- `RegWrite(r, v)` where it triggers nothing (R163 for CTRL). -/
def writeReg (r : Reg) (v : Byte) (p : Periph) : Periph :=
  match r with
  | .ctrl => writeCtrlFields v p
  | .status => writeStatus v p
  | .data => writeData v p
  | .bitrate => writeBitrate v p

/-! ### Triggers -/

/-- The effect every trigger write shares: it holds while a stop is pending (R159), faults while an event is in flight (R160) or if it
decodes to no event (R161), and otherwise writes the fields (R32) and starts its event. -/
def trigger (v : Byte) (decodes : Bool) (begin_ : State → State) (s : State) : Answered :=
  unlessFaulted s <|
    if s.per.ctrl.sto then .next s
    else if s.per.ev.isSome then raise .triggerInFlight s
    else if decodes then .next (begin_ { s with per := writeCtrlFields v s.per })
    else raise .ctrlUndefined s

/-- R153 to R157: the event is in flight from its trigger on. -/
def beginEvent (e : Event) (s : State) : State :=
  { s with per := { s.per with ev := some e } }

/-! ### Commands -/

/-- R303: the checks at acceptance in their order (re-entrance, operand, phase; the opcode and length checks are the decoder's), then
R106: the descriptor is latched, `seq <- BUSY`, and the command's pseudocode starts. -/
def accept (o : Opnd) (operandFault : Option Fault) (admitted : Bool) (out : Option (List Byte)) (body : List Task)
    (s : State) : Answered :=
  unlessFaulted s <|
    match s.sqr.seq with
    | .busy => raise .reentrant s
    | .ready =>
      match operandFault with
      | some f => raise f s
      | none =>
        if admitted then
          .next { s with sqr := { s.sqr with
            seq := .busy, opnd := some o, cont := body, bound := { res := .ok, out := out } } }
        else raise .phase s

/-- R14: a call of a lower layer's body, inline: its micro-operations come before what is left. -/
def expand (body : List Task) (s : State) : Answered :=
  unlessFaulted s (.next { s with sqr := { s.sqr with cont := body ++ s.sqr.cont } })

/-- R45, R46: the command's end, in one step: RESULT, RDATA where the command is a read, `seq <- READY`, and the reported triple. -/
def finish (s : State) : State :=
  let rdata := s.sqr.bound.out.getD s.sqr.rdata
  { s with
    sqr := { s.sqr with
      seq := .ready, result := some s.sqr.bound.res, rdata := rdata, cont := [], bound := Bound.empty }
    obs := { s.obs with
      reports := s.obs.reports ++
        [{ command := descriptorOf s.sqr.opnd, result := s.sqr.bound.res, rdata := rdata }] } }

/-- R38: `IDX <- i`. -/
def setIdx (i : Nat) (q : Sequencer) : Sequencer :=
  { q with opnd := q.opnd.map fun o => { o with idx := BitVec.ofNat 8 i } }

/-! ### The continuation -/

/-- Whether an item still runs after ERR (R189, R234, R235). -/
def runsAfterErr (cfg : Cfg) : Guard → Bool
  | .onOk => false
  | .always => true
  | .clearDelay => cfg.clearDelayOnError

/-- R301: on ERR no further protocol step is issued but the unconditional STOP: the items up to the next one that still runs go. -/
def unwind (cfg : Cfg) (ts : List Task) : List Task :=
  ts.dropWhile fun t => !runsAfterErr cfg t.guard

/-- The items the sequencer has still to run. -/
def pending (s : State) : List Task :=
  match s.sqr.bound.res with
  | .ok => s.sqr.cont
  | .err => unwind s.cfg s.sqr.cont

end Sys2Proof.Machine
end

