-- ==== Sys2Proof/Machine/Bodies.lean ====
section
/-! DEFINITION. The pseudocode bodies as continuation items: the bus-event primitives (40_bus_events.md R152), the bodies of
41_bus_master.md and of 42_display.md. -/

namespace Sys2Proof.Machine

/-- An item dropped by "if r = ERR: return ERR". -/
def onOk (op : Op) : Task := { op := op, guard := .onOk }

/-- An item of the unconditional cleanup (R189). -/
def always (op : Op) : Task := { op := op, guard := .always }

/-! ### The bus-event primitives with their status checks -/

/-- R152 `Start()`, then R182's start check. -/
def startTasks : List Task :=
  [onOk (.write .ctrl 0xA4#8), onOk .wait, onOk (.check .start)]

/-- R152 `Send(b)`, then the stage's check (R182, R184). -/
def sendTasks (b : Byte) (st : Stage) : List Task :=
  [onOk (.write .data b), onOk (.write .ctrl 0x84#8), onOk .wait, onOk (.check st)]

/-- R152 `RecvAck()`. -/
def recvAckTasks : List Task :=
  [onOk (.write .ctrl 0xC4#8), onOk .wait, onOk .take]

/-- R152 `RecvNack()`. -/
def recvNackTasks : List Task :=
  [onOk (.write .ctrl 0x84#8), onOk .wait, onOk .take]

/-! ### Bus master bodies -/

/-- R181 `BUS_INIT_body()`. -/
def busInitBody (cfg : Cfg) : List Task :=
  [onOk (.write .status 0x00#8), onOk (.write .bitrate (bitRate cfg))]

/-- R182 `BEGIN_body(ab)`. -/
def beginBody (ab : Byte) : List Task :=
  startTasks ++ [onOk (.run (.addressByte (addrOf ab) (dirOf ab)))]

/-- R183 `END_body()`. -/
def endBody : List Task :=
  [always (.write .ctrl 0x94#8), always (.setPhase .idle)]

/-- R184 `WRITE_BYTE_body(b)`. -/
def writeByteBody (b : Byte) : List Task :=
  sendTasks b .data

/-- R185 `WRITE_BYTES_body(buf)`. -/
def writeBytesBody (buf : List Byte) : List Task :=
  [onOk (.writeBytes 0 buf)]

/-- R186 `READ_ACK_body()`. -/
def readAckBody : List Task :=
  recvAckTasks

/-- R187 `READ_NACK_body()`. -/
def readNackBody : List Task :=
  recvNackTasks ++ [onOk (.setPhase .readDone)]

/-- R188 `READ_BYTES_body(n)`: n - 1 acknowledged reads, then the last one. -/
def readBytesBody (n : Byte) : List Task :=
  [onOk (.readBytes 0 (n.toNat - 1))]

/-- R189 `TRANSMIT_MANY_body(a, buf)`, from the address byte on. -/
def transmitBody (ab : Byte) (buf : List Byte) : List Task :=
  beginBody ab ++ writeBytesBody buf ++ endBody

/-! ### Display bodies -/

/-- R231: the LCD command a command byte spells (R116); a byte that spells none is a frame's payload all the same. -/
def lcdInstr (c : Byte) : Instr :=
  (decodeLcd c).getD (.commandFrame c)

/-- R231 `CMD_body(c)`. -/
def cmdBody (c : Byte) : List Task :=
  [onOk (.run (lcdInstr c))]

/-- R231 `CHR_body(c)`. -/
def chrBody (c : Byte) : List Task :=
  [onOk (.run (.characterFrame c))]

/-- R231 `BL_WRITE_body(reg, val)`. -/
def blWriteBody (reg val : Byte) : List Task :=
  [onOk (.run (.backlightFrame reg val))]

/-- R234 `CLEAR_body()`. -/
def clearBodyTasks (cfg : Cfg) : List Task :=
  cmdBody clearByte ++ [{ op := .delay cfg.tClear, guard := .clearDelay }]

/-- R235 `HOME_body()`. -/
def homeBody (cfg : Cfg) : List Task :=
  cmdBody homeByte ++ [{ op := .delay cfg.tHome, guard := .clearDelay }]

/-- R233 `DISP_INIT_body()`: stage 0 is the power-on wait, stages 1 to 10 are one transaction each. -/
def dispInitBody (cfg : Cfg) : List Task :=
  [onOk (.delay cfg.tPowerOn)]
    ++ cmdBody (functionSetByte cfg) ++ [onOk (.delay cfg.tFs1)]
    ++ cmdBody (functionSetByte cfg) ++ [onOk (.delay cfg.tFs2)]
    ++ cmdBody (functionSetByte cfg)
    ++ cmdBody (functionSetByte cfg)
    ++ cmdBody (displayControlByte cfg)
    ++ [onOk .clearBody]
    ++ cmdBody (entryModeByte cfg)
    ++ blWriteBody cfg.regMode1 cfg.valMode1
    ++ blWriteBody cfg.regOutput cfg.valOutput
    ++ blWriteBody cfg.regMode2 cfg.valMode2

/-- R236 `SET_CURSOR_body(col, row)`. -/
def setCursorBody (cfg : Cfg) (col row : Byte) : List Task :=
  cmdBody (cursorByte cfg col row)

/-- R238 `PUT_STRING_body(s)`. -/
def putStringBody (str : List Byte) : List Task :=
  [onOk (.putString 0 str)]

/-- R240 `SET_BL_RGB_body(r, g, b)`: red, then green, then blue. -/
def setBlRgbBody (cfg : Cfg) (r g b : Byte) : List Task :=
  blWriteBody cfg.regRed r ++ blWriteBody cfg.regGreen g ++ blWriteBody cfg.regBlue b

end Sys2Proof.Machine
end

