-- ==== Sys2Proof/Machine/BusMaster.lean ====
section
/-! DEFINITION. The meanings of the Bus Master Controller's commands (41_bus_master.md) and of a descriptor that spells no command
(30_encoding.md R103). A meaning is the acceptance of the command (R303, R106); the steps after it run the body it starts. -/

namespace Sys2Proof.Machine

/-- R181 -/
def execBusInit (s : State) : Answered :=
  accept (latch 0x01#8 [] []) none true none (busInitBody s.cfg) s

/-- R182: admitted in every phase. -/
def execBegin (ab : Byte) (s : State) : Answered :=
  accept (latch 0x02#8 [ab] []) none true none (beginBody ab) s

/-- R183: admitted in every phase. -/
def execEnd (s : State) : Answered :=
  accept (latch 0x03#8 [] []) none true none endBody s

/-- R184: admitted in WRITE only. -/
def execWriteByte (b : Byte) (s : State) : Answered :=
  accept (latch 0x04#8 [b] []) none (s.sqr.phase == .write) none (writeByteBody b) s

/-- R185: admitted in WRITE only, for an empty buffer too. -/
def execWriteBytes (buf : List Byte) (s : State) : Answered :=
  accept (latch 0x05#8 [countByte buf] buf) none (s.sqr.phase == .write) none (writeBytesBody buf) s

/-- R186: admitted in READ only. -/
def execReadAck (s : State) : Answered :=
  accept (latch 0x06#8 [] []) none (s.sqr.phase == .read) (some []) readAckBody s

/-- R187: admitted in READ only. -/
def execReadNack (s : State) : Answered :=
  accept (latch 0x07#8 [] []) none (s.sqr.phase == .read) (some []) readNackBody s

/-- R188: a count of at least 1, admitted in READ only. -/
def execReadBytes (n : Byte) (s : State) : Answered :=
  accept (latch 0x08#8 [n] []) (checkCount n) (s.sqr.phase == .read) (some []) (readBytesBody n) s

/-- R190: `TRANSMIT_MANY_body(a, [b])`. -/
def execTransmitOne (a b : Byte) (s : State) : Answered :=
  accept (latch 0x09#8 [a, b] []) (checkAddress a) true none (transmitBody (writeAddress a) [b]) s

/-- R191: `TRANSMIT_MANY_body(a, [b0, b1])`. -/
def execTransmitTwo (a b0 b1 : Byte) (s : State) : Answered :=
  accept (latch 0x0A#8 [a, b0, b1] []) (checkAddress a) true none (transmitBody (writeAddress a) [b0, b1]) s

/-- R189: a 7-bit address, admitted in every phase. -/
def execTransmitMany (a : Byte) (buf : List Byte) (s : State) : Answered :=
  accept (latch 0x0B#8 [a, countByte buf] buf) (checkAddress a) true none (transmitBody (writeAddress a) buf) s

/-- R103, R303: presenting it raises FLT_BAD_OPCODE, after the re-entrance check. -/
def execIllegal (_d : List Byte) (s : State) : Answered :=
  unlessFaulted s <|
    match s.sqr.seq with
    | .busy => raise .reentrant s
    | .ready => raise .badOpcode s

end Sys2Proof.Machine
end

