-- ==== Sys2Proof/Machine/Display.lean ====
section
/-! DEFINITION. The meanings of the Display Protocol Layer's commands (42_display.md). R230: each is admitted in every phase. -/

namespace Sys2Proof.Machine

/-- R233 -/
def execDispInit (s : State) : Answered :=
  accept (latch 0x10#8 [] []) none true none (dispInitBody s.cfg) s

/-- R234 -/
def execClear (s : State) : Answered :=
  accept (latch 0x11#8 [] []) none true none (clearBodyTasks s.cfg) s

/-- R235 -/
def execHome (s : State) : Answered :=
  accept (latch 0x12#8 [] []) none true none (homeBody s.cfg) s

/-- R236: the row is 0 or 1; it is not checked against ROWS, and the column is not checked. -/
def execSetCursor (col row : Byte) (s : State) : Answered :=
  accept (latch 0x13#8 [col, row] []) (checkRow row) true none (setCursorBody s.cfg col row) s

/-- R237: any byte, 0x00 among them. -/
def execPutChar (c : Byte) (s : State) : Answered :=
  accept (latch 0x14#8 [c] []) none true none (chrBody c) s

/-- R238: no 0x00 byte. -/
def execPutString (str : List Byte) (s : State) : Answered :=
  accept (latch 0x15#8 [countByte str] str) (checkString str) true none (putStringBody str) s

/-- R239: the register index is not checked. -/
def execSetBlReg (reg val : Byte) (s : State) : Answered :=
  accept (latch 0x16#8 [reg, val] []) none true none (blWriteBody reg val) s

/-- R240 -/
def execSetBlRgb (r g b : Byte) (s : State) : Answered :=
  accept (latch 0x17#8 [r, g, b] []) none true none (setBlRgbBody s.cfg r g b) s

/-- R241: `SET_BL_RGB_body(color.r, color.g, color.b)`. -/
def execSetBlColor (r g b : Byte) (s : State) : Answered :=
  accept (latch 0x18#8 [r, g, b] []) none true none (setBlRgbBody s.cfg r g b) s

end Sys2Proof.Machine
end

