-- ==== Sys2Proof/Machine/Lcd.lean ====
section
/-! DEFINITION. The meanings of the LCD command bytes (30_encoding.md R116): the framer sends the row's byte as a command frame
(42_display.md R231). What the display controller does with it is outside the block (10_state.md R52). -/

namespace Sys2Proof.Machine

/-- R231: `FRAME_body(CMD, c)` for the command byte c. -/
def sendCommand (c : Byte) (s : State) : Answered :=
  expand [onOk (.run (.commandFrame c))] s

/-- R116 clear display: `0000 0001`. -/
def execLcdClear (s : State) : Answered :=
  sendCommand (lcdByte .lcdClear) s

/-- R116 return home: `0000 001x`. -/
def execLcdHome (x : Bool) (s : State) : Answered :=
  sendCommand (lcdByte (.lcdHome x)) s

/-- R116 entry mode set: `0000 01 I S`. -/
def execLcdEntryMode (i sh : Bool) (s : State) : Answered :=
  sendCommand (lcdByte (.lcdEntryMode i sh)) s

/-- R116 display control: `0000 1 D C B`. -/
def execLcdDisplayControl (d c b : Bool) (s : State) : Answered :=
  sendCommand (lcdByte (.lcdDisplayControl d c b)) s

/-- R116 function set: `001 DL N F x x`. -/
def execLcdFunctionSet (dl n f : Bool) (x : BitVec 2) (s : State) : Answered :=
  sendCommand (lcdByte (.lcdFunctionSet dl n f x)) s

/-- R116 set DDRAM address: `1 a a a a a a a`. -/
def execLcdSetDdram (a : BitVec 7) (s : State) : Answered :=
  sendCommand (lcdByte (.lcdSetDdram a)) s

end Sys2Proof.Machine
end

