-- ==== Sys2Proof/Machine/Trigger.lean ====
section
/-! DEFINITION. The meanings of the CTRL triggers (30_encoding.md R110, R111; 40_bus_events.md R153 to R161): the write of the row's
value, and the event the peripheral starts. The event's completion is the peripheral's own step (R162). -/

namespace Sys2Proof.Machine

/-- R153: in any mode. -/
def execStart (s : State) : Answered :=
  trigger 0xA4#8 true (beginEvent .start) s

/-- R154: in XADDR; the byte is DATA at the trigger. -/
def execSendAddr (s : State) : Answered :=
  trigger 0x84#8 (s.per.xmode == .xaddr) (beginEvent (.sendAddr s.per.data)) s

/-- R155: in XMT; the byte is DATA at the trigger. -/
def execSendData (s : State) : Answered :=
  trigger 0x84#8 (s.per.xmode == .xmt) (beginEvent (.sendData s.per.data)) s

/-- R156: in XMR. -/
def execRecvAck (s : State) : Answered :=
  trigger 0xC4#8 (s.per.xmode == .xmr) (beginEvent .recvAck) s

/-- R157: in XMR. -/
def execRecvNack (s : State) : Answered :=
  trigger 0x84#8 (s.per.xmode == .xmr) (beginEvent .recvNack) s

/-- R158: in any mode; `STO = 1` by the write itself, `STOP` in the trace at once, no event in flight. -/
def execStop (s : State) : Answered :=
  trigger 0x94#8 true (logBus .stop) s

/-- R161: the pair decodes to no event. -/
def execCtrlUndefined (v : Byte) (_m : XMode) (s : State) : Answered :=
  trigger v false id s

end Sys2Proof.Machine
end

