-- ==== Sys2Proof/Machine/Wire.lean ====
section
/-! DEFINITION. The meanings of the wire encodings (30_encoding.md R113 to R115): an address byte is sent and checked, a frame is one
complete two-byte write transaction. -/

namespace Sys2Proof.Machine

/-- R113, R182: `Send(ab)` and the direction's address check. -/
def execAddressByte (addr : Addr7) (dir : Dir) (s : State) : Answered :=
  expand (sendTasks (addressByte addr dir) (.addr dir)) s

/-- R114, R231: `TRANSMIT_TWO_body(LCD_ADDR, SEL_CMD, c)`. -/
def execCommandFrame (c : Byte) (s : State) : Answered :=
  expand (transmitBody (addressByte s.cfg.lcdAddr .w) [s.cfg.selCmd, c]) s

/-- R114, R231: `TRANSMIT_TWO_body(LCD_ADDR, SEL_DATA, c)`. -/
def execCharacterFrame (c : Byte) (s : State) : Answered :=
  expand (transmitBody (addressByte s.cfg.lcdAddr .w) [s.cfg.selData, c]) s

/-- R115, R231: `TRANSMIT_TWO_body(RGB_ADDR, reg, val)`. -/
def execBacklightFrame (reg val : Byte) (s : State) : Answered :=
  expand (transmitBody (addressByte s.cfg.rgbAddr .w) [reg, val]) s

end Sys2Proof.Machine
end

