-- ==== Sys2Proof/Machine/Dispatch.lean ====
section
/-! DEFINITION. The dispatch: one arm per constructor of Instr. -/

namespace Sys2Proof.Machine

def exec (i : Instr) (s : State) : Host.Outcome State Fault Refusal :=
  match i with
  | .busInit => Sys2Proof.Machine.execBusInit s
  | .beginTx ab => Sys2Proof.Machine.execBegin ab s
  | .endTx => Sys2Proof.Machine.execEnd s
  | .writeByte b => Sys2Proof.Machine.execWriteByte b s
  | .writeBytes buf => Sys2Proof.Machine.execWriteBytes buf s
  | .readAck => Sys2Proof.Machine.execReadAck s
  | .readNack => Sys2Proof.Machine.execReadNack s
  | .readBytes n => Sys2Proof.Machine.execReadBytes n s
  | .transmitOne a b => Sys2Proof.Machine.execTransmitOne a b s
  | .transmitTwo a b0 b1 => Sys2Proof.Machine.execTransmitTwo a b0 b1 s
  | .transmitMany a buf => Sys2Proof.Machine.execTransmitMany a buf s
  | .dispInit => Sys2Proof.Machine.execDispInit s
  | .clear => Sys2Proof.Machine.execClear s
  | .home => Sys2Proof.Machine.execHome s
  | .setCursor col row => Sys2Proof.Machine.execSetCursor col row s
  | .putChar c => Sys2Proof.Machine.execPutChar c s
  | .putString str => Sys2Proof.Machine.execPutString str s
  | .setBlReg reg val => Sys2Proof.Machine.execSetBlReg reg val s
  | .setBlRgb r g b => Sys2Proof.Machine.execSetBlRgb r g b s
  | .setBlColor r g b => Sys2Proof.Machine.execSetBlColor r g b s
  | .illegal d => Sys2Proof.Machine.execIllegal d s
  | .start => Sys2Proof.Machine.execStart s
  | .sendAddr => Sys2Proof.Machine.execSendAddr s
  | .sendData => Sys2Proof.Machine.execSendData s
  | .recvAck => Sys2Proof.Machine.execRecvAck s
  | .recvNack => Sys2Proof.Machine.execRecvNack s
  | .stop => Sys2Proof.Machine.execStop s
  | .ctrlUndefined v m => Sys2Proof.Machine.execCtrlUndefined v m s
  | .lcdClear => Sys2Proof.Machine.execLcdClear s
  | .lcdHome x => Sys2Proof.Machine.execLcdHome x s
  | .lcdEntryMode j sh => Sys2Proof.Machine.execLcdEntryMode j sh s
  | .lcdDisplayControl d c b => Sys2Proof.Machine.execLcdDisplayControl d c b s
  | .lcdFunctionSet dl n f x => Sys2Proof.Machine.execLcdFunctionSet dl n f x s
  | .lcdSetDdram a => Sys2Proof.Machine.execLcdSetDdram a s
  | .addressByte addr dir => Sys2Proof.Machine.execAddressByte addr dir s
  | .commandFrame c => Sys2Proof.Machine.execCommandFrame c s
  | .characterFrame c => Sys2Proof.Machine.execCharacterFrame c s
  | .backlightFrame reg val => Sys2Proof.Machine.execBacklightFrame reg val s

end Sys2Proof.Machine
end

