-- ==== Sys2Proof/Machine/Sequencer.lean ====
section
/-! DEFINITION. The sequencer's step (40_bus_events.md R150, R151, R159): the micro-operation at the head of the continuation. -/

namespace Sys2Proof.Machine

/-- Pop the head item. -/
def pop (rest : List Task) (s : State) : State :=
  { s with sqr := { s.sqr with cont := rest } }

/-- R151, R159: whether the head item has no step now. A wait holds until the event in flight has completed and `INT = 1`; a trigger
write holds while a stop is pending; everything holds while the delay unit is counting. -/
def holds (s : State) : Op → Bool
  | .wait => s.per.ev.isSome || !s.per.ctrl.int
  | .write .ctrl v => v.getLsbD 7 && s.per.ctrl.sto
  | _ => false

/-- The sequencer's part around a trigger: where the trigger took effect, the write goes to the register trace and the item is done; a
fault leaves everything else as it was (60_exceptions.md R306). -/
def afterTrigger (v : Byte) (rest : List Task) : Answered → Answered
  | .next t => if t.fault.isSome then .next t else .next (logReg (.w .ctrl v) (pop rest t))
  | .fault f => .fault f
  | .refused r => .refused r

/-- The sequencer's part around a call: a fault leaves everything else as it was before the call (60_exceptions.md R306). -/
def afterCall (s : State) : Answered → Answered
  | .next t => if t.fault.isSome then .next { s with fault := t.fault } else .next t
  | .fault f => .fault f
  | .refused r => .refused r

/-- R152, R164, R182, R184: the sampled status against the stage's expected set. -/
def checkStatus (st : Stage) (s : State) : State :=
  let v := readReg .status s
  let s := logReg (.r .status v) s
  if expected st (statusCode v) then { s with sqr := { s.sqr with phase := phaseAfter st s.sqr.phase } }
  else { s with sqr := { s.sqr with phase := .failed, bound := { s.sqr.bound with res := .err } } }

/-- R152, R167: the received byte, whatever its event's status. -/
def takeData (s : State) : State :=
  let v := readReg .data s
  let s := logReg (.r .data v) s
  { s with sqr := { s.sqr with bound := { s.sqr.bound with out := s.sqr.bound.out.map (· ++ [v]) } } }

/-- R357, R150: `DELAY(t)` goes to both traces, and the delay unit counts. That its register-trace entry is R15's `DELAY(t)` is DEDUCED
(assumption 22). -/
def beginDelay (t : Nat) (s : State) : State :=
  let s := logDelay t s
  { s with sqr := { s.sqr with delay := some t } }

/-- R185, R188, R238: `IDX <- i`, then the body's items for that index. -/
def iterate (i : Nat) (body rest : List Task) (s : State) : State :=
  { s with sqr := setIdx i { s.sqr with cont := body ++ rest } }

/-- One item of the continuation, `rest` what comes after it. A CTRL write with bit 7 set is decoded by the peripheral's mode (R111)
and runs as that instruction; a call runs its instruction. DESIGN CHOICE (assumption 8): before READ_BYTES's last read IDX is set to n - 1,
where R188 assigns it in the loop 0 .. n - 2 only. -/
def runOp (op : Op) (rest : List Task) (s : State) : Answered :=
  match op with
  | .write r v =>
    if r = .ctrl ∧ v.getLsbD 7 then afterTrigger v rest (exec (decodeTrigger v s.per.xmode) s)
    else .next (logReg (.w r v) (pop rest { s with per := writeReg r v s.per }))
  | .wait => .next (logReg .p (pop rest s))
  | .check st => .next (checkStatus st (pop rest s))
  | .take => .next (takeData (pop rest s))
  | .delay t => .next (beginDelay t (pop rest s))
  | .setPhase p => .next { s with sqr := { s.sqr with phase := p, cont := rest } }
  | .run i => afterCall s (exec i (pop rest s))
  | .writeBytes _ [] => .next (pop rest s)
  | .writeBytes i (b :: bs) => .next (iterate i (sendTasks b .data ++ [onOk (.writeBytes (i + 1) bs)]) rest s)
  | .readBytes i 0 => .next (iterate i (recvNackTasks ++ [onOk (.setPhase .readDone)]) rest s)
  | .readBytes i (k + 1) => .next (iterate i (recvAckTasks ++ [onOk (.readBytes (i + 1) k)]) rest s)
  | .putString _ [] => .next (pop rest s)
  | .putString i (c :: cs) => .next (iterate i (chrBody c ++ [onOk (.putString (i + 1) cs)]) rest s)
  | .clearBody => .next (pop (clearBodyTasks s.cfg ++ rest) s)

/-- The sequencer's step: none while READY, while a delay runs, or while the head item holds; the command's end when nothing is left. -/
def sequencerStep (s : State) : Answered :=
  if s.sqr.seq = .ready ∨ s.sqr.delay.isSome then .next s
  else match pending s with
    | [] => .next (finish s)
    | t :: rest => if holds s t.op then .next s else runOp t.op rest s

end Sys2Proof.Machine
end

