-- ==== Sys2Proof/Machine/Agents.lean ====
section
/-! DEFINITION. The other agents (00_scope.md R5): the oracle's draws (10_state.md R44, 40_bus_events.md R165), the peripheral's two
steps (R158, R162), the delay unit, the host interface (10_state.md R48, 60_exceptions.md R303), and which agent moves next. -/

namespace Sys2Proof.Machine

/-! ### The oracle -/

/-- R165: the status code of the ideal oracle. -/
def idealCode (e : Event) (bus : Bus) : BitVec 5 :=
  match e, bus with
  | .start, .free => 0x01#5
  | .start, .held => 0x02#5
  | .sendAddr b, _ => if b.getLsbD 0 then 0x08#5 else 0x03#5
  | .sendData _, _ => 0x05#5
  | .recvAck, _ => 0x0A#5
  | .recvNack, _ => 0x0B#5

/-- R44, R165: the answer to the event in flight: the script's next, or the mode's. The ideal oracles take their data byte from the read
stream RS, and a free byte when it has run out. -/
def draw (s : State) (e : Event) : Answer :=
  match s.env.script with
  | a :: _ => a
  | [] =>
    let data := s.env.reads.head?.getD (Config.freeByte s.env.drawn)
    match s.env.mode with
    | .free => { sc := Config.freeStatus s.env.drawn, data := Config.freeByte s.env.drawn }
    | .ideal => { sc := idealCode e s.per.bus, data := data }
    | .idealExcept k sc => { sc := if s.env.drawn + 1 = k then sc else idealCode e s.per.bus, data := data }

/-- R165: the events that take a byte of the read stream. -/
def receives : Event → Bool
  | .recvAck => true
  | .recvNack => true
  | _ => false

/-- The oracle after a draw. -/
def afterDraw (e : Event) (v : Env) : Env :=
  { v with
    script := v.script.tail
    reads := if v.script.isEmpty && v.mode != .free && receives e then v.reads.tail else v.reads
    drawn := v.drawn + 1 }

/-! ### The peripheral -/

/-- R153 to R157: what an event's completion does to `xmode` and `bus`, whatever its status (R162). -/
def modeAfter : Event → XMode → XMode
  | .start, _ => .xaddr
  | .sendAddr b, _ => if b.getLsbD 0 then .xmr else .xmt
  | .sendData _, m => m
  | .recvAck, m => m
  | .recvNack, m => m

/-- R153: the completion of a START holds the bus. -/
def busAfter : Event → Bus → Bus
  | .start, _ => .held
  | _, b => b

/-- R153 to R157: the trace event of a completion. -/
def completionEvent (e : Event) (a : Answer) : BusEvent :=
  match e with
  | .start => .start (codeByte a.sc)
  | .sendAddr b => .addr b (codeByte a.sc)
  | .sendData b => .tx b (codeByte a.sc)
  | .recvAck => .rxa a.data (codeByte a.sc)
  | .recvNack => .rxn a.data (codeByte a.sc)

/-- R153 to R157, R162: the completion of event `e` with answer `a`. -/
def complete (e : Event) (a : Answer) (s : State) : State :=
  logBus (completionEvent e a)
    { s with
      per := { s.per with
        ctrl := { s.per.ctrl with int := true }
        status := { s.per.status with sc := a.sc }
        data := if receives e then a.data else s.per.data
        ev := none
        xmode := modeAfter e s.per.xmode
        bus := busAfter e s.per.bus }
      env := afterDraw e s.env }

/-- R158: the performance of a pending stop. It never sets INT. -/
def performStop (s : State) : State :=
  { s with per := { s.per with
    ctrl := { s.per.ctrl with sto := false }
    status := { s.per.status with sc := 0b11111#5 }
    xmode := .xidle
    bus := .free } }

/-- The peripheral's step: a pending stop is performed, an event in flight completes; otherwise it has none. -/
def peripheralStep (s : State) : State :=
  if s.per.ctrl.sto then performStop s
  else match s.per.ev with
    | some e => complete e (draw s e) s
    | none => s

/-! ### The delay unit -/

/-- R168, R357: a delay ends. -/
def delayUnitStep (s : State) : State :=
  { s with sqr := { s.sqr with delay := none } }

/-! ### The host -/

/-- R303: the re-entrance check comes before the decoder's opcode and length checks. -/
def presentDescriptor (d : List Byte) (s : State) : Answered :=
  match s.sqr.seq with
  | .busy => raise .reentrant s
  | .ready =>
    match decode s.cfg .hostCmd d with
    | .error _ => raise .badLength s
    | .ok i => exec i s

/-- R41, R118: the host reads RESULT and RDATA: a fault before any command has completed, and held while a command runs (R45). `back` is
the state with the action still to come. -/
def readResult (back s : State) : Answered :=
  match s.sqr.result with
  | none => raise .noResult s
  | some r =>
    match s.sqr.seq with
    | .busy => .next back
    | .ready => .next { s with obs := { s.obs with seen := s.obs.seen ++ [(resultBit r, s.sqr.rdata)] } }

/-- The host's step: its next action, or none. -/
def hostStep (s : State) : Answered :=
  match s.env.host with
  | [] => .next s
  | a :: rest =>
    let s' := { s with env := { s.env with host := rest } }
    match a with
    | .present d => presentDescriptor d s'
    | .readResult => readResult s s'

/-! ### Which agent moves -/

/-- The order where no schedule is left: the peripheral if BUS_LIVE (R168) and it has a step, then the delay unit, then the sequencer,
then the host (which so waits for READY, 70_reset_and_hazards.md R345). -/
def defaultAgent (s : State) : Agent :=
  if s.env.live && (s.per.ctrl.sto || s.per.ev.isSome) then .peripheral
  else if s.sqr.delay.isSome then .delayUnit
  else if s.sqr.seq = .busy then .sequencer
  else .host

/-- R5: one agent's step. -/
def agentStep (a : Agent) (s : State) : Answered :=
  match a with
  | .host => hostStep s
  | .sequencer => sequencerStep s
  | .peripheral => .next (peripheralStep s)
  | .delayUnit => .next (delayUnitStep s)

/-- 60_exceptions.md R305: "Which agent steps next is left open": the schedule says, and after it the default order. -/
def nextAgent (s : State) : Agent × State :=
  match s.env.sched with
  | a :: rest => (a, { s with env := { s.env with sched := rest } })
  | [] => (defaultAgent s, s)

/-- R306, 00_scope.md R9: no agent steps in a faulted machine; an illegal configuration has no machine. DESIGN CHOICE (assumption 23): the
fault comes first where a machine has both a mark and an illegal configuration, which no run reaches. -/
def stepOnce (s : State) : Answered :=
  unlessFaulted s <|
    if legalCfg s.cfg then agentStep (nextAgent s).1 (nextAgent s).2
    else .refused .illegalConfig

/-! ### The end of a run -/

/-- R359: a host action that presents a descriptor. -/
def presents : HostAction → Bool
  | .present _ => true
  | .readResult => false

/-- 70_reset_and_hazards.md R359: the run has ended: READY, no stop pending, no event in flight, no further descriptor to present, and no
fault. A hang and a faulted run have not ended. -/
def runEnded (s : State) : Bool :=
  s.sqr.seq == .ready && !s.per.ctrl.sto && s.per.ev.isNone && !s.env.host.any presents && s.fault.isNone

/-- R359: the observation of a run that has ended: its final trace and the sequence of triples. -/
def observation (s : State) : Option (List BusEvent × List Report) :=
  if runEnded s then some (s.obs.trace, s.obs.reports) else none

/-! ### A word of the opcode table as the next instruction -/

/-- The sequencer set to run one continuation item next. -/
def withNextTask (op : Op) (s : State) : State :=
  { s with
    sqr := { s.sqr with
      seq := .busy
      cont := always op :: s.sqr.cont
      delay := none }
    env := { s.env with sched := .sequencer :: s.env.sched } }

/-- The host set to present one descriptor next. -/
def withNextDescriptor (d : List Byte) (s : State) : State :=
  { s with env := { s.env with
      host := .present d :: s.env.host
      sched := .host :: s.env.sched } }

/-- Bytes of a layer where the next step takes its instruction from (assumption 12): a descriptor at the command interface, a trigger value
as the sequencer's next CTRL write with the peripheral in the row's mode, any other layer's instruction as the sequencer's next call. -/
def placeWord (layer : Layer) (bytes : List Byte) (s : State) : State :=
  match layer, bytes with
  | .hostCmd, d => withNextDescriptor d s
  | .ctrlTrigger m, v :: _ => withNextTask (.write .ctrl v) { s with per := { s.per with xmode := m } }
  | l, bs =>
    match decode s.cfg l bs with
    | .ok i => withNextTask (.run i) s
    | .error _ => withNextDescriptor bs s

end Sys2Proof.Machine
end

