-- ==== Sys2Proof/Machine/Step.lean ====
section
/-! DEFINITION. One step of the machine, and the placing of a table word where the next step takes its instruction from. -/

namespace Sys2Proof.Machine

/-- One step of one agent. -/
def step (s : State) : Host.Outcome State Fault Refusal :=
  stepOnce s

/-- The state with a word of spec/opcode_table.json stored where the next step fetches its instruction. -/
def State.withFetchWord (s : State) (nbits w : Nat) : State :=
  placeWord (tableSlot nbits w).1 (tableSlot nbits w).2 s

end Sys2Proof.Machine
end

