-- ==== Sys2Proof/Machine/Pseudocode.lean ====
section
/-! DEFINITION. The commands' pseudocode read straight through (40_bus_events.md R152, 41_bus_master.md, 42_display.md), on a live bus
(R168): each event completes and each stop is performed where it stands. It is what the machine's steps are compared with; no step calls it. -/

namespace Sys2Proof.Machine

/-- A sub-operation's answer: the state after it and its result. -/
abbrev Ran := State × Res

/-- "r <- …; if r = ERR: return ERR", then `next`. -/
def andThen (x : Ran) (next : State → Ran) : Ran :=
  match x.2 with
  | .ok => next x.1
  | .err => x

/-- R158: a pending stop is performed. -/
def stopped (s : State) : State :=
  if s.per.ctrl.sto then performStop s else s

/-- A trigger write, its event's completion, and `WaitEvent()`. -/
def eventP (v : Byte) (e : Event) (s : State) : State :=
  let s := logReg (.w .ctrl v) (beginEvent e { s with per := writeCtrlFields v s.per })
  logReg .p (complete e (draw s e) s)

/-- `RegRead(STATUS) & 0xF8`, with the state after the read. -/
def statusP (s : State) : State × Byte :=
  (logReg (.r .status (readReg .status s)) s, statusCode (readReg .status s))

/-- R13 `phase <- p`. -/
def setPhase (p : Phase) (s : State) : State :=
  { s with sqr := { s.sqr with phase := p } }

/-- The check of a sampled status: `phase <- FAILED; return ERR` outside the expected set. -/
def checkP (st : Stage) (x : State × Byte) : Ran :=
  if expected st x.2 then (setPhase (phaseAfter st x.1.sqr.phase) x.1, .ok)
  else (setPhase .failed x.1, .err)

/-- R152 `Start()` and its check. -/
def startP (s : State) : Ran :=
  checkP .start (statusP (eventP 0xA4#8 .start s))

/-- R152 `Send(b)` and the stage's check; `e` is the event the send is. -/
def sendP (b : Byte) (e : Event) (st : Stage) (s : State) : Ran :=
  let s := logReg (.w .data b) { s with per := writeReg .data b s.per }
  checkP st (statusP (eventP 0x84#8 e s))

/-- R182 `BEGIN_body(ab)`. -/
def beginP (ab : Byte) (s : State) : Ran :=
  andThen (startP s) (sendP ab (.sendAddr ab) (.addr (dirOf ab)))

/-- R152 `Stop()`, and the stop's performance. -/
def stopP (s : State) : State :=
  performStop (logReg (.w .ctrl 0x94#8) (logBus .stop { s with per := writeCtrlFields 0x94#8 s.per }))

/-- R183 `END_body()`. -/
def endP (s : State) : State :=
  setPhase .idle (stopP s)

/-- R184 `WRITE_BYTE_body(b)`. -/
def writeByteP (b : Byte) (s : State) : Ran :=
  sendP b (.sendData b) .data s

/-- R38: `IDX <- i`, the sequencer kept otherwise. -/
def indexP (i : Nat) (s : State) : State :=
  { s with sqr := setIdx i s.sqr }

/-- R185 `WRITE_BYTES_body(buf)`, from index `i` on. -/
def writeBytesP : Nat → List Byte → State → Ran
  | _, [], s => (s, .ok)
  | i, b :: bs, s => andThen (writeByteP b (indexP i s)) (writeBytesP (i + 1) bs)

/-- R152 `RecvAck()`, the byte appended to the read buffer. -/
def recvAckP (s : State) : State :=
  takeData (eventP 0xC4#8 .recvAck s)

/-- R152 `RecvNack()`, the byte appended to the read buffer. -/
def recvNackP (s : State) : State :=
  takeData (eventP 0x84#8 .recvNack s)

/-- R188 `READ_BYTES_body`, from index `i` on with `k` acknowledged reads before the last. -/
def readBytesP : Nat → Nat → State → State
  | i, 0, s => setPhase .readDone (recvNackP (indexP i s))
  | i, k + 1, s => readBytesP (i + 1) k (recvAckP (indexP i s))

/-- R189 `TRANSMIT_MANY_body`, from the address byte on: END_body runs on every path. -/
def transmitP (ab : Byte) (buf : List Byte) (s : State) : Ran :=
  let x := andThen (beginP ab s) (writeBytesP 0 buf)
  (endP x.1, x.2)

/-- R231 `CMD_body(c)`. -/
def cmdP (c : Byte) (s : State) : Ran :=
  transmitP (addressByte s.cfg.lcdAddr .w) [s.cfg.selCmd, c] s

/-- R231 `CHR_body(c)`. -/
def chrP (c : Byte) (s : State) : Ran :=
  transmitP (addressByte s.cfg.lcdAddr .w) [s.cfg.selData, c] s

/-- R231 `BL_WRITE_body(reg, val)`. -/
def blWriteP (reg val : Byte) (s : State) : Ran :=
  transmitP (addressByte s.cfg.rgbAddr .w) [reg, val] s

/-- R234, R235: "if r = OK or CLEAR_DELAY_ON_ERROR: Delay(t)". -/
def thenDelayP (t : Nat) (x : Ran) : Ran :=
  (if x.2 = .ok ∨ x.1.cfg.clearDelayOnError then logDelay t x.1 else x.1, x.2)

/-- R234 `CLEAR_body()`. -/
def clearP (s : State) : Ran :=
  thenDelayP s.cfg.tClear (cmdP clearByte s)

/-- R235 `HOME_body()`. -/
def homeP (s : State) : Ran :=
  thenDelayP s.cfg.tHome (cmdP homeByte s)

/-- R238 `PUT_STRING_body(s)`, from index `i` on. -/
def putStringP : Nat → List Byte → State → Ran
  | _, [], s => (s, .ok)
  | i, c :: cs, s => andThen (chrP c (indexP i s)) (putStringP (i + 1) cs)

/-- R240 `SET_BL_RGB_body(r, g, b)`. -/
def setBlRgbP (cfg : Cfg) (r g b : Byte) (s : State) : Ran :=
  andThen (blWriteP cfg.regRed r s) fun s =>
  andThen (blWriteP cfg.regGreen g s) (blWriteP cfg.regBlue b)

/-- R233 `DISP_INIT_body()`, stage by stage. -/
def dispInitP (cfg : Cfg) (s : State) : Ran :=
  andThen (cmdP (functionSetByte cfg) (logDelay cfg.tPowerOn s)) fun s =>
  andThen (cmdP (functionSetByte cfg) (logDelay cfg.tFs1 s)) fun s =>
  andThen (cmdP (functionSetByte cfg) (logDelay cfg.tFs2 s)) fun s =>
  andThen (cmdP (functionSetByte cfg) s) fun s =>
  andThen (cmdP (displayControlByte cfg) s) fun s =>
  andThen (clearP s) fun s =>
  andThen (cmdP (entryModeByte cfg) s) fun s =>
  andThen (blWriteP cfg.regMode1 cfg.valMode1 s) fun s =>
  andThen (blWriteP cfg.regOutput cfg.valOutput s) (blWriteP cfg.regMode2 cfg.valMode2)

/-- R181 `BUS_INIT_body()`. -/
def busInitP (s : State) : State :=
  let s := logReg (.w .status 0x00#8) { s with per := writeReg .status 0x00#8 s.per }
  logReg (.w .bitrate (bitRate s.cfg)) { s with per := writeReg .bitrate (bitRate s.cfg) s.per }

/-- The pseudocode of a host command; an instruction that is no host command has none here. -/
def bodyP : Instr → State → Ran
  | .busInit, s => (busInitP s, .ok)
  | .beginTx ab, s => beginP ab s
  | .endTx, s => (endP s, .ok)
  | .writeByte b, s => writeByteP b s
  | .writeBytes buf, s => writeBytesP 0 buf s
  | .readAck, s => (recvAckP s, .ok)
  | .readNack, s => (setPhase .readDone (recvNackP s), .ok)
  | .readBytes n, s => (readBytesP 0 (n.toNat - 1) s, .ok)
  | .transmitOne a b, s => transmitP (writeAddress a) [b] s
  | .transmitTwo a b0 b1, s => transmitP (writeAddress a) [b0, b1] s
  | .transmitMany a buf, s => transmitP (writeAddress a) buf s
  | .dispInit, s => dispInitP s.cfg s
  | .clear, s => clearP s
  | .home, s => homeP s
  | .setCursor col row, s => cmdP (cursorByte s.cfg col row) s
  | .putChar c, s => chrP c s
  | .putString str, s => putStringP 0 str s
  | .setBlReg reg val, s => blWriteP reg val s
  | .setBlRgb r g b, s => setBlRgbP s.cfg r g b s
  | .setBlColor r g b, s => setBlRgbP s.cfg r g b s
  | .illegal _, s | .start, s | .sendAddr, s | .sendData, s | .recvAck, s | .recvNack, s | .stop, s
  | .ctrlUndefined _ _, s | .lcdClear, s | .lcdHome _, s | .lcdEntryMode _ _, s | .lcdDisplayControl _ _ _, s
  | .lcdFunctionSet _ _ _ _, s | .lcdSetDdram _, s | .addressByte _ _, s | .commandFrame _, s
  | .characterFrame _, s | .backlightFrame _ _, s => (s, .ok)

/-- R45: the command's end with the pseudocode's result. -/
def finishWith (x : Ran) : State :=
  finish { x.1 with sqr := { x.1.sqr with bound := { x.1.sqr.bound with res := x.2 } } }

/-- The whole run of an accepted command on a live bus, a stop still pending performed first. -/
def runP (i : Instr) (s : State) : State :=
  finishWith (bodyP i (stopped s))

end Sys2Proof.Machine
end

