-- ==== Sys2Proof/Safety.lean ====
section
/-! DEFINITION. What claims are stated in: runs, the states a command starts in, and the invariant that says where the sequencer stands
in a transaction (41_bus_master.md R192 and the "never makes such a write" clauses of R160 and R161). -/

namespace Sys2Proof.Machine

/-! ### Runs -/

/-- Some number of steps of the machine, none of them a stop, leads from `s` to `t`. -/
def Reaches (s t : State) : Prop :=
  ∃ k, Host.Core.run Sys2Proof.core k s = .next t

/-! ### Where a command starts -/

/-- The environment of a claim that a command ends: a legal configuration, no fault, BUS_LIVE (R168), no schedule but the default one,
nothing in flight and no delay running. A stop may be pending. -/
structure Quiet (s : State) : Prop where
  legal   : legalCfg s.cfg = true
  faultless : s.fault = none
  live    : s.env.live = true
  default : s.env.sched = []
  evNone  : s.per.ev = none
  noDelay : s.sqr.delay = none

/-- R192's consequence between commands: an open write transaction has the peripheral in XMT, an open read in XMR, its last event
complete and no stop pending. -/
structure PhaseMatches (s : State) : Prop where
  write : s.sqr.phase = .write → s.per.xmode = .xmt ∧ s.per.ctrl.int = true ∧ s.per.ctrl.sto = false
  read  : s.sqr.phase = .read → s.per.xmode = .xmr ∧ s.per.ctrl.sto = false

/-- READY in such an environment. -/
structure Calm (s : State) : Prop extends Quiet s, PhaseMatches s where
  ready : s.sqr.seq = .ready

/-- The twenty host commands (R101). -/
def isCommand (i : Instr) : Bool :=
  match i with
  | .busInit | .beginTx _ | .endTx | .writeByte _ | .writeBytes _ | .readAck | .readNack | .readBytes _
  | .transmitOne _ _ | .transmitTwo _ _ _ | .transmitMany _ _ | .dispInit | .clear | .home | .setCursor _ _
  | .putChar _ | .putString _ | .setBlReg _ _ | .setBlRgb _ _ _ | .setBlColor _ _ _ => true
  | .illegal _ | .start | .sendAddr | .sendData | .recvAck | .recvNack | .stop | .ctrlUndefined _ _
  | .lcdClear | .lcdHome _ | .lcdEntryMode _ _ | .lcdDisplayControl _ _ _ | .lcdFunctionSet _ _ _ _ | .lcdSetDdram _
  | .addressByte _ _ | .commandFrame _ | .characterFrame _ | .backlightFrame _ _ => false

/-- R192, the column "admitted in". -/
def admittedIn (i : Instr) (p : Phase) : Bool :=
  match i with
  | .writeByte _ | .writeBytes _ => p == .write
  | .readAck | .readNack | .readBytes _ => p == .read
  | _ => true

/-- R106: the state an accepted command starts in: the latch, the read buffer and the pseudocode. -/
def accepted (o : Opnd) (out : Option (List Byte)) (body : List Task) (s : State) : State :=
  { s with sqr := { s.sqr with
    seq := .busy, opnd := some o, cont := body, bound := { res := .ok, out := out } } }

/-- R192, the columns "`phase` after": from a command, its result and the phase it was presented in. -/
def phaseTable (i : Instr) (r : Res) (p : Phase) : Phase :=
  match i, r with
  | .busInit, _ => p
  | .beginTx ab, .ok => if ab.getLsbD 0 then .read else .write
  | .beginTx _, .err => .failed
  | .writeByte _, .ok => .write
  | .writeByte _, .err => .failed
  | .writeBytes _, .ok => .write
  | .writeBytes _, .err => .failed
  | .readAck, _ => .read
  | .readNack, _ => .readDone
  | .readBytes _, _ => .readDone
  | .putString [], _ => p
  | _, _ => .idle

/-- R192, the column "`phase` after `ERR`": the commands that cannot fail. -/
def cannotFail (i : Instr) : Bool :=
  match i with
  | .busInit | .endTx | .readAck | .readNack | .readBytes _ | .putString [] => true
  | _ => false

/-! ### Whose turn it is -/

/-- A trigger takes effect: no fault, no stop pending, nothing in flight (R153 to R158). -/
structure TriggerReady (s : State) : Prop where
  faultless : s.fault = none
  noStop : s.per.ctrl.sto = false
  evNone : s.per.ev = none

/-- The next step is this agent's; `later` is the schedule after it. -/
structure Turn (a : Agent) (s : State) (later : List Agent) : Prop where
  legal : legalCfg s.cfg = true
  faultless : s.fault = none
  turn : s.env.sched = a :: later

/-- The state with the schedule that is left. -/
def onward (later : List Agent) (s : State) : State :=
  { s with env := { s.env with sched := later } }

/-- The sequencer's turn with `t` its next item. -/
structure ItemNext (t : Task) (rest : List Task) (s : State) (later : List Agent) : Prop extends Turn .sequencer s later where
  busy : s.sqr.seq = .busy
  noDelay : s.sqr.delay = none
  head : pending s = t :: rest

/-! ### What a command's run leaves -/

/-- The machine goes from the acceptance of `i` in `s` to `t`. -/
def Ends (i : Instr) (s t : State) : Prop :=
  ∃ u, exec i s = .next u ∧ Reaches u t

/-- R45, R46: the state in which a command has ended: `o` what it latched, `bus` and `regs` what it added to the two traces. -/
def ended (ph : Phase) (r : Res) (rdata : List Byte) (o : Opnd) (bus : List BusEvent) (regs : List RegEvent) (s : State) : State :=
  { s with
    sqr := { seq := .ready, phase := ph, result := some r, rdata := rdata, opnd := some o, cont := [], bound := Bound.empty,
             delay := none }
    obs := { s.obs with
      trace := s.obs.trace ++ bus
      regTrace := s.obs.regTrace ++ regs
      reports := s.obs.reports ++ [{ command := o.opcode :: o.fixed ++ o.buf, result := r, rdata := rdata }] } }

/-- The environment after `n` scripted answers. -/
def answered (n : Nat) (s : State) : Env :=
  { s.env with script := s.env.script.drop n, drawn := s.env.drawn + n }

/-- What a command other than BUS_INIT leaves as it was, and what every command's end leaves (R45, R49). -/
structure Frame (s t : State) : Prop where
  cfg : t.cfg = s.cfg
  faultless : t.fault = none
  bitrate : t.per.bitrate = s.per.bitrate
  prescaler : t.per.status.ps = s.per.status.ps
  evNone : t.per.ev = none
  ready : t.sqr.seq = .ready
  cont : t.sqr.cont = []
  bound : t.sqr.bound = Bound.empty
  delay : t.sqr.delay = none
  seen : t.obs.seen = s.obs.seen
  host : t.env.host = s.env.host
  sched : t.env.sched = s.env.sched
  live : t.env.live = s.env.live
  mode : t.env.mode = s.env.mode

/-! ### The bus trace, as the rules describe it -/

/-- The status a trace event carries. -/
def statusOf : BusEvent → Option Byte
  | .start c => some c
  | .addr _ c => some c
  | .tx _ c => some c
  | .rxa _ c => some c
  | .rxn _ c => some c
  | .stop => none
  | .delay _ => none

/-- The trace `tr` carries the oracle's answers, as far as they are scripted (R44). -/
def Follows (s : State) (tr : List BusEvent) : Prop :=
  ∀ (k : Nat) (a : Answer) (c : Byte), s.env.script[k]? = some a → (tr.filterMap statusOf)[k]? = some c → c = a.sc ++ 0#3

/-- R185: a buffer sent byte by byte, up to the first one whose status is not 0x28. -/
inductive Sent : List Byte → List BusEvent → Res → Prop where
  | done : Sent [] [] .ok
  | more {b bs tr r} : Sent bs tr r → Sent (b :: bs) (.tx b 0x28#8 :: tr) r
  | nack {b bs c} : c ≠ 0x28#8 → Sent (b :: bs) [.tx b c] .err

/-- R189, R194: one write transaction: a start, the address byte only if the start passed, the data bytes only if the address passed,
and a stop last on every path. -/
inductive Transaction (ab : Byte) (buf : List Byte) : List BusEvent → Res → Prop where
  | noStart {c} : c ≠ 0x08#8 → c ≠ 0x10#8 → Transaction ab buf [.start c, .stop] .err
  | noAddress {c d} : c = 0x08#8 ∨ c = 0x10#8 → d ≠ 0x18#8 → Transaction ab buf [.start c, .addr ab d, .stop] .err
  | data {c tr r} : c = 0x08#8 ∨ c = 0x10#8 → Sent buf tr r →
      Transaction ab buf ([.start c, .addr ab 0x18#8] ++ tr ++ [.stop]) r

/-- The pieces a composed command is made of: a wait, a transaction, a transaction with its fixed delay (R234, R235). -/
inductive Act where
  | wait (t : Nat)
  | frame (ab : Byte) (buf : List Byte)
  | settle (ab : Byte) (buf : List Byte) (t : Nat)
  deriving DecidableEq, Repr

/-- R230, R233: the pieces in their order, up to the first transaction that fails; `late` is CLEAR_DELAY_ON_ERROR. -/
inductive Acts (late : Bool) : List Act → List BusEvent → Res → Prop where
  | done : Acts late [] [] .ok
  | wait {t as tr r} : Acts late as tr r → Acts late (.wait t :: as) (.delay t :: tr) r
  | frame {ab buf as tr tr' r} : Transaction ab buf tr .ok → Acts late as tr' r → Acts late (.frame ab buf :: as) (tr ++ tr') r
  | frameErr {ab buf as tr} : Transaction ab buf tr .err → Acts late (.frame ab buf :: as) tr .err
  | settle {ab buf t as tr tr' r} : Transaction ab buf tr .ok → Acts late as tr' r →
      Acts late (.settle ab buf t :: as) (tr ++ .delay t :: tr') r
  | settleErr {ab buf t as tr} : Transaction ab buf tr .err →
      Acts late (.settle ab buf t :: as) (tr ++ if late then [.delay t] else []) .err

/-- R189 to R191, R233 to R241: the pieces of a composed command; none for a raw bus master command or another layer's instruction. -/
def actsOf (cfg : Cfg) : Instr → Option (List Act)
  | .transmitOne a b => some [.frame (a <<< 1) [b]]
  | .transmitTwo a b0 b1 => some [.frame (a <<< 1) [b0, b1]]
  | .transmitMany a buf => some [.frame (a <<< 1) buf]
  | .dispInit => some
      [.wait cfg.tPowerOn, lcd cfg.selCmd (functionSetByte cfg), .wait cfg.tFs1, lcd cfg.selCmd (functionSetByte cfg), .wait cfg.tFs2,
       lcd cfg.selCmd (functionSetByte cfg), lcd cfg.selCmd (functionSetByte cfg), lcd cfg.selCmd (displayControlByte cfg),
       .settle lcdTo [cfg.selCmd, clearByte] cfg.tClear, lcd cfg.selCmd (entryModeByte cfg),
       rgb cfg.regMode1 cfg.valMode1, rgb cfg.regOutput cfg.valOutput, rgb cfg.regMode2 cfg.valMode2]
  | .clear => some [.settle lcdTo [cfg.selCmd, clearByte] cfg.tClear]
  | .home => some [.settle lcdTo [cfg.selCmd, homeByte] cfg.tHome]
  | .setCursor col row => some [lcd cfg.selCmd (col ||| rowBase cfg row)]
  | .putChar c => some [lcd cfg.selData c]
  | .putString str => some (str.map (lcd cfg.selData))
  | .setBlReg reg val => some [rgb reg val]
  | .setBlRgb r g b => some [rgb cfg.regRed r, rgb cfg.regGreen g, rgb cfg.regBlue b]
  | .setBlColor r g b => some [rgb cfg.regRed r, rgb cfg.regGreen g, rgb cfg.regBlue b]
  | _ => none
where
  lcdTo : Byte := addressByte cfg.lcdAddr .w
  lcd (sel c : Byte) : Act := .frame lcdTo [sel, c]
  rgb (reg val : Byte) : Act := .frame (addressByte cfg.rgbAddr .w) [reg, val]

/-- R165: the trace of a piece whose every answer is the ideal one, on a free bus. -/
def Act.ideal : Act → List BusEvent
  | .wait t => [.delay t]
  | .frame ab buf => [.start 0x08#8, .addr ab 0x18#8] ++ buf.map (fun b => .tx b 0x28#8) ++ [.stop]
  | .settle ab buf t => [.start 0x08#8, .addr ab 0x18#8] ++ buf.map (fun b => .tx b 0x28#8) ++ [.stop, .delay t]

/-- R195: the bus is idle: `phase = IDLE`, `bus = FREE`, `STO = 0`. -/
structure BusIdle (t : State) : Prop where
  phase : t.sqr.phase = .idle
  bus : t.per.bus = .free
  xmode : t.per.xmode = .xidle
  sto : t.per.ctrl.sto = false

/-- From `u` the machine performs `acts`, whatever the oracle answers, and ends with their result: the trace grows by what `Acts` says, the
report names `command`, RDATA is as before, and the bus is left idle if there was anything to do. -/
def Performs (command : List Byte) (acts : List Act) (s u : State) : Prop :=
  ∃ t tr r, Reaches u t ∧ Acts s.cfg.clearDelayOnError acts tr r ∧ Follows s tr ∧ Frame s t
    ∧ t.obs.trace = s.obs.trace ++ tr ∧ t.sqr.result = some r ∧ t.sqr.rdata = s.sqr.rdata
    ∧ t.obs.reports = s.obs.reports ++ [{ command := command, result := r, rdata := s.sqr.rdata }]
    ∧ (acts ≠ [] → BusIdle t) ∧ (acts = [] → t.sqr.phase = s.sqr.phase ∧ t.per = (stopped s).per)

/-- A command performs `acts`. -/
def CommandPerforms (i : Instr) (acts : List Act) (s : State) : Prop :=
  ∃ u, exec i s = .next u ∧ Performs (encode s.cfg i) acts s u

/-- The sequencer calls an instruction of a lower layer as the last thing of its command. -/
structure Calling (s : State) : Prop extends Quiet s where
  busy : s.sqr.seq = .busy
  last : s.sqr.cont = []
  bound : s.sqr.bound = { res := .ok, out := none }

/-- A called instruction performs `acts`. -/
def CallPerforms (i : Instr) (acts : List Act) (s : State) : Prop :=
  ∃ u, exec i s = .next u ∧ Performs (descriptorOf s.sqr.opnd) acts s u

/-! ### The invariant -/

/-- Where the sequencer stands against the peripheral. -/
inductive Pos where
  /-- no event is in flight; a START or a STOP may come next -/
  | anywhere
  /-- this event was triggered; a wait comes next -/
  | flight (e : Event)
  /-- the last event has completed, with this mode after it -/
  | settled (m : XMode)
  /-- and DATA holds this byte for the next send -/
  | loaded (m : XMode) (b : Byte)
  deriving DecidableEq, Repr

/-- The mode after an event (R153 to R157). -/
def eventMode : Event → XMode
  | .start => .xaddr
  | .sendAddr b => if b.getLsbD 0 then .xmr else .xmt
  | .sendData _ => .xmt
  | .recvAck => .xmr
  | .recvNack => .xmr

/-- The mode an event is triggered in (30_encoding.md R111). -/
def triggerMode (e : Event) (m : XMode) : Prop :=
  match e with
  | .start => True
  | .sendAddr _ => m = .xaddr
  | .sendData _ => m = .xmt
  | .recvAck => m = .xmr
  | .recvNack => m = .xmr

/-- What a position says of the peripheral. -/
def Pos.realized (pos : Pos) (p : Periph) : Prop :=
  match pos with
  | .anywhere => p.ev = none
  | .flight e => p.ctrl.sto = false ∧
      ((p.ev = some e ∧ triggerMode e p.xmode) ∨
        (p.ev = none ∧ p.ctrl.int = true ∧ p.xmode = eventMode e))
  | .settled m => p.ev = none ∧ p.ctrl.sto = false ∧ p.ctrl.int = true ∧ p.xmode = m
  | .loaded m b => p.ev = none ∧ p.ctrl.sto = false ∧ p.ctrl.int = true ∧ p.xmode = m ∧ p.data = b

/-- No event is in flight. -/
def Pos.landed : Pos → Prop
  | .flight _ => False
  | _ => True

/-- R192's invariants: WRITE implies XMT, READ and READ_DONE imply XMR. -/
def Pos.fits (pos : Pos) (ph : Phase) : Prop :=
  match ph with
  | .write => pos = .settled .xmt
  | .read => pos = .settled .xmr
  | .readDone => pos = .settled .xmr
  | .idle => pos.landed
  | .failed => pos.landed

/-- R154: the mode an address byte of this direction leaves. -/
def dirMode : Dir → XMode
  | .w => .xmt
  | .r => .xmr

/-- What follows a whole transaction, whichever way it went: it leaves IDLE (R194). -/
def afterTransaction (k : Res → Pos → Phase → Prop) (res : Res) (pos : Pos) : Prop :=
  res = .ok ∧ pos.landed ∧ k .ok .anywhere .idle ∧ k .err .anywhere .idle

/-- One continuation item in its place: from `pos` it is in order, and `k` holds of every place it can lead to. -/
def inPlace (k : Res → Pos → Phase → Prop) (res : Res) (pos : Pos) (ph : Phase) : Op → Prop
  | .write .ctrl v =>
    (v = 0xA4#8 ∧ pos.landed ∧ k res (.flight .start) ph)
      ∨ (v = 0x94#8 ∧ pos.landed ∧ k res .anywhere ph)
      ∨ (v = 0x84#8 ∧ ((∃ b, pos = .loaded .xaddr b ∧ k res (.flight (.sendAddr b)) ph)
          ∨ (∃ b, pos = .loaded .xmt b ∧ k res (.flight (.sendData b)) ph)
          ∨ (pos = .settled .xmr ∧ k res (.flight .recvNack) ph)))
      ∨ (v = 0xC4#8 ∧ pos = .settled .xmr ∧ k res (.flight .recvAck) ph)
  | .write .data b => ∃ m, pos = .settled m ∧ k res (.loaded m b) ph
  | .write .status _ => k res pos ph
  | .write .bitrate _ => k res pos ph
  | .wait => ∃ e, pos = .flight e ∧ k res (.settled (eventMode e)) ph
  | .check st => ∃ m, pos = .settled m ∧ k res (.settled m) (phaseAfter st ph) ∧ k .err (.settled m) .failed
  | .take => ∃ m, pos = .settled m ∧ k res (.settled m) ph
  | .delay _ => k res pos ph
  | .setPhase p => k res pos p
  | .run (.addressByte _ d) => res = .ok ∧ pos = .settled .xaddr ∧
      k .ok (.settled (dirMode d)) (phaseAfter (.addr d) ph) ∧ k .err (.settled (dirMode d)) .failed
  | .run (.commandFrame _) | .run (.characterFrame _) | .run (.backlightFrame _ _)
  | .run .lcdClear | .run (.lcdHome _) | .run (.lcdEntryMode _ _) | .run (.lcdDisplayControl _ _ _)
  | .run (.lcdFunctionSet _ _ _ _) | .run (.lcdSetDdram _) | .clearBody => afterTransaction k res pos
  | .run _ => False
  | .writeBytes _ _ => res = .ok ∧ pos = .settled .xmt ∧ k .ok (.settled .xmt) ph ∧ k .err (.settled .xmt) .failed
  | .readBytes _ _ => res = .ok ∧ pos = .settled .xmr ∧ k .ok (.settled .xmr) .readDone
  | .putString _ [] => res = .ok ∧ k .ok pos ph
  | .putString _ (_ :: _) => afterTransaction k res pos

/-- A delay item changes no place, so it may be kept or dropped after ERR. -/
def isDelay : Op → Prop
  | .delay _ => True
  | _ => False

/-- A continuation in its place: every item that will run is in order wherever the answers lead, and the end leaves no event in flight
and a phase that fits. -/
def Coherent : List Task → Res → Pos → Phase → Prop
  | [], _, pos, ph => pos.landed ∧ pos.fits ph
  | t :: ts, .ok, pos, ph => inPlace (Coherent ts) .ok pos ph t.op
  | t :: ts, .err, pos, ph =>
    match t.guard with
    | .onOk => Coherent ts .err pos ph
    | .clearDelay => isDelay t.op ∧ Coherent ts .err pos ph
    | .always => inPlace (Coherent ts) .err pos ph t.op

/-- The invariant of the machine: the peripheral's fields are consistent, its interrupt stays disabled (60_exceptions.md R308), no write
has collided (10_state.md R35), the bus is held exactly from a START's completion to a stop (R43), the continuation is in its place, and
a READY machine has nothing left to run (R40). -/
structure Inv (s : State) : Prop where
  ieClear   : s.per.ctrl.ie = false
  noCollision : s.per.ctrl.wc = false
  busFree   : s.per.bus = .free ↔ s.per.xmode = .xidle
  evPending : s.per.ev.isSome → s.per.ctrl.int = false ∧ s.per.ctrl.sto = false
  stoPending : s.per.ctrl.sto = true → s.per.ctrl.int = false
  placed    : ∃ pos : Pos, pos.realized s.per ∧ Coherent s.sqr.cont s.sqr.bound.res pos s.sqr.phase
  atRest    : s.sqr.seq = .ready → s.sqr.cont = [] ∧ s.sqr.bound = Bound.empty ∧ s.sqr.delay = none

end Sys2Proof.Machine
end

