-- ==== Sys2Proof/Certificates/Slice0/Obligations.lean ====
section
/-! DEFINITION. The statements for the provers. -/

section

open Sys2Proof Sys2Proof.Machine

/-! ### Reset and registers -/

/-- 10_state.md R53 and 70_reset_and_hazards.md R341: the reset values under every configuration, and a block that starts nothing by
itself. The reset state's configuration is the model's choice (assumption 1). Assumption 4 is the model's choice in it. -/
def Obligations.ResetLeavesTheListedValues : Prop :=
  (∀ cfg : Cfg, let s := State.resetWith cfg
    readReg .ctrl s = 0x00#8 ∧ readReg .status s = 0xF8#8 ∧ readReg .data s = 0xFF#8 ∧ readReg .bitrate s = 0x00#8
      ∧ s.per.ev = none ∧ s.per.xmode = .xidle ∧ s.per.bus = .free
      ∧ s.sqr.seq = .ready ∧ s.sqr.phase = .idle ∧ s.sqr.result = none ∧ s.sqr.rdata = []
      ∧ s.sqr.opnd = none ∧ s.sqr.cont = [] ∧ s.obs.trace = [] ∧ s.fault = none)
  ∧ State.reset = State.resetWith Config.default ∧ step State.reset = .next State.reset

/-- 10_state.md R33: the byte a CTRL read returns, and that the reads of the registers leave the peripheral as it was. -/
def Obligations.ControlReadComposesItsFields : Prop :=
  let at_ (b : Bool) (n : Nat) : Byte := (BitVec.ofBool b).setWidth 8 <<< n
  (∀ s : State, readReg .ctrl s
      = at_ s.per.ctrl.int 7 ||| at_ s.per.ctrl.ea 6 ||| at_ s.per.ctrl.sta 5 ||| at_ s.per.ctrl.sto 4
        ||| at_ s.per.ctrl.wc 3 ||| at_ s.per.ctrl.en 2 ||| at_ s.per.ctrl.ie 0)
  ∧ ∀ (op : Op) (rest : List Task) (s : State), op = .wait ∨ op = .take ∨ (∃ st, op = .check st) →
      ∃ t, runOp op rest s = .next t ∧ t.per = s.per

/-- 40_bus_events.md R163 with 10_state.md R32: a CTRL write with bit 7 clear sets five fields, leaves INT, WC and every other register,
and starts nothing; the sequencer never makes one. -/
def Obligations.PlainControlWriteStartsNothing : Prop :=
  (∀ (v : Byte) (rest : List Task) (s : State), v.getLsbD 7 = false →
    ∃ t, runOp (.write .ctrl v) rest s = .next t
      ∧ t = logReg (.w .ctrl v) (pop rest { s with per := { s.per with ctrl := { s.per.ctrl with
          ea := v.getLsbD 6, sta := v.getLsbD 5, sto := v.getLsbD 4, en := v.getLsbD 2, ie := v.getLsbD 0 } } })
      ∧ readReg .ctrl t = (readReg .ctrl s &&& 0x88#8) ||| (v &&& 0x75#8))
  ∧ ∀ (v : Byte) (g : Guard) (rest : List Task) (s : State), Inv s → pending s = { op := .write .ctrl v, guard := g } :: rest →
      v.getLsbD 7 = true

/-- 10_state.md R35 and 70_reset_and_hazards.md R350: a DATA write is taken while INT = 1 and collides while INT = 0; the sequencer
never makes one while INT = 0. -/
def Obligations.DataWriteNeedsTheFlag : Prop :=
  (∀ (v : Byte) (rest : List Task) (s : State), runOp (.write .data v) rest s
    = .next (logReg (.w .data v) (pop rest { s with per :=
        if s.per.ctrl.int then { s.per with data := v, ctrl := { s.per.ctrl with wc := false } }
        else { s.per with ctrl := { s.per.ctrl with wc := true } } })))
  ∧ ∀ (v : Byte) (g : Guard) (rest : List Task) (s : State), Inv s → pending s = { op := .write .data v, guard := g } :: rest →
      s.per.ctrl.int = true

/-- 10_state.md R36 and R37 on writes: STATUS takes its prescaler bits only, BITRATE takes the byte; both start nothing. -/
def Obligations.ConfigurationRegisterWrites : Prop :=
  (∀ s : State, readReg .status s = (s.per.status.sc.setWidth 8 <<< 3) ||| s.per.status.ps.setWidth 8)
  ∧ (∀ (v : Byte) (rest : List Task) (s : State), runOp (.write .status v) rest s
      = .next (logReg (.w .status v) (pop rest { s with per := { s.per with status := { s.per.status with
          ps := v.extractLsb' 0 2 } } })))
  ∧ (∀ (v : Byte) (rest : List Task) (s : State), runOp (.write .bitrate v) rest s
      = .next (logReg (.w .bitrate v) (pop rest { s with per := { s.per with bitrate := v } })))
  ∧ ∀ cfg : Cfg, readReg .status (State.resetWith cfg) = 0xF8#8

/-! ### Encodings -/

/-- 30_encoding.md R111: the trigger table, row by row, and the fault of any other pair. -/
def Obligations.TriggerDecodingTable : Prop :=
  (∀ (v : Byte) (m : XMode), let mv := v &&& 0xF5#8
    (mv = 0xA4#8 → decodeTrigger v m = .start) ∧ (mv = 0x94#8 → decodeTrigger v m = .stop)
    ∧ (mv = 0x84#8 → m = .xaddr → decodeTrigger v m = .sendAddr)
    ∧ (mv = 0x84#8 → m = .xmt → decodeTrigger v m = .sendData)
    ∧ (mv = 0x84#8 → m = .xmr → decodeTrigger v m = .recvNack)
    ∧ (mv = 0xC4#8 → m = .xmr → decodeTrigger v m = .recvAck)
    ∧ (mv ≠ 0xA4#8 → mv ≠ 0x94#8 → ¬ (mv = 0x84#8 ∧ m ≠ .xidle) → ¬ (mv = 0xC4#8 ∧ m = .xmr) →
        decodeTrigger v m = .ctrlUndefined v m))
  ∧ ∀ (v : Byte) (m : XMode) (s : State), TriggerReady s →
      exec (.ctrlUndefined v m) s = .next { s with fault := some .ctrlUndefined }

/-- 30_encoding.md R103: which descriptors spell no command, and the fault of presenting one. -/
def Obligations.IllegalOpcodesSpellNoCommand : Prop :=
  (∀ (cfg : Cfg) (d : List Byte), decode cfg .hostCmd d = .ok (.illegal d) ↔
    d = [] ∨ ∃ d0 args, d = d0 :: args ∧
      (d0 = 0x00#8 ∨ (0x0C ≤ d0.toNat ∧ d0.toNat ≤ 0x0F) ∨ 0x19 ≤ d0.toNat))
  ∧ ∀ (d : List Byte) (s : State), s.fault = none → s.sqr.seq = .ready →
      exec (.illegal d) s = .next { s with fault := some .badOpcode }
      ∧ (decode s.cfg .hostCmd d = .ok (.illegal d) → presentDescriptor d s = .next { s with fault := some .badOpcode })

/-- 30_encoding.md R102: the length a descriptor must have, under every opcode, and the fault of another one. -/
def Obligations.DescriptorLengthsAreChecked : Prop :=
  let length (op : Opcode) (args : List Byte) : Option Nat :=
    match op with
    | .busInit | .endTx | .readAck | .readNack | .dispInit | .clear | .home => some 1
    | .beginTx | .writeByte | .readBytes | .putChar => some 2
    | .transmitOne | .setCursor | .setBlReg => some 3
    | .transmitTwo | .setBlRgb | .setBlColor => some 4
    | .writeBytes | .putString => args[0]?.map (2 + ·.toNat)
    | .transmitMany => args[1]?.map (3 + ·.toNat)
  (∀ (d0 : Byte) (args : List Byte) (op : Opcode), op.byte = d0 →
    (length op args = some (args.length + 1) → ∃ i, decodeDescriptor (d0 :: args) = .ok i ∧ isCommand i = true)
    ∧ (length op args ≠ some (args.length + 1) → decodeDescriptor (d0 :: args) = .error .badLength))
  ∧ ∀ (d : List Byte) (s : State), s.sqr.seq = .ready → decodeDescriptor d = .error .badLength →
      presentDescriptor d s = .next { s with fault := some .badLength }

/-- 30_encoding.md R101, R110, R113 to R116: what an instruction encodes to decodes to it, in its layer and under every legal
configuration. -/
def Obligations.EncodedInstructionsDecode : Prop :=
  ∀ (cfg : Cfg) (i : Instr), legalCfg cfg = true → i.wf = true → decode cfg i.layer (encode cfg i) = .ok i

/-- Every layer but the triggers' (whose bits 3 and 1 are ignored, R111): what bytes decode to encodes to those bytes, so no two byte
lists are one instruction. -/
def Obligations.DecodedBytesEncode : Prop :=
  ∀ (cfg : Cfg) (l : Layer) (bytes : List Byte) (i : Instr), (∀ m, l ≠ .ctrlTrigger m) →
    decode cfg l bytes = .ok i → encode cfg i = bytes

/-- One word of each layer, written out from 30_encoding.md R101, R110, R113, R114 and R116. Assumption 1 is the model's choice in it. -/
def Obligations.SampleWordsDecode : Prop :=
  let cfg := Config.default
  decode cfg .hostCmd [0x02#8, 0x7C#8] = .ok (.beginTx 0x7C#8)
  ∧ decode cfg .hostCmd [0x05#8, 0x02#8, 0x80#8, 0x01#8] = .ok (.writeBytes [0x80#8, 0x01#8])
  ∧ decode cfg .hostCmd [0x0B#8, 0x62#8, 0x01#8, 0x04#8] = .ok (.transmitMany 0x62#8 [0x04#8])
  ∧ decode cfg .hostCmd [0x13#8, 0x05#8, 0x01#8] = .ok (.setCursor 0x05#8 0x01#8)
  ∧ decode cfg .hostCmd [0x18#8, 0x10#8, 0x20#8, 0x30#8] = .ok (.setBlColor 0x10#8 0x20#8 0x30#8)
  ∧ decode cfg (.ctrlTrigger .xmr) [0b11000100#8] = .ok .recvAck
  ∧ decode cfg (.ctrlTrigger .xmt) [0b10000100#8] = .ok .sendData
  ∧ decode cfg .lcdCmd [0b00101000#8] = .ok (.lcdFunctionSet false true false 0#2)
  ∧ decode cfg .lcdCmd [0b11000101#8] = .ok (.lcdSetDdram 0b1000101#7)
  ∧ decode cfg .wireAddress [0b01111101#8] = .ok (.addressByte 0x3E#7 .r)
  ∧ decode cfg .wireDisplay [0x40#8, 0x41#8] = .ok (.characterFrame 0x41#8)

/-- 42_display.md R232: the bytes the framer computes from the configuration, as numbers, and the LCD commands they spell
(30_encoding.md R116). -/
def Obligations.DisplayBytesFollowTheConfiguration : Prop :=
  ∀ cfg : Cfg, legalCfg cfg = true →
    ((functionSetByte cfg).toNat = 0x20 + (if cfg.rows = 2 then 8 else 0) + (if cfg.dots = .dots5x10 then 4 else 0)
      ∧ lcdInstr (functionSetByte cfg) = .lcdFunctionSet false (cfg.rows == 2) (cfg.dots == .dots5x10) 0#2)
    ∧ ((displayControlByte cfg).toNat = 0x0C + (if cfg.cursor then 2 else 0) + (if cfg.blink then 1 else 0)
      ∧ lcdInstr (displayControlByte cfg) = .lcdDisplayControl true cfg.cursor cfg.blink)
    ∧ ((entryModeByte cfg).toNat = 0x04 + (if cfg.entryId then 2 else 0) + (if cfg.entryS then 1 else 0)
      ∧ lcdInstr (entryModeByte cfg) = .lcdEntryMode cfg.entryId cfg.entryS)
    ∧ lcdInstr clearByte = .lcdClear ∧ clearByte = 0x01#8 ∧ lcdInstr homeByte = .lcdHome false ∧ homeByte = 0x02#8
    ∧ rowBase cfg 0#8 = cfg.base0 ∧ rowBase cfg 1#8 = cfg.base1
    ∧ Config.default.base0 = 0x80#8 ∧ Config.default.base1 = 0xC0#8

/-! ### Bus events -/

/-- 40_bus_events.md R153: the START trigger and its completion, every field of the next state. Assumption 13 is the model's choice in it. -/
def Obligations.StartEvent : Prop :=
  (∀ s : State, TriggerReady s → exec .start s = .next { s with per := { s.per with
      ctrl := { int := false, ea := false, sta := true, sto := false, wc := s.per.ctrl.wc, en := true, ie := false }
      ev := some .start } })
  ∧ ∀ (s : State) (later : List Agent), Turn .peripheral s later → s.per.ctrl.sto = false → s.per.ev = some .start →
      let a := draw s .start
      step s = .next { s with
        per := { s.per with
          ctrl := { s.per.ctrl with int := true }
          status := { s.per.status with sc := a.sc }
          ev := none, xmode := .xaddr, bus := .held }
        obs := { s.obs with trace := s.obs.trace ++ [.start (a.sc ++ 0#3)] }
        env := afterDraw .start { s.env with sched := later } }

/-- 40_bus_events.md R154: SEND_ADDR, with `b` the byte in DATA at the trigger. -/
def Obligations.SendAddressEvent : Prop :=
  (∀ s : State, TriggerReady s → s.per.xmode = .xaddr → exec .sendAddr s = .next { s with per := { s.per with
      ctrl := { int := false, ea := false, sta := false, sto := false, wc := s.per.ctrl.wc, en := true, ie := false }
      ev := some (.sendAddr s.per.data) } })
  ∧ ∀ (s : State) (later : List Agent) (b : Byte), Turn .peripheral s later → s.per.ctrl.sto = false →
      s.per.ev = some (.sendAddr b) →
      let a := draw s (.sendAddr b)
      step s = .next { s with
        per := { s.per with
          ctrl := { s.per.ctrl with int := true }
          status := { s.per.status with sc := a.sc }
          ev := none, xmode := if b.getLsbD 0 then .xmr else .xmt }
        obs := { s.obs with trace := s.obs.trace ++ [.addr b (a.sc ++ 0#3)] }
        env := afterDraw (.sendAddr b) { s.env with sched := later } }

/-- 40_bus_events.md R155: SEND_DATA. -/
def Obligations.SendDataEvent : Prop :=
  (∀ s : State, TriggerReady s → s.per.xmode = .xmt → exec .sendData s = .next { s with per := { s.per with
      ctrl := { int := false, ea := false, sta := false, sto := false, wc := s.per.ctrl.wc, en := true, ie := false }
      ev := some (.sendData s.per.data) } })
  ∧ ∀ (s : State) (later : List Agent) (b : Byte), Turn .peripheral s later → s.per.ctrl.sto = false →
      s.per.ev = some (.sendData b) →
      let a := draw s (.sendData b)
      step s = .next { s with
        per := { s.per with
          ctrl := { s.per.ctrl with int := true }
          status := { s.per.status with sc := a.sc }
          ev := none }
        obs := { s.obs with trace := s.obs.trace ++ [.tx b (a.sc ++ 0#3)] }
        env := afterDraw (.sendData b) { s.env with sched := later } }

/-- 40_bus_events.md R156: RECV_ACK. -/
def Obligations.ReceiveAndAcknowledgeEvent : Prop :=
  (∀ s : State, TriggerReady s → s.per.xmode = .xmr → exec .recvAck s = .next { s with per := { s.per with
      ctrl := { int := false, ea := true, sta := false, sto := false, wc := s.per.ctrl.wc, en := true, ie := false }
      ev := some .recvAck } })
  ∧ ∀ (s : State) (later : List Agent), Turn .peripheral s later → s.per.ctrl.sto = false → s.per.ev = some .recvAck →
      let a := draw s .recvAck
      step s = .next { s with
        per := { s.per with
          ctrl := { s.per.ctrl with int := true }
          status := { s.per.status with sc := a.sc }
          data := a.data, ev := none }
        obs := { s.obs with trace := s.obs.trace ++ [.rxa a.data (a.sc ++ 0#3)] }
        env := afterDraw .recvAck { s.env with sched := later } }

/-- 40_bus_events.md R157: RECV_NACK. -/
def Obligations.ReceiveLastEvent : Prop :=
  (∀ s : State, TriggerReady s → s.per.xmode = .xmr → exec .recvNack s = .next { s with per := { s.per with
      ctrl := { int := false, ea := false, sta := false, sto := false, wc := s.per.ctrl.wc, en := true, ie := false }
      ev := some .recvNack } })
  ∧ ∀ (s : State) (later : List Agent), Turn .peripheral s later → s.per.ctrl.sto = false → s.per.ev = some .recvNack →
      let a := draw s .recvNack
      step s = .next { s with
        per := { s.per with
          ctrl := { s.per.ctrl with int := true }
          status := { s.per.status with sc := a.sc }
          data := a.data, ev := none }
        obs := { s.obs with trace := s.obs.trace ++ [.rxn a.data (a.sc ++ 0#3)] }
        env := afterDraw .recvNack { s.env with sched := later } }

/-- 40_bus_events.md R158: the STOP trigger, and the performance of a pending stop, which never sets INT. Assumption 13 is the model's
choice in it. -/
def Obligations.StopEvent : Prop :=
  (∀ s : State, TriggerReady s → exec .stop s = .next { s with
      per := { s.per with
        ctrl := { int := false, ea := false, sta := false, sto := true, wc := s.per.ctrl.wc, en := true, ie := false } }
      obs := { s.obs with trace := s.obs.trace ++ [.stop] } })
  ∧ ∀ (s : State) (later : List Agent), Turn .peripheral s later → s.per.ctrl.sto = true →
      step s = .next { s with
        per := { s.per with
          ctrl := { s.per.ctrl with sto := false }
          status := { s.per.status with sc := 0b11111#5 }
          xmode := .xidle, bus := .free }
        env := { s.env with sched := later } }

/-- 40_bus_events.md R159: while a stop is pending every trigger holds, and the sequencer with it; after the stop the write takes effect
as usual. Assumptions 10 and 21 are the model's choices in it. -/
def Obligations.TriggersHoldForAPendingStop : Prop :=
  (∀ (i : Instr) (m : XMode) (s : State), i.layer = .ctrlTrigger m → s.fault = none → s.per.ctrl.sto = true →
    exec i s = .next s)
  ∧ ∀ (v : Byte) (g : Guard) (rest : List Task) (s : State) (later : List Agent), v.getLsbD 7 = true →
      ItemNext { op := .write .ctrl v, guard := g } rest s later →
      (s.per.ctrl.sto = true → step s = .next (onward later s))
      ∧ (s.per.ctrl.sto = false →
          step s = afterTrigger v rest (exec (decodeTrigger v s.per.xmode) (onward later s)))

/-- 40_bus_events.md R160: a trigger while an event is in flight faults and changes nothing else, and the sequencer never makes one.
That the hold comes first, and this fault before that of an undefined pair (R161), is an inference (assumption 10). -/
def Obligations.TriggerInFlightFaults : Prop :=
  (∀ (i : Instr) (m : XMode) (s : State), i.layer = .ctrlTrigger m → s.fault = none → s.per.ctrl.sto = false →
    s.per.ev ≠ none → exec i s = .next { s with fault := some .triggerInFlight })
  ∧ ∀ (v : Byte) (g : Guard) (rest : List Task) (s : State), Inv s → pending s = { op := .write .ctrl v, guard := g } :: rest →
      s.per.ev = none

/-- 40_bus_events.md R161: a trigger that decodes to no event faults and changes nothing else, and the sequencer never makes one. -/
def Obligations.UndefinedTriggerFaults : Prop :=
  (∀ (v : Byte) (s : State), TriggerReady s → decodeTrigger v s.per.xmode = .ctrlUndefined v s.per.xmode →
    exec (decodeTrigger v s.per.xmode) s = .next { s with fault := some .ctrlUndefined })
  ∧ ∀ (v : Byte) (g : Guard) (rest : List Task) (s : State), Inv s → pending s = { op := .write .ctrl v, guard := g } :: rest →
      ∀ w m, decodeTrigger v s.per.xmode ≠ .ctrlUndefined w m

/-- 30_encoding.md R110 and 60_exceptions.md R308: the five values the sequencer writes to CTRL, each in its mode, and the interrupt enable
that is never set. -/
def Obligations.SequencerWritesFiveControlValues : Prop :=
  ∀ (v : Byte) (g : Guard) (rest : List Task) (s : State), Inv s → pending s = { op := .write .ctrl v, guard := g } :: rest →
    (v = 0xA4#8 ∨ v = 0x94#8 ∨ (v = 0x84#8 ∧ (s.per.xmode = .xaddr ∨ s.per.xmode = .xmt ∨ s.per.xmode = .xmr))
      ∨ (v = 0xC4#8 ∧ s.per.xmode = .xmr))
    ∧ v.getLsbD 0 = false ∧ s.per.ctrl.ie = false

/-- 40_bus_events.md R151: the wait has no step while an event is in flight; once it has completed it takes one step, the final read. -/
def Obligations.WaitHoldsForTheEvent : Prop :=
  ∀ (g : Guard) (rest : List Task) (s : State) (later : List Agent), ItemNext { op := .wait, guard := g } rest s later →
    (s.per.ev ≠ none → step s = .next (onward later s))
    ∧ (s.per.ev = none → s.per.ctrl.int = true →
        step s = .next (logReg .p (pop rest (onward later s))) ∧ (readReg .ctrl s).getLsbD 7 = true)

/-- 40_bus_events.md R164, R166 and R167: the expected sets, the masked comparison, what a passed and a failed check write, and the reads
that check nothing. -/
def Obligations.StatusChecks : Prop :=
  let expectedSet (st : Stage) : List Byte :=
    match st with
    | .start => [0x08#8, 0x10#8]
    | .addr .w => [0x18#8]
    | .addr .r => [0x40#8]
    | .data => [0x28#8]
  (∀ (st : Stage) (rest : List Task) (s : State), let v := readReg .status s
    let s' := logReg (.r .status v) (pop rest s)
    (v &&& 0xF8#8 ∈ expectedSet st → runOp (.check st) rest s = .next { s' with sqr := { s'.sqr with
        phase := match st with | .addr .w => .write | .addr .r => .read | _ => s.sqr.phase } })
    ∧ (v &&& 0xF8#8 ∉ expectedSet st → runOp (.check st) rest s = .next { s' with sqr := { s'.sqr with
        phase := .failed, bound := { s.sqr.bound with res := .err } } }))
  ∧ (∀ (t : Status) (p : BitVec 2), statusByte { t with ps := p } &&& 0xF8#8 = statusByte t &&& 0xF8#8)
  ∧ ∀ (rest : List Task) (s : State), runOp .take rest s
      = .next { logReg (.r .data s.per.data) (pop rest s) with sqr := { s.sqr with
          cont := rest, bound := { s.sqr.bound with out := s.sqr.bound.out.map (· ++ [s.per.data]) } } }

/-- 10_state.md R44 and 40_bus_events.md R165: any answer can be drawn, and the answers of the two test oracles. Assumption 2 is the
model's choice in it. -/
def Obligations.OracleAnswers : Prop :=
  let ideal (e : Event) (b : Bus) : Byte :=
    match e, b with
    | .start, .free => 0x08#8
    | .start, .held => 0x10#8
    | .sendAddr a, _ => if a.getLsbD 0 then 0x40#8 else 0x18#8
    | .sendData _, _ => 0x28#8
    | .recvAck, _ => 0x50#8
    | .recvNack, _ => 0x58#8
  (∀ (s : State) (a : Answer) (as : List Answer) (e : Event), s.env.script = a :: as → draw s e = a)
  ∧ (∀ (s : State) (e : Event), s.env.script = [] → s.env.mode = .ideal →
      (draw s e).sc ++ 0#3 = ideal e s.per.bus
      ∧ ∀ d ds, s.env.reads = d :: ds → (draw s e).data = d
          ∧ (afterDraw e s.env).reads = if e = .recvAck ∨ e = .recvNack then ds else d :: ds)
  ∧ ∀ (s : State) (e : Event) (k : Nat) (sc : BitVec 5), s.env.script = [] → s.env.mode = .idealExcept k sc →
      (draw s e).sc ++ 0#3 = (if s.env.drawn + 1 = k then sc ++ 0#3 else ideal e s.per.bus)

/-! ### Presenting a command -/

/-- 30_encoding.md R106: every command that passes the checks is accepted in one step: the whole descriptor is latched, the sequencer is
BUSY, and nothing else changes but the continuation, which starts the pseudocode. That IDX is 0 then, and the form of the continuation, are
the model's choices (assumption 8). -/
def Obligations.AcceptanceLatchesTheCommand : Prop :=
  ∀ (i : Instr) (s : State), isCommand i = true → i.wf = true → s.fault = none → s.sqr.seq = .ready →
    admittedIn i s.sqr.phase = true →
    ∃ o out body, exec i s = .next (accepted o out body s) ∧ o.opcode :: o.fixed ++ o.buf = encode s.cfg i ∧ o.idx = 0#8
      ∧ body ≠ []

/-- 60_exceptions.md R303: the five checks in their order, each with its fault and nothing else changed; a descriptor that passes them runs
as its instruction. -/
def Obligations.AcceptChecksInOrder : Prop :=
  ∀ (d : List Byte) (more : List HostAction) (later : List Agent) (s : State), Turn .host s later →
    s.env.host = .present d :: more →
    let s' := { s with env := { s.env with host := more, sched := later } }
    let faults (f : Fault) : Prop := step s = .next { s' with fault := some f }
    (s.sqr.seq = .busy → faults .reentrant)
    ∧ (s.sqr.seq = .ready →
        (decode s.cfg .hostCmd d = .ok (.illegal d) → faults .badOpcode)
        ∧ (decode s.cfg .hostCmd d = .error .badLength → faults .badLength)
        ∧ ∀ i, decode s.cfg .hostCmd d = .ok i → isCommand i = true →
            (i = .readBytes 0#8 → faults .readCountZero)
            ∧ (i ≠ .readBytes 0#8 → i.wf = false → faults .badOperand)
            ∧ (i.wf = true → admittedIn i s.sqr.phase = false → faults .phase)
            ∧ (i.wf = true → admittedIn i s.sqr.phase = true → step s = exec i s'
                ∧ ∃ t, step s = .next t ∧ t.fault = none ∧ t.sqr.seq = .busy))

/-- 60_exceptions.md R306 and 10_state.md R47: a fault sets its mark and keeps everything else (the schedule and the host's queue are the
model's own fields), it is never cleared, no agent steps after it, and the run has
not ended (70_reset_and_hazards.md R359). Assumption 5 is the model's choice in it. -/
def Obligations.FaultIsFinal : Prop :=
  (∀ (s t : State) (f : Fault), s.fault = none → step s = .next t → t.fault = some f →
    t = { s with fault := some f, env := { s.env with host := t.env.host, sched := t.env.sched } })
  ∧ ∀ (s : State) (f : Fault), s.fault = some f → step s = .fault f ∧ (∀ i, exec i s = .fault f) ∧ runEnded s = false

/-- 41_bus_master.md R192: the phase table: where a command is admitted, the phase it leaves by its result, the commands that cannot fail,
and the mode an open transaction implies. Assumption 6 is the model's choice in it. -/
def Obligations.PhaseTable : Prop :=
  (∀ (i : Instr) (s : State), isCommand i = true → i.wf = true → s.fault = none → s.sqr.seq = .ready →
    admittedIn i s.sqr.phase = false → exec i s = .next { s with fault := some .phase })
  ∧ (∀ (i : Instr) (s : State), isCommand i = true → i.wf = true → Calm s → admittedIn i s.sqr.phase = true →
      ∃ t r, Ends i s t ∧ t.sqr.seq = .ready ∧ t.sqr.result = some r ∧ t.sqr.phase = phaseTable i r s.sqr.phase
        ∧ (cannotFail i = true → r = .ok))
  ∧ ∀ s : State, Inv s → s.sqr.seq = .ready →
      (s.sqr.phase = .write → s.per.xmode = .xmt) ∧ (s.sqr.phase = .read ∨ s.sqr.phase = .readDone → s.per.xmode = .xmr)

/-! ### Bus master commands -/

/-- 41_bus_master.md R181: BUS_INIT writes the prescaler and the divisor and nothing else, from every state it is admitted in (a pending
stop is performed first on a live bus); a second BUS_INIT leaves the same registers. Assumptions 6, 8 (OPND is
kept after the end) and 21 are the model's choices in it. -/
def Obligations.BusInitRuns : Prop :=
  ∀ s : State, Calm s →
    let q := stopped s
    let br : Byte := BitVec.ofNat 8 ((s.cfg.fCpu / s.cfg.fScl - 16) / 2)
    let t : State := { ended s.sqr.phase .ok s.sqr.rdata { opcode := 0x01#8, fixed := [], buf := [], idx := 0#8 } []
        [.w .status 0x00#8, .w .bitrate br] s with
      per := { q.per with status := { q.per.status with ps := 0#2 }, bitrate := br } }
    Ends .busInit s t ∧ br.toNat = (s.cfg.fCpu / s.cfg.fScl - 16) / 2
      ∧ ∃ t', Ends .busInit t t' ∧ t'.per = t.per ∧ t'.sqr = t.sqr ∧ t'.env = t.env ∧ t'.obs.trace = t.obs.trace

/-- 41_bus_master.md R182: BEGIN under every pair of answers: the start check, the address check by direction, the phase, the exact traces
and every register.
Assumptions 6, 8 (OPND is kept after the end) and 21 are the model's choices in it. -/
def Obligations.BeginRuns : Prop :=
  ∀ (s : State) (ab : Byte) (a b : Answer) (as : List Answer), Calm s → s.env.script = a :: b :: as →
    let o : Opnd := { opcode := 0x02#8, fixed := [ab], buf := [], idx := 0#8 }
    let q := (stopped s).per
    let ca : Byte := a.sc ++ 0#3
    let cb : Byte := b.sc ++ 0#3
    let started : Periph := { q with
      ctrl := { int := true, ea := false, sta := true, sto := false, wc := q.ctrl.wc, en := true, ie := false }
      status := { q.status with sc := a.sc }
      xmode := .xaddr, bus := .held }
    let addressed : Periph := { started with
      ctrl := { int := true, ea := false, sta := false, sto := false, wc := false, en := true, ie := false }
      status := { q.status with sc := b.sc }
      data := ab, xmode := if ab.getLsbD 0 then .xmr else .xmt }
    let regs : List RegEvent := [.w .ctrl 0xA4#8, .p, .r .status (a.sc ++ 0#1 ++ q.status.ps)]
    let regs' : List RegEvent := [.w .data ab, .w .ctrl 0x84#8, .p, .r .status (b.sc ++ 0#1 ++ q.status.ps)]
    (ca ≠ 0x08#8 ∧ ca ≠ 0x10#8 → Ends (.beginTx ab) s { ended .failed .err s.sqr.rdata o [.start ca] regs s with
        per := started, env := answered 1 s })
    ∧ (ca = 0x08#8 ∨ ca = 0x10#8 →
        let ok := cb = (if ab.getLsbD 0 then 0x40#8 else 0x18#8)
        (ok → Ends (.beginTx ab) s { ended (if ab.getLsbD 0 then .read else .write) .ok s.sqr.rdata o
            [.start ca, .addr ab cb] (regs ++ regs') s with per := addressed, env := answered 2 s })
        ∧ (¬ ok → Ends (.beginTx ab) s { ended .failed .err s.sqr.rdata o
            [.start ca, .addr ab cb] (regs ++ regs') s with per := addressed, env := answered 2 s }))

/-- 41_bus_master.md R183: END always answers OK, does not wait, and leaves IDLE; on a live bus the peripheral performs the stop, and
without one END still returns, STO = 1. Assumptions 6, 8 (OPND is kept after the end) and, on a live bus, 21 are the model's choices in it. -/
def Obligations.EndRuns : Prop :=
  let o : Opnd := { opcode := 0x03#8, fixed := [], buf := [], idx := 0#8 }
  (∀ s : State, Calm s →
    let q := (stopped s).per
    Ends .endTx s { ended .idle .ok s.sqr.rdata o [.stop] [.w .ctrl 0x94#8] s with per := { q with
      ctrl := { int := false, ea := false, sta := false, sto := false, wc := q.ctrl.wc, en := true, ie := false }
      status := { q.status with sc := 0b11111#5 }, xmode := .xidle, bus := .free } })
  ∧ ∀ s : State, legalCfg s.cfg = true → s.fault = none → s.env.sched = [] → s.env.live = false → s.sqr.seq = .ready →
      s.sqr.delay = none → s.per.ctrl.sto = false → s.per.ev = none →
      Ends .endTx s { ended .idle .ok s.sqr.rdata o [.stop] [.w .ctrl 0x94#8] s with per := { s.per with
        ctrl := { int := false, ea := false, sta := false, sto := true, wc := s.per.ctrl.wc, en := true, ie := false } } }

/-- 41_bus_master.md R184: WRITE_BYTE in WRITE under every answer, and its fault in every other phase.
Assumptions 6, 8 (OPND is kept after the end) and 21 are the model's choices in it. -/
def Obligations.WriteByteRuns : Prop :=
  (∀ (s : State) (b : Byte) (a : Answer) (as : List Answer), Calm s → s.sqr.phase = .write → s.env.script = a :: as →
    let o : Opnd := { opcode := 0x04#8, fixed := [b], buf := [], idx := 0#8 }
    let c : Byte := a.sc ++ 0#3
    let after (ph : Phase) (r : Res) : State := { ended ph r s.sqr.rdata o [.tx b c]
        [.w .data b, .w .ctrl 0x84#8, .p, .r .status (a.sc ++ 0#1 ++ s.per.status.ps)] s with
      per := { s.per with
        ctrl := { int := true, ea := false, sta := false, sto := false, wc := false, en := true, ie := false }
        status := { s.per.status with sc := a.sc }, data := b }
      env := answered 1 s }
    (c = 0x28#8 → Ends (.writeByte b) s (after .write .ok)) ∧ (c ≠ 0x28#8 → Ends (.writeByte b) s (after .failed .err)))
  ∧ ∀ (s : State) (b : Byte), s.fault = none → s.sqr.seq = .ready → s.sqr.phase ≠ .write →
      exec (.writeByte b) s = .next { s with fault := some .phase }

/-- 41_bus_master.md R185: WRITE_BYTES sends its buffer in order and stops at the first byte that is not acknowledged; an empty buffer
sends nothing; outside WRITE it faults. Assumptions 6 and 21 are the model's choices in it. -/
def Obligations.WriteBytesRuns : Prop :=
  (∀ (s : State) (buf : List Byte), Calm s → s.sqr.phase = .write → buf.length ≤ 255 →
    ∃ t tr r, Ends (.writeBytes buf) s t ∧ Sent buf tr r ∧ Follows s tr ∧ Frame s t
      ∧ t.obs.trace = s.obs.trace ++ tr ∧ t.sqr.result = some r ∧ t.sqr.rdata = s.sqr.rdata
      ∧ t.sqr.phase = (if r = .ok then .write else .failed)
      ∧ t.obs.reports = s.obs.reports ++ [{ command := 0x05#8 :: BitVec.ofNat 8 buf.length :: buf, result := r, rdata := s.sqr.rdata }]
      ∧ t.per.xmode = s.per.xmode ∧ t.per.bus = s.per.bus ∧ (buf = [] → t.per = s.per ∧ t.obs.regTrace = s.obs.regTrace))
  ∧ ∀ (s : State) (buf : List Byte), s.fault = none → s.sqr.seq = .ready → s.sqr.phase ≠ .write →
      exec (.writeBytes buf) s = .next { s with fault := some .phase }

/-- 41_bus_master.md R186: READ_ACK in READ under every answer, whatever its status, and its fault in every other phase.
Assumptions 6, 8 (OPND is kept after the end) and 21 are the model's choices in it. -/
def Obligations.ReadAckRuns : Prop :=
  (∀ (s : State) (a : Answer) (as : List Answer), Calm s → s.sqr.phase = .read → s.env.script = a :: as →
    Ends .readAck s { ended .read .ok [a.data] { opcode := 0x06#8, fixed := [], buf := [], idx := 0#8 }
        [.rxa a.data (a.sc ++ 0#3)] [.w .ctrl 0xC4#8, .p, .r .data a.data] s with
      per := { s.per with
        ctrl := { int := true, ea := true, sta := false, sto := false, wc := s.per.ctrl.wc, en := true, ie := false }
        status := { s.per.status with sc := a.sc }, data := a.data }
      env := answered 1 s })
  ∧ ∀ s : State, s.fault = none → s.sqr.seq = .ready → s.sqr.phase ≠ .read →
      exec .readAck s = .next { s with fault := some .phase }

/-- 41_bus_master.md R187: READ_NACK in READ under every answer, and its fault in every other phase, READ_DONE among them.
Assumptions 6, 8 (OPND is kept after the end) and 21 are the model's choices in it. -/
def Obligations.ReadNackRuns : Prop :=
  (∀ (s : State) (a : Answer) (as : List Answer), Calm s → s.sqr.phase = .read → s.env.script = a :: as →
    Ends .readNack s { ended .readDone .ok [a.data] { opcode := 0x07#8, fixed := [], buf := [], idx := 0#8 }
        [.rxn a.data (a.sc ++ 0#3)] [.w .ctrl 0x84#8, .p, .r .data a.data] s with
      per := { s.per with
        ctrl := { int := true, ea := false, sta := false, sto := false, wc := s.per.ctrl.wc, en := true, ie := false }
        status := { s.per.status with sc := a.sc }, data := a.data }
      env := answered 1 s })
  ∧ ∀ s : State, s.fault = none → s.sqr.seq = .ready → s.sqr.phase ≠ .read →
      exec .readNack s = .next { s with fault := some .phase }

/-- 41_bus_master.md R188: READ_BYTES n reads n bytes, acknowledging all but the last; a zero count and a phase other than READ fault.
Assumptions 6 and 21 are the model's choices in it. -/
def Obligations.ReadBytesRuns : Prop :=
  (∀ (s : State) (n : Byte) (first : List Answer) (last : Answer) (as : List Answer), Calm s → s.sqr.phase = .read →
    s.env.script = first ++ last :: as → n.toNat = first.length + 1 →
    ∃ t, Ends (.readBytes n) s t ∧ Frame s t
      ∧ t.obs.trace = s.obs.trace ++ (first.map fun a => .rxa a.data (a.sc ++ 0#3)) ++ [.rxn last.data (last.sc ++ 0#3)]
      ∧ t.sqr.rdata = first.map (·.data) ++ [last.data] ∧ t.sqr.result = some .ok ∧ t.sqr.phase = .readDone
      ∧ t.per.data = last.data ∧ t.per.ctrl.int = true ∧ t.per.xmode = .xmr ∧ t.per.bus = s.per.bus
      ∧ t.env = answered (first.length + 1) s
      ∧ t.obs.reports = s.obs.reports ++ [{ command := [0x08#8, n], result := .ok, rdata := first.map (·.data) ++ [last.data] }])
  ∧ (∀ s : State, s.fault = none → s.sqr.seq = .ready → exec (.readBytes 0#8) s = .next { s with fault := some .readCountZero })
  ∧ ∀ (s : State) (n : Byte), s.fault = none → s.sqr.seq = .ready → n ≠ 0#8 → s.sqr.phase ≠ .read →
      exec (.readBytes n) s = .next { s with fault := some .phase }

/-- 41_bus_master.md R189 to R191, R194 and R195: the three transmit compositions are one write transaction with a stop on every path,
under every oracle; an address of eight bits faults. Assumptions 6 and 21 are the model's choices in it. -/
def Obligations.TransmitsAreOneTransaction : Prop :=
  (∀ (s : State) (a : Byte) (buf : List Byte), Calm s → a.getLsbD 7 = false → buf.length ≤ 255 →
    CommandPerforms (.transmitMany a buf) [.frame (a <<< 1) buf] s ∧ (a <<< 1).toNat = 2 * a.toNat)
  ∧ (∀ (s : State) (a b : Byte), Calm s → a.getLsbD 7 = false → CommandPerforms (.transmitOne a b) [.frame (a <<< 1) [b]] s)
  ∧ (∀ (s : State) (a b0 b1 : Byte), Calm s → a.getLsbD 7 = false →
      CommandPerforms (.transmitTwo a b0 b1) [.frame (a <<< 1) [b0, b1]] s)
  ∧ ∀ (s : State) (a b0 b1 : Byte) (buf : List Byte), s.fault = none → s.sqr.seq = .ready → a.getLsbD 7 = true →
      let faulted : Host.Outcome State Fault Refusal := .next { s with fault := some .badOperand }
      exec (.transmitMany a buf) s = faulted ∧ exec (.transmitOne a b0) s = faulted ∧ exec (.transmitTwo a b0 b1) s = faulted

/-- 30_encoding.md R108: each of the three expansions gives the traces and results of what it expands to, from the same state. Assumptions
6 and 21 are the model's choices in it. -/
def Obligations.ExpansionsAgree : Prop :=
  let same (i j : Instr) (s : State) : Prop := ∃ t t', Ends i s t ∧ Ends j s t' ∧ t.sqr.seq = .ready ∧ t'.sqr.seq = .ready
    ∧ t.obs.trace = t'.obs.trace ∧ t.obs.regTrace = t'.obs.regTrace ∧ t.sqr.result = t'.sqr.result ∧ t.sqr.rdata = t'.sqr.rdata
    ∧ t.sqr.phase = t'.sqr.phase ∧ t.per = t'.per ∧ t.env = t'.env
  ∀ s : State, Calm s →
    (∀ a b : Byte, a.getLsbD 7 = false → same (.transmitOne a b) (.transmitMany a [b]) s)
    ∧ (∀ a b0 b1 : Byte, a.getLsbD 7 = false → same (.transmitTwo a b0 b1) (.transmitMany a [b0, b1]) s)
    ∧ ∀ r g b : Byte, same (.setBlColor r g b) (.setBlRgb r g b) s

/-! ### Display commands -/

/-- 42_display.md R233: DISP_INIT is the power-on wait and ten transactions in the fixed order, aborted at the first that fails.
Assumptions 3, 6 and 21 are the model's choices in it. -/
def Obligations.DispInitRuns : Prop :=
  ∀ s : State, Calm s →
    let lcd := addressByte s.cfg.lcdAddr .w
    let rgb := addressByte s.cfg.rgbAddr .w
    let cmd (c : Byte) : Act := .frame lcd [s.cfg.selCmd, c]
    let fs := functionSetByte s.cfg
    CommandPerforms .dispInit
      [.wait s.cfg.tPowerOn, cmd fs, .wait s.cfg.tFs1, cmd fs, .wait s.cfg.tFs2, cmd fs, cmd fs, cmd (displayControlByte s.cfg),
       .settle lcd [s.cfg.selCmd, 0x01#8] s.cfg.tClear, cmd (entryModeByte s.cfg),
       .frame rgb [s.cfg.regMode1, s.cfg.valMode1], .frame rgb [s.cfg.regOutput, s.cfg.valOutput],
       .frame rgb [s.cfg.regMode2, s.cfg.valMode2]] s

/-- 42_display.md R234 and R235: CLEAR and HOME are one command frame and their fixed delay, which CLEAR_DELAY_ON_ERROR keeps after a
failed send. Assumptions 3, 6 and 21 are the model's choices in it. -/
def Obligations.ClearAndHomeRun : Prop :=
  ∀ s : State, Calm s →
    let lcd := addressByte s.cfg.lcdAddr .w
    CommandPerforms .clear [.settle lcd [s.cfg.selCmd, 0x01#8] s.cfg.tClear] s
    ∧ CommandPerforms .home [.settle lcd [s.cfg.selCmd, 0x02#8] s.cfg.tHome] s
    ∧ s.cfg.tHome < s.cfg.tClear

/-- 42_display.md R236: SET_CURSOR sends the column OR the row's base for every column, and faults on a row that is not 0 or 1.
Assumptions 6 and 21 are the model's choices in it. -/
def Obligations.SetCursorRuns : Prop :=
  (∀ (s : State) (col row : Byte), Calm s → row = 0#8 ∨ row = 1#8 →
    CommandPerforms (.setCursor col row)
      [.frame (addressByte s.cfg.lcdAddr .w) [s.cfg.selCmd, col ||| if row = 0#8 then s.cfg.base0 else s.cfg.base1]] s)
  ∧ ∀ (s : State) (col row : Byte), s.fault = none → s.sqr.seq = .ready → row ≠ 0#8 → row ≠ 1#8 →
      exec (.setCursor col row) s = .next { s with fault := some .badOperand }

/-- 42_display.md R237 and R238: PUT_CHAR sends any byte as one character frame, PUT_STRING one frame a character up to the first failure,
nothing for an empty string, and faults on a 0x00. Assumptions 6 and 21 are the model's choices in it. -/
def Obligations.CharactersRun : Prop :=
  (∀ (s : State) (c : Byte), Calm s →
    CommandPerforms (.putChar c) [.frame (addressByte s.cfg.lcdAddr .w) [s.cfg.selData, c]] s)
  ∧ (∀ (s : State) (str : List Byte), Calm s → str.length ≤ 255 → 0#8 ∉ str →
      CommandPerforms (.putString str) (str.map fun c => .frame (addressByte s.cfg.lcdAddr .w) [s.cfg.selData, c]) s)
  ∧ ∀ (s : State) (str : List Byte), s.fault = none → s.sqr.seq = .ready → 0#8 ∈ str →
      exec (.putString str) s = .next { s with fault := some .badOperand }

/-- 42_display.md R239 to R241: a backlight register write is one frame to the backlight controller; a colour is three, red, green, blue,
up to the first failure. Assumptions 6 and 21 are the model's choices in it. -/
def Obligations.BacklightRuns : Prop :=
  ∀ s : State, Calm s →
    let rgb := addressByte s.cfg.rgbAddr .w
    (∀ reg val : Byte, CommandPerforms (.setBlReg reg val) [.frame rgb [reg, val]] s)
    ∧ ∀ r g b : Byte,
        let channels : List Act := [.frame rgb [s.cfg.regRed, r], .frame rgb [s.cfg.regGreen, g], .frame rgb [s.cfg.regBlue, b]]
        CommandPerforms (.setBlRgb r g b) channels s ∧ CommandPerforms (.setBlColor r g b) channels s

/-! ### The lower layers' instructions -/

/-- 00_scope.md R14: a call of a lower layer's instruction runs its body inline: its items come before what is left, and the call itself
changes nothing else. Assumption 15 is the model's choice in it. -/
def Obligations.CallsChangeOnlyTheContinuation : Prop :=
  ∀ (i : Instr) (s : State), i.layer = .lcdCmd ∨ i.layer = .wireAddress ∨ i.layer = .wireDisplay ∨ i.layer = .wireBacklight →
    s.fault = none → ∃ items, items ≠ [] ∧ exec i s = .next (pop (items ++ s.sqr.cont) s)

/-- 30_encoding.md R114, R115 and 42_display.md R231: a called frame is one two-byte write transaction to its peer, the selector or
register byte first. Assumptions 6 and 15 are the model's choices in it. -/
def Obligations.FramesAreOneTransaction : Prop :=
  ∀ s : State, Calling s →
    let lcd := addressByte s.cfg.lcdAddr .w
    (∀ c : Byte, CallPerforms (.commandFrame c) [.frame lcd [s.cfg.selCmd, c]] s)
    ∧ (∀ c : Byte, CallPerforms (.characterFrame c) [.frame lcd [s.cfg.selData, c]] s)
    ∧ ∀ reg val : Byte, CallPerforms (.backlightFrame reg val) [.frame (addressByte s.cfg.rgbAddr .w) [reg, val]] s

/-- 30_encoding.md R116: a called LCD command sends the byte of its bit pattern as a command frame. Assumptions 6 and 15 are the model's
choices in it. -/
def Obligations.LcdCommandsSendTheirPattern : Prop :=
  let b (x : Bool) (n : Nat) : Byte := (BitVec.ofBool x).setWidth 8 <<< n
  ∀ s : State, Calling s →
    let sends (i : Instr) (c : Byte) : Prop := CallPerforms i [.frame (addressByte s.cfg.lcdAddr .w) [s.cfg.selCmd, c]] s
    sends .lcdClear 0x01#8
    ∧ (∀ x, sends (.lcdHome x) (0x02#8 ||| b x 0))
    ∧ (∀ i sh, sends (.lcdEntryMode i sh) (0x04#8 ||| b i 1 ||| b sh 0))
    ∧ (∀ d c bl, sends (.lcdDisplayControl d c bl) (0x08#8 ||| b d 2 ||| b c 1 ||| b bl 0))
    ∧ (∀ dl n f x, sends (.lcdFunctionSet dl n f x) (0x20#8 ||| b dl 4 ||| b n 3 ||| b f 2 ||| x.setWidth 8))
    ∧ ∀ a, sends (.lcdSetDdram a) (0x80#8 ||| a.setWidth 8)

/-- 30_encoding.md R113: the address byte is `(addr << 1) | dir`; called after a START it is sent and checked by its direction.
Assumptions 6 and 15 are the model's choices in it. -/
def Obligations.AddressByteIsSentAndChecked : Prop :=
  (∀ (addr : Addr7) (dir : Dir), addressByte addr dir = (addr.setWidth 8 <<< 1) ||| (match dir with | .w => 0#8 | .r => 1#8))
  ∧ ∀ (s : State) (addr : Addr7) (dir : Dir) (a : Answer) (as : List Answer), Calling s → s.per.xmode = .xaddr →
      s.per.ctrl.int = true → s.per.ctrl.sto = false → s.env.script = a :: as →
      let ab := addressByte addr dir
      let c : Byte := a.sc ++ 0#3
      ∃ u t, exec (.addressByte addr dir) s = .next u ∧ Reaches u t ∧ Frame s t
        ∧ t.obs.trace = s.obs.trace ++ [.addr ab c]
        ∧ t.obs.regTrace = s.obs.regTrace
            ++ [.w .data ab, .w .ctrl 0x84#8, .p, .r .status (a.sc ++ 0#1 ++ s.per.status.ps)]
        ∧ t.per.data = ab ∧ t.per.xmode = (match dir with | .w => .xmt | .r => .xmr) ∧ t.per.bus = s.per.bus
        ∧ (c = (match dir with | .w => 0x18#8 | .r => 0x40#8) →
            t.sqr.result = some .ok ∧ t.sqr.phase = (match dir with | .w => .write | .r => .read))
        ∧ (c ≠ (match dir with | .w => 0x18#8 | .r => 0x40#8) → t.sqr.result = some .err ∧ t.sqr.phase = .failed)

/-! ### The machine -/

/-- Every host command, from every state a command can start in on a live bus: the steps of the machine, micro-operation by
micro-operation, end in the state the pseudocode of 41_bus_master.md and 42_display.md gives, run as a program. Assumptions 6, 8 (OPND
kept after the end, IDX at and after READ_BYTES's last read and after a loop), 21 and 22 (the register-trace entry of a delay) are the model's
choices in it. -/
def Obligations.CommandsFollowTheirPseudocode : Prop :=
  ∀ (i : Instr) (s : State), isCommand i = true → i.wf = true → Calm s → admittedIn i s.sqr.phase = true →
    ∃ u, exec i s = .next u ∧ Reaches u (runP i u) ∧ (runP i u).sqr.seq = .ready

/-- The invariant holds right after reset, under every configuration. -/
def Obligations.InvariantHoldsAtReset : Prop :=
  (∀ cfg : Cfg, Inv (State.resetWith cfg)) ∧ Inv State.reset

/-- Every step of every agent, in any schedule and under any oracle, keeps the invariant, and a step of the sequencer raises no fault. -/
def Obligations.EveryStepKeepsTheInvariant : Prop :=
  (∀ s t : State, Inv s → step s = .next t → Inv t)
  ∧ ∀ (s t : State) (later : List Agent), Inv s → Turn .sequencer s later → step s = .next t → t.fault = none

/-- When an agent's turn comes, the step runs the instruction it fetches: a presented descriptor that decodes, a trigger value decoded
with the peripheral's mode, a called instruction. -/
def Obligations.StepRunsTheDecodedInstruction : Prop :=
  (∀ (d : List Byte) (i : Instr) (more : List HostAction) (later : List Agent) (s : State), Turn .host s later →
    s.env.host = .present d :: more → s.sqr.seq = .ready → decode s.cfg .hostCmd d = .ok i →
    step s = exec i { s with env := { s.env with host := more, sched := later } })
  ∧ (∀ (v : Byte) (i : Instr) (g : Guard) (rest : List Task) (s : State) (later : List Agent),
      ItemNext { op := .write .ctrl v, guard := g } rest s later → s.per.ctrl.sto = false →
      decode s.cfg (.ctrlTrigger s.per.xmode) [v] = .ok i → step s = afterTrigger v rest (exec i (onward later s)))
  ∧ ∀ (i : Instr) (g : Guard) (rest : List Task) (s : State) (later : List Agent),
      ItemNext { op := .run i, guard := g } rest s later →
      step s = afterCall (onward later s) (exec i (pop rest (onward later s)))

/-- 10_state.md R49 and R46: no step changes the configuration, and every step leaves what was observed so far and at most adds to it.
70_reset_and_hazards.md R359: a run that has ended keeps its observation, unless the host's read of a missing RESULT faults. -/
def Obligations.ObservationsOnlyGrow : Prop :=
  ∀ s t : State, step s = .next t → t.cfg = s.cfg ∧ s.obs.trace <+: t.obs.trace ∧ s.obs.regTrace <+: t.obs.regTrace
    ∧ s.obs.reports <+: t.obs.reports ∧ s.obs.seen <+: t.obs.seen
    ∧ (runEnded s = true → t.fault = none → observation t = observation s)

/-- 10_state.md R45: RESULT and RDATA change only in the step that ends a command, and that step makes the sequencer READY and reports
them; nothing else makes it READY. -/
def Obligations.ResultsChangeAtTheEnd : Prop :=
  ∀ s t : State, step s = .next t →
    (t.sqr.result ≠ s.sqr.result ∨ t.sqr.rdata ≠ s.sqr.rdata ∨ (s.sqr.seq = .busy ∧ t.sqr.seq = .ready)) →
    s.sqr.seq = .busy ∧ t.sqr.seq = .ready ∧ t.sqr.phase = s.sqr.phase ∧ t.per = s.per ∧ t.obs.trace = s.obs.trace
      ∧ ∃ r, t.sqr.result = some r ∧ t.obs.reports
          = s.obs.reports ++ [{ command := descriptorOf s.sqr.opnd, result := r, rdata := t.sqr.rdata }]

/-- 10_state.md R41, 30_encoding.md R118: the host reads RESULT as one bit, and RDATA; before any command has completed the read faults,
and while a command runs the host waits. Assumption 17 is the model's choice in it. -/
def Obligations.HostReadsTheResult : Prop :=
  ∀ (s : State) (more : List HostAction) (later : List Agent), Turn .host s later → s.env.host = .readResult :: more →
    let s' := { s with env := { s.env with host := more, sched := later } }
    (s.sqr.result = none → step s = .next { s' with fault := some .noResult })
    ∧ ∀ r, s.sqr.result = some r →
        (s.sqr.seq = .ready → step s = .next { s' with obs := { s.obs with
          seen := s.obs.seen ++ [((match r with | .ok => 0#1 | .err => 1#1), s.sqr.rdata)] } })
        ∧ (s.sqr.seq = .busy → step s = .next (onward later s))

/-- 70_reset_and_hazards.md R357: a delay goes to the trace, and as a micro-operation (40_bus_events.md R150) to the register trace, the
sequencer has no step while it runs, and it ends by the delay unit's step. Assumptions 9 and 22 (its register-trace entry) are the model's
choices in it. -/
def Obligations.DelaysAreTracedAndEnd : Prop :=
  (∀ (n : Nat) (g : Guard) (rest : List Task) (s : State) (later : List Agent), ItemNext { op := .delay n, guard := g } rest s later →
    step s = .next { s with
      sqr := { s.sqr with cont := rest, delay := some n }
      obs := { s.obs with trace := s.obs.trace ++ [.delay n], regTrace := s.obs.regTrace ++ [.delay n] }
      env := { s.env with sched := later } })
  ∧ ∀ (s : State) (later : List Agent) (n : Nat), s.sqr.delay = some n →
      (Turn .sequencer s later → step s = .next (onward later s))
      ∧ (Turn .delayUnit s later → step s = .next { s with sqr := { s.sqr with delay := none }, env := { s.env with sched := later } })

/-- 60_exceptions.md R307 and 40_bus_events.md R168: with an event that never completes, or a stop that is never performed, the machine
takes steps for ever, no command ends, and the run has not ended (70_reset_and_hazards.md R359). Assumption 6 is the model's choice in it. -/
def Obligations.DeadBusHangs : Prop :=
  ∀ s : State, legalCfg s.cfg = true → s.fault = none → s.env.sched = [] → s.env.live = false → s.sqr.seq = .busy →
    s.sqr.delay = none →
    ((∃ g rest, pending s = { op := .wait, guard := g } :: rest ∧ s.per.ev ≠ none)
      ∨ ∃ v g rest, pending s = { op := .write .ctrl v, guard := g } :: rest ∧ v.getLsbD 7 = true ∧ s.per.ctrl.sto = true) →
    (∀ k, Host.Core.run Sys2Proof.core k s = .next s) ∧ runEnded s = false

/-- 00_scope.md R9: the model has no machine for a configuration that breaks a constraint, and has one for every other. Assumption 23 is
the model's choice in it. -/
def Obligations.IllegalConfigurationsAreRefused : Prop :=
  ∀ s : State, s.fault = none →
    let c := s.cfg
    let legal : Prop := (c.rows = 1 ∨ c.rows = 2) ∧ ¬ (c.dots = .dots5x10 ∧ c.rows = 2) ∧ 16 ≤ c.fCpu / c.fScl
      ∧ (c.fCpu / c.fScl - 16) / 2 ≤ 255 ∧ c.base0 ≠ c.base1 ∧ c.selCmd ≠ c.selData ∧ c.tHome < c.tClear ∧ 0 < c.tHome
      ∧ 30000 ≤ c.tPowerOn ∧ 4500 ≤ c.tFs1 ∧ 150 ≤ c.tFs2
    (legal → ∃ t, step s = .next t) ∧ (¬ legal → step s = .refused .illegalConfig)

/-- 90_conflicts.md C4 and 40_bus_events.md R165: with a peripheral that always acknowledges correctly every admitted command ends with
OK, and with no descriptor left to present the run has ended (70_reset_and_hazards.md R359). Assumptions 6 and 21 are the model's choices in it. -/
def Obligations.IdealOracleMeansSuccess : Prop :=
  ∀ (i : Instr) (s : State), isCommand i = true → i.wf = true → Calm s → admittedIn i s.sqr.phase = true →
    s.env.script = [] → s.env.mode = .ideal →
    ∃ t, Ends i s t ∧ t.sqr.seq = .ready ∧ t.sqr.result = some .ok ∧ t.fault = none
      ∧ ((∀ d, .present d ∉ s.env.host) → observation t = some (t.obs.trace, t.obs.reports))

/-- 42_display.md R242 and 40_bus_events.md R165: on the ideal oracle, from a free bus, the whole trace of every display command and of
every transmit composition, transaction by transaction and delay by delay. Assumptions 6 and 21 are the model's choices in it. -/
def Obligations.IdealTracesAreWhole : Prop :=
  ∀ (i : Instr) (acts : List Act) (s : State), actsOf s.cfg i = some acts → i.wf = true → Calm s →
    (stopped s).per.bus = .free → s.env.script = [] → s.env.mode = .ideal →
    ∃ t, Ends i s t ∧ t.sqr.seq = .ready ∧ t.sqr.result = some .ok ∧ t.obs.trace = s.obs.trace ++ acts.flatMap Act.ideal

end
end

