-- ==== Sys2Proof/Laws/State.lean ====
section
/-! SUPPORT. One small lemma per updated or kept field of each named state update, all by definition. -/

namespace Sys2Proof.Machine

/-! ### Reset -/

@[simp] theorem resetWith_cfg (c : Cfg) : (State.resetWith c).cfg = c := rfl
@[simp] theorem resetWith_per (c : Cfg) : (State.resetWith c).per = Periph.reset := rfl
@[simp] theorem resetWith_sqr (c : Cfg) : (State.resetWith c).sqr = Sequencer.reset := rfl
@[simp] theorem resetWith_obs (c : Cfg) : (State.resetWith c).obs = Obs.reset := rfl
@[simp] theorem resetWith_fault (c : Cfg) : (State.resetWith c).fault = none := rfl
@[simp] theorem resetWith_env (c : Cfg) : (State.resetWith c).env = Env.reset := rfl

/-! ### The traces -/

@[simp] theorem logBus_cfg (e : BusEvent) (s : State) : (logBus e s).cfg = s.cfg := rfl
@[simp] theorem logBus_per (e : BusEvent) (s : State) : (logBus e s).per = s.per := rfl
@[simp] theorem logBus_sqr (e : BusEvent) (s : State) : (logBus e s).sqr = s.sqr := rfl
@[simp] theorem logBus_fault (e : BusEvent) (s : State) : (logBus e s).fault = s.fault := rfl
@[simp] theorem logBus_env (e : BusEvent) (s : State) : (logBus e s).env = s.env := rfl
@[simp] theorem logBus_trace (e : BusEvent) (s : State) : (logBus e s).obs.trace = s.obs.trace ++ [e] := rfl
@[simp] theorem logBus_regTrace (e : BusEvent) (s : State) : (logBus e s).obs.regTrace = s.obs.regTrace := rfl
@[simp] theorem logBus_reports (e : BusEvent) (s : State) : (logBus e s).obs.reports = s.obs.reports := rfl
@[simp] theorem logBus_seen (e : BusEvent) (s : State) : (logBus e s).obs.seen = s.obs.seen := rfl

@[simp] theorem logReg_cfg (e : RegEvent) (s : State) : (logReg e s).cfg = s.cfg := rfl
@[simp] theorem logReg_per (e : RegEvent) (s : State) : (logReg e s).per = s.per := rfl
@[simp] theorem logReg_sqr (e : RegEvent) (s : State) : (logReg e s).sqr = s.sqr := rfl
@[simp] theorem logReg_fault (e : RegEvent) (s : State) : (logReg e s).fault = s.fault := rfl
@[simp] theorem logReg_env (e : RegEvent) (s : State) : (logReg e s).env = s.env := rfl
@[simp] theorem logReg_trace (e : RegEvent) (s : State) : (logReg e s).obs.trace = s.obs.trace := rfl
@[simp] theorem logReg_regTrace (e : RegEvent) (s : State) : (logReg e s).obs.regTrace = s.obs.regTrace ++ [e] := rfl
@[simp] theorem logReg_reports (e : RegEvent) (s : State) : (logReg e s).obs.reports = s.obs.reports := rfl
@[simp] theorem logReg_seen (e : RegEvent) (s : State) : (logReg e s).obs.seen = s.obs.seen := rfl

@[simp] theorem logDelay_cfg (t : Nat) (s : State) : (logDelay t s).cfg = s.cfg := rfl
@[simp] theorem logDelay_per (t : Nat) (s : State) : (logDelay t s).per = s.per := rfl
@[simp] theorem logDelay_sqr (t : Nat) (s : State) : (logDelay t s).sqr = s.sqr := rfl
@[simp] theorem logDelay_fault (t : Nat) (s : State) : (logDelay t s).fault = s.fault := rfl
@[simp] theorem logDelay_env (t : Nat) (s : State) : (logDelay t s).env = s.env := rfl
@[simp] theorem logDelay_trace (t : Nat) (s : State) : (logDelay t s).obs.trace = s.obs.trace ++ [.delay t] := rfl
@[simp] theorem logDelay_regTrace (t : Nat) (s : State) : (logDelay t s).obs.regTrace = s.obs.regTrace ++ [.delay t] := rfl
@[simp] theorem logDelay_reports (t : Nat) (s : State) : (logDelay t s).obs.reports = s.obs.reports := rfl
@[simp] theorem logDelay_seen (t : Nat) (s : State) : (logDelay t s).obs.seen = s.obs.seen := rfl

/-! ### Peripheral register writes -/

@[simp] theorem writeCtrlFields_status (v : Byte) (p : Periph) : (writeCtrlFields v p).status = p.status := rfl
@[simp] theorem writeCtrlFields_data (v : Byte) (p : Periph) : (writeCtrlFields v p).data = p.data := rfl
@[simp] theorem writeCtrlFields_bitrate (v : Byte) (p : Periph) : (writeCtrlFields v p).bitrate = p.bitrate := rfl
@[simp] theorem writeCtrlFields_ev (v : Byte) (p : Periph) : (writeCtrlFields v p).ev = p.ev := rfl
@[simp] theorem writeCtrlFields_xmode (v : Byte) (p : Periph) : (writeCtrlFields v p).xmode = p.xmode := rfl
@[simp] theorem writeCtrlFields_bus (v : Byte) (p : Periph) : (writeCtrlFields v p).bus = p.bus := rfl
@[simp] theorem writeCtrlFields_int (v : Byte) (p : Periph) :
    (writeCtrlFields v p).ctrl.int = if v.getLsbD 7 then false else p.ctrl.int := rfl
@[simp] theorem writeCtrlFields_ea (v : Byte) (p : Periph) : (writeCtrlFields v p).ctrl.ea = v.getLsbD 6 := rfl
@[simp] theorem writeCtrlFields_sta (v : Byte) (p : Periph) : (writeCtrlFields v p).ctrl.sta = v.getLsbD 5 := rfl
@[simp] theorem writeCtrlFields_sto (v : Byte) (p : Periph) : (writeCtrlFields v p).ctrl.sto = v.getLsbD 4 := rfl
@[simp] theorem writeCtrlFields_wc (v : Byte) (p : Periph) : (writeCtrlFields v p).ctrl.wc = p.ctrl.wc := rfl
@[simp] theorem writeCtrlFields_en (v : Byte) (p : Periph) : (writeCtrlFields v p).ctrl.en = v.getLsbD 2 := rfl
@[simp] theorem writeCtrlFields_ie (v : Byte) (p : Periph) : (writeCtrlFields v p).ctrl.ie = v.getLsbD 0 := rfl

@[simp] theorem writeStatus_sc (v : Byte) (p : Periph) : (writeStatus v p).status.sc = p.status.sc := rfl
@[simp] theorem writeStatus_ps (v : Byte) (p : Periph) : (writeStatus v p).status.ps = v.extractLsb' 0 2 := rfl
@[simp] theorem writeStatus_ctrl (v : Byte) (p : Periph) : (writeStatus v p).ctrl = p.ctrl := rfl
@[simp] theorem writeStatus_data (v : Byte) (p : Periph) : (writeStatus v p).data = p.data := rfl
@[simp] theorem writeStatus_bitrate (v : Byte) (p : Periph) : (writeStatus v p).bitrate = p.bitrate := rfl
@[simp] theorem writeStatus_ev (v : Byte) (p : Periph) : (writeStatus v p).ev = p.ev := rfl
@[simp] theorem writeStatus_xmode (v : Byte) (p : Periph) : (writeStatus v p).xmode = p.xmode := rfl
@[simp] theorem writeStatus_bus (v : Byte) (p : Periph) : (writeStatus v p).bus = p.bus := rfl

@[simp] theorem writeBitrate_bitrate (v : Byte) (p : Periph) : (writeBitrate v p).bitrate = v := rfl
@[simp] theorem writeBitrate_ctrl (v : Byte) (p : Periph) : (writeBitrate v p).ctrl = p.ctrl := rfl
@[simp] theorem writeBitrate_status (v : Byte) (p : Periph) : (writeBitrate v p).status = p.status := rfl
@[simp] theorem writeBitrate_data (v : Byte) (p : Periph) : (writeBitrate v p).data = p.data := rfl
@[simp] theorem writeBitrate_ev (v : Byte) (p : Periph) : (writeBitrate v p).ev = p.ev := rfl
@[simp] theorem writeBitrate_xmode (v : Byte) (p : Periph) : (writeBitrate v p).xmode = p.xmode := rfl
@[simp] theorem writeBitrate_bus (v : Byte) (p : Periph) : (writeBitrate v p).bus = p.bus := rfl

@[simp] theorem writeData_status (v : Byte) (p : Periph) : (writeData v p).status = p.status := by unfold writeData; split <;> rfl
@[simp] theorem writeData_bitrate (v : Byte) (p : Periph) : (writeData v p).bitrate = p.bitrate := by unfold writeData; split <;> rfl
@[simp] theorem writeData_ev (v : Byte) (p : Periph) : (writeData v p).ev = p.ev := by unfold writeData; split <;> rfl
@[simp] theorem writeData_xmode (v : Byte) (p : Periph) : (writeData v p).xmode = p.xmode := by unfold writeData; split <;> rfl
@[simp] theorem writeData_bus (v : Byte) (p : Periph) : (writeData v p).bus = p.bus := by unfold writeData; split <;> rfl
@[simp] theorem writeData_int (v : Byte) (p : Periph) : (writeData v p).ctrl.int = p.ctrl.int := by unfold writeData; split <;> rfl
@[simp] theorem writeData_ea (v : Byte) (p : Periph) : (writeData v p).ctrl.ea = p.ctrl.ea := by unfold writeData; split <;> rfl
@[simp] theorem writeData_sta (v : Byte) (p : Periph) : (writeData v p).ctrl.sta = p.ctrl.sta := by unfold writeData; split <;> rfl
@[simp] theorem writeData_sto (v : Byte) (p : Periph) : (writeData v p).ctrl.sto = p.ctrl.sto := by unfold writeData; split <;> rfl
@[simp] theorem writeData_en (v : Byte) (p : Periph) : (writeData v p).ctrl.en = p.ctrl.en := by unfold writeData; split <;> rfl
@[simp] theorem writeData_ie (v : Byte) (p : Periph) : (writeData v p).ctrl.ie = p.ctrl.ie := by unfold writeData; split <;> rfl

theorem writeData_taken {p : Periph} (h : p.ctrl.int = true) (v : Byte) :
    writeData v p = { p with data := v, ctrl := { p.ctrl with wc := false } } := by
  simp [writeData, h]

theorem writeData_lost {p : Periph} (h : p.ctrl.int = false) (v : Byte) :
    writeData v p = { p with ctrl := { p.ctrl with wc := true } } := by
  simp [writeData, h]

@[simp] theorem writeReg_status (v : Byte) (p : Periph) : writeReg .status v p = writeStatus v p := rfl
@[simp] theorem writeReg_data (v : Byte) (p : Periph) : writeReg .data v p = writeData v p := rfl
@[simp] theorem writeReg_bitrate (v : Byte) (p : Periph) : writeReg .bitrate v p = writeBitrate v p := rfl
@[simp] theorem writeReg_ctrl (v : Byte) (p : Periph) : writeReg .ctrl v p = writeCtrlFields v p := rfl

/-! ### Events -/

@[simp] theorem beginEvent_cfg (e : Event) (s : State) : (beginEvent e s).cfg = s.cfg := rfl
@[simp] theorem beginEvent_ev (e : Event) (s : State) : (beginEvent e s).per.ev = some e := rfl
@[simp] theorem beginEvent_ctrl (e : Event) (s : State) : (beginEvent e s).per.ctrl = s.per.ctrl := rfl
@[simp] theorem beginEvent_status (e : Event) (s : State) : (beginEvent e s).per.status = s.per.status := rfl
@[simp] theorem beginEvent_data (e : Event) (s : State) : (beginEvent e s).per.data = s.per.data := rfl
@[simp] theorem beginEvent_bitrate (e : Event) (s : State) : (beginEvent e s).per.bitrate = s.per.bitrate := rfl
@[simp] theorem beginEvent_xmode (e : Event) (s : State) : (beginEvent e s).per.xmode = s.per.xmode := rfl
@[simp] theorem beginEvent_bus (e : Event) (s : State) : (beginEvent e s).per.bus = s.per.bus := rfl
@[simp] theorem beginEvent_sqr (e : Event) (s : State) : (beginEvent e s).sqr = s.sqr := rfl
@[simp] theorem beginEvent_obs (e : Event) (s : State) : (beginEvent e s).obs = s.obs := rfl
@[simp] theorem beginEvent_fault (e : Event) (s : State) : (beginEvent e s).fault = s.fault := rfl
@[simp] theorem beginEvent_env (e : Event) (s : State) : (beginEvent e s).env = s.env := rfl

@[simp] theorem complete_cfg (e : Event) (a : Answer) (s : State) : (complete e a s).cfg = s.cfg := rfl
@[simp] theorem complete_sqr (e : Event) (a : Answer) (s : State) : (complete e a s).sqr = s.sqr := rfl
@[simp] theorem complete_fault (e : Event) (a : Answer) (s : State) : (complete e a s).fault = s.fault := rfl
@[simp] theorem complete_env (e : Event) (a : Answer) (s : State) : (complete e a s).env = afterDraw e s.env := rfl
@[simp] theorem complete_ev (e : Event) (a : Answer) (s : State) : (complete e a s).per.ev = none := rfl
@[simp] theorem complete_ctrl (e : Event) (a : Answer) (s : State) :
    (complete e a s).per.ctrl = { s.per.ctrl with int := true } := rfl
@[simp] theorem complete_status (e : Event) (a : Answer) (s : State) :
    (complete e a s).per.status = { s.per.status with sc := a.sc } := rfl
@[simp] theorem complete_data (e : Event) (a : Answer) (s : State) :
    (complete e a s).per.data = if receives e then a.data else s.per.data := rfl
@[simp] theorem complete_bitrate (e : Event) (a : Answer) (s : State) : (complete e a s).per.bitrate = s.per.bitrate := rfl
@[simp] theorem complete_xmode (e : Event) (a : Answer) (s : State) :
    (complete e a s).per.xmode = modeAfter e s.per.xmode := rfl
@[simp] theorem complete_bus (e : Event) (a : Answer) (s : State) : (complete e a s).per.bus = busAfter e s.per.bus := rfl
@[simp] theorem complete_trace (e : Event) (a : Answer) (s : State) :
    (complete e a s).obs.trace = s.obs.trace ++ [completionEvent e a] := rfl
@[simp] theorem complete_regTrace (e : Event) (a : Answer) (s : State) : (complete e a s).obs.regTrace = s.obs.regTrace := rfl
@[simp] theorem complete_reports (e : Event) (a : Answer) (s : State) : (complete e a s).obs.reports = s.obs.reports := rfl
@[simp] theorem complete_seen (e : Event) (a : Answer) (s : State) : (complete e a s).obs.seen = s.obs.seen := rfl

@[simp] theorem afterDraw_host (e : Event) (v : Env) : (afterDraw e v).host = v.host := rfl
@[simp] theorem afterDraw_sched (e : Event) (v : Env) : (afterDraw e v).sched = v.sched := rfl
@[simp] theorem afterDraw_live (e : Event) (v : Env) : (afterDraw e v).live = v.live := rfl
@[simp] theorem afterDraw_script (e : Event) (v : Env) : (afterDraw e v).script = v.script.tail := rfl
@[simp] theorem afterDraw_mode (e : Event) (v : Env) : (afterDraw e v).mode = v.mode := rfl
@[simp] theorem afterDraw_drawn (e : Event) (v : Env) : (afterDraw e v).drawn = v.drawn + 1 := rfl

@[simp] theorem performStop_cfg (s : State) : (performStop s).cfg = s.cfg := rfl
@[simp] theorem performStop_ctrl (s : State) : (performStop s).per.ctrl = { s.per.ctrl with sto := false } := rfl
@[simp] theorem performStop_status (s : State) :
    (performStop s).per.status = { s.per.status with sc := 0b11111#5 } := rfl
@[simp] theorem performStop_data (s : State) : (performStop s).per.data = s.per.data := rfl
@[simp] theorem performStop_bitrate (s : State) : (performStop s).per.bitrate = s.per.bitrate := rfl
@[simp] theorem performStop_ev (s : State) : (performStop s).per.ev = s.per.ev := rfl
@[simp] theorem performStop_xmode (s : State) : (performStop s).per.xmode = .xidle := rfl
@[simp] theorem performStop_bus (s : State) : (performStop s).per.bus = .free := rfl
@[simp] theorem performStop_sqr (s : State) : (performStop s).sqr = s.sqr := rfl
@[simp] theorem performStop_obs (s : State) : (performStop s).obs = s.obs := rfl
@[simp] theorem performStop_fault (s : State) : (performStop s).fault = s.fault := rfl
@[simp] theorem performStop_env (s : State) : (performStop s).env = s.env := rfl

/-! ### The sequencer -/

@[simp] theorem pop_cfg (ts : List Task) (s : State) : (pop ts s).cfg = s.cfg := rfl
@[simp] theorem pop_per (ts : List Task) (s : State) : (pop ts s).per = s.per := rfl
@[simp] theorem pop_obs (ts : List Task) (s : State) : (pop ts s).obs = s.obs := rfl
@[simp] theorem pop_fault (ts : List Task) (s : State) : (pop ts s).fault = s.fault := rfl
@[simp] theorem pop_env (ts : List Task) (s : State) : (pop ts s).env = s.env := rfl
@[simp] theorem pop_cont (ts : List Task) (s : State) : (pop ts s).sqr.cont = ts := rfl
@[simp] theorem pop_seq (ts : List Task) (s : State) : (pop ts s).sqr.seq = s.sqr.seq := rfl
@[simp] theorem pop_phase (ts : List Task) (s : State) : (pop ts s).sqr.phase = s.sqr.phase := rfl
@[simp] theorem pop_result (ts : List Task) (s : State) : (pop ts s).sqr.result = s.sqr.result := rfl
@[simp] theorem pop_rdata (ts : List Task) (s : State) : (pop ts s).sqr.rdata = s.sqr.rdata := rfl
@[simp] theorem pop_opnd (ts : List Task) (s : State) : (pop ts s).sqr.opnd = s.sqr.opnd := rfl
@[simp] theorem pop_bound (ts : List Task) (s : State) : (pop ts s).sqr.bound = s.sqr.bound := rfl
@[simp] theorem pop_delay (ts : List Task) (s : State) : (pop ts s).sqr.delay = s.sqr.delay := rfl
@[simp] theorem pop_pop (ts us : List Task) (s : State) : pop ts (pop us s) = pop ts s := rfl

@[simp] theorem setIdx_seq (i : Nat) (q : Sequencer) : (setIdx i q).seq = q.seq := rfl
@[simp] theorem setIdx_phase (i : Nat) (q : Sequencer) : (setIdx i q).phase = q.phase := rfl
@[simp] theorem setIdx_result (i : Nat) (q : Sequencer) : (setIdx i q).result = q.result := rfl
@[simp] theorem setIdx_rdata (i : Nat) (q : Sequencer) : (setIdx i q).rdata = q.rdata := rfl
@[simp] theorem setIdx_cont (i : Nat) (q : Sequencer) : (setIdx i q).cont = q.cont := rfl
@[simp] theorem setIdx_bound (i : Nat) (q : Sequencer) : (setIdx i q).bound = q.bound := rfl
@[simp] theorem setIdx_delay (i : Nat) (q : Sequencer) : (setIdx i q).delay = q.delay := rfl

@[simp] theorem setPhase_cfg (p : Phase) (s : State) : (setPhase p s).cfg = s.cfg := rfl
@[simp] theorem setPhase_per (p : Phase) (s : State) : (setPhase p s).per = s.per := rfl
@[simp] theorem setPhase_obs (p : Phase) (s : State) : (setPhase p s).obs = s.obs := rfl
@[simp] theorem setPhase_fault (p : Phase) (s : State) : (setPhase p s).fault = s.fault := rfl
@[simp] theorem setPhase_env (p : Phase) (s : State) : (setPhase p s).env = s.env := rfl
@[simp] theorem setPhase_phase (p : Phase) (s : State) : (setPhase p s).sqr.phase = p := rfl
@[simp] theorem setPhase_cont (p : Phase) (s : State) : (setPhase p s).sqr.cont = s.sqr.cont := rfl
@[simp] theorem setPhase_bound (p : Phase) (s : State) : (setPhase p s).sqr.bound = s.sqr.bound := rfl
@[simp] theorem setPhase_seq (p : Phase) (s : State) : (setPhase p s).sqr.seq = s.sqr.seq := rfl
@[simp] theorem setPhase_delay (p : Phase) (s : State) : (setPhase p s).sqr.delay = s.sqr.delay := rfl

@[simp] theorem finish_cfg (s : State) : (finish s).cfg = s.cfg := rfl
@[simp] theorem finish_per (s : State) : (finish s).per = s.per := rfl
@[simp] theorem finish_fault (s : State) : (finish s).fault = s.fault := rfl
@[simp] theorem finish_env (s : State) : (finish s).env = s.env := rfl
@[simp] theorem finish_seq (s : State) : (finish s).sqr.seq = .ready := rfl
@[simp] theorem finish_phase (s : State) : (finish s).sqr.phase = s.sqr.phase := rfl
@[simp] theorem finish_result (s : State) : (finish s).sqr.result = some s.sqr.bound.res := rfl
@[simp] theorem finish_rdata (s : State) : (finish s).sqr.rdata = s.sqr.bound.out.getD s.sqr.rdata := rfl
@[simp] theorem finish_opnd (s : State) : (finish s).sqr.opnd = s.sqr.opnd := rfl
@[simp] theorem finish_cont (s : State) : (finish s).sqr.cont = [] := rfl
@[simp] theorem finish_bound (s : State) : (finish s).sqr.bound = Bound.empty := rfl
@[simp] theorem finish_delay (s : State) : (finish s).sqr.delay = s.sqr.delay := rfl
@[simp] theorem finish_trace (s : State) : (finish s).obs.trace = s.obs.trace := rfl
@[simp] theorem finish_regTrace (s : State) : (finish s).obs.regTrace = s.obs.regTrace := rfl

end Sys2Proof.Machine
end

