-- ==== Sys2Proof/Laws/Run.lean ====
section
/-! SUPPORT. Runs compose, and one step of the machine under the default schedule on a live bus: one lemma per agent and per item at the
head of the continuation. -/

namespace Sys2Proof.Machine

theorem Reaches.refl (s : State) : Reaches s s := ⟨0, rfl⟩

theorem Reaches.step_then {s t u : State} (h : step s = .next t) (r : Reaches t u) : Reaches s u := by
  obtain ⟨k, hk⟩ := r
  refine ⟨k + 1, ?_⟩
  have h' : Sys2Proof.core.step s = .next t := h
  simp only [Host.Core.run, h', hk]

theorem Reaches.of_step {s t : State} (h : step s = .next t) : Reaches s t :=
  .step_then h (.refl t)

theorem Reaches.trans {s t u : State} (h : Reaches s t) (r : Reaches t u) : Reaches s u := by
  obtain ⟨k, hk⟩ := h
  induction k generalizing s with
  | zero => cases hk; exact r
  | succ k ih =>
    simp only [Host.Core.run] at hk
    split at hk
    · rename_i s' hs; exact .step_then hs (ih hk)
    · cases hk
    · cases hk

/-- A running machine under the default schedule on a live bus, with nothing in the peripheral's way of the sequencer. -/
structure Running (s : State) : Prop where
  legal     : legalCfg s.cfg = true
  faultless : s.fault = none
  live      : s.env.live = true
  default   : s.env.sched = []
  busy      : s.sqr.seq = .busy
  evNone    : s.per.ev = none
  noStop    : s.per.ctrl.sto = false
  noDelay   : s.sqr.delay = none

theorem step_eq_agentStep {s : State} (hl : legalCfg s.cfg = true) (hf : s.fault = none) (hs : s.env.sched = []) :
    step s = agentStep (defaultAgent s) s := by
  simp [step, stepOnce, unlessFaulted, hf, hl, nextAgent, hs]

theorem Running.step_eq {s : State} (r : Running s) : step s = sequencerStep s := by
  rw [step_eq_agentStep r.legal r.faultless r.default]
  simp [defaultAgent, r.evNone, r.noStop, r.noDelay, r.busy, agentStep]

/-- While the head item does not hold, a running machine's step runs it. -/
theorem Running.step_head {s : State} (r : Running s) {t : Task} {ts : List Task} (h : pending s = t :: ts)
    (hh : holds s t.op = false) : step s = runOp t.op ts s := by
  rw [r.step_eq]
  simp [sequencerStep, r.busy, r.noDelay, h, hh]

theorem Running.step_finish {s : State} (r : Running s) (h : pending s = []) : step s = .next (finish s) := by
  rw [r.step_eq]
  simp [sequencerStep, r.busy, r.noDelay, h]

/-- On a live bus an event in flight completes next. -/
theorem step_completes {s : State} (hl : legalCfg s.cfg = true) (hf : s.fault = none) (hv : s.env.live = true)
    (hs : s.env.sched = []) {e : Event} (he : s.per.ev = some e) (ht : s.per.ctrl.sto = false) :
    step s = .next (complete e (draw s e) s) := by
  rw [step_eq_agentStep hl hf hs]
  simp [defaultAgent, hv, he, ht, agentStep, peripheralStep]

/-- On a live bus a pending stop is performed next. -/
theorem step_performs_stop {s : State} (hl : legalCfg s.cfg = true) (hf : s.fault = none) (hv : s.env.live = true)
    (hs : s.env.sched = []) (ht : s.per.ctrl.sto = true) : step s = .next (performStop s) := by
  rw [step_eq_agentStep hl hf hs]
  simp [defaultAgent, hv, ht, agentStep, peripheralStep]

theorem step_ends_delay {s : State} (hl : legalCfg s.cfg = true) (hf : s.fault = none) (hs : s.env.sched = [])
    (he : s.per.ev = none) (ht : s.per.ctrl.sto = false) {t : Nat} (hd : s.sqr.delay = some t) :
    step s = .next (delayUnitStep s) := by
  rw [step_eq_agentStep hl hf hs]
  simp [defaultAgent, he, ht, hd, agentStep]

theorem pending_ok {s : State} (h : s.sqr.bound.res = .ok) : pending s = s.sqr.cont := by
  simp [pending, h]

theorem pending_err {s : State} (h : s.sqr.bound.res = .err) : pending s = unwind s.cfg s.sqr.cont := by
  simp [pending, h]

@[simp] theorem unwind_nil (cfg : Cfg) : unwind cfg [] = [] := rfl

@[simp] theorem unwind_onOk (cfg : Cfg) (op : Op) (ts : List Task) : unwind cfg (onOk op :: ts) = unwind cfg ts := rfl

@[simp] theorem unwind_always (cfg : Cfg) (op : Op) (ts : List Task) :
    unwind cfg (always op :: ts) = always op :: ts := rfl

end Sys2Proof.Machine
end

