-- ==== Sys2Proof/Laws/Bodies.lean ====
section
/-! SUPPORT. Each body's items, run by the machine on a live bus, do what its pseudocode does: one lemma per primitive and per body. -/

namespace Sys2Proof.Machine

/-- A state with a bound result. -/
def withRes (r : Res) (s : State) : State :=
  { s with sqr := { s.sqr with bound := { s.sqr.bound with res := r } } }

theorem withRes_self {s : State} {r : Res} (h : s.sqr.bound.res = r) : withRes r s = s := by
  subst h; rfl

theorem Running.pop {s : State} (r : Running s) (ts : List Task) : Running (pop ts s) :=
  ⟨r.legal, r.faultless, r.live, r.default, r.busy, r.evNone, r.noStop, r.noDelay⟩

/-- The items `body`, in front of any `rest`, take a running machine from `s` to what the pseudocode's answer `x` says: on OK `rest` is
left, on ERR what `rest` unwinds to. -/
def Does (body : List Task) (s : State) (x : Ran) : Prop :=
  ∀ rest, ∃ c, Reaches (pop (body ++ rest) s) (pop c (withRes x.2 x.1)) ∧ Running x.1 ∧ x.1.sqr.bound.res = .ok
    ∧ x.1.cfg = s.cfg ∧ (x.2 = .ok → c = rest) ∧ (x.2 = .err → unwind s.cfg c = unwind s.cfg rest)

/-- Items that "if r = ERR: return ERR" drops. -/
def Droppable (body : List Task) : Prop :=
  ∀ cfg rest, unwind cfg (body ++ rest) = unwind cfg rest

theorem Droppable.nil : Droppable [] := fun _ _ => rfl

theorem Droppable.cons {op : Op} {ts : List Task} (h : Droppable ts) : Droppable (onOk op :: ts) :=
  fun cfg rest => h cfg rest

/-- One step that leaves OK. -/
theorem Does.of_reaches {body : List Task} {s t : State} (ht : Running t) (hr : t.sqr.bound.res = .ok) (hc : t.cfg = s.cfg)
    (h : ∀ rest, Reaches (pop (body ++ rest) s) (pop rest t)) : Does body s (t, .ok) := by
  intro rest
  refine ⟨rest, ?_, ht, hr, hc, fun _ => rfl, fun h => by cases h⟩
  rw [withRes_self (s := (t, Res.ok).1) hr]
  exact h rest

/-- Bodies in sequence. -/
theorem Does.andThen {b₁ b₂ : List Task} {s : State} {x : Ran} {f : State → Ran} (h₁ : Does b₁ s x)
    (h₂ : x.2 = .ok → Does b₂ x.1 (f x.1)) (hd : Droppable b₂) : Does (b₁ ++ b₂) s (Machine.andThen x f) := by
  intro rest
  obtain ⟨c, hr, hx, hres, hcfg, hok, herr⟩ := h₁ (b₂ ++ rest)
  obtain ⟨t, r⟩ := x
  cases r with
  | ok =>
    obtain ⟨c', hr', hx', hres', hcfg', hok', herr'⟩ := h₂ rfl rest
    refine ⟨c', ?_, hx', hres', hcfg'.trans hcfg, hok', ?_⟩
    · rw [List.append_assoc]
      refine hr.trans ?_
      rw [hok rfl, withRes_self hres]
      exact hr'
    · intro he
      have := herr' he
      rw [show t.cfg = s.cfg from hcfg] at this
      exact this
  | err =>
    refine ⟨c, ?_, hx, hres, hcfg, fun h => absurd h (by simp [Machine.andThen]), fun _ => ?_⟩
    · rw [List.append_assoc]; exact hr
    · rw [herr rfl, hd]

/-! ### Primitives -/

theorem step_item {s : State} (r : Running s) (hr : s.sqr.bound.res = .ok) (op : Op) (ts : List Task)
    (hh : holds s op = false) : step (pop (onOk op :: ts) s) = runOp op ts (pop (onOk op :: ts) s) :=
  (r.pop _).step_head (t := onOk op) (ts := ts) (pending_ok hr) (by cases op <;> exact hh)

theorem does_writeReg {s : State} (r : Running s) (hr : s.sqr.bound.res = .ok) (reg : Reg) (hreg : reg ≠ .ctrl) (v : Byte) :
    Does [onOk (.write reg v)] s (logReg (.w reg v) { s with per := writeReg reg v s.per }, .ok) := by
  have hrun : Running (logReg (.w reg v) { s with per := writeReg reg v s.per }) := by
    refine ⟨r.legal, r.faultless, r.live, r.default, r.busy, ?_, ?_, r.noDelay⟩
    · cases reg <;> simp [r.evNone]
    · cases reg <;> simp_all [r.noStop]
  refine .of_reaches hrun hr rfl fun rest => .of_step ?_
  rw [List.singleton_append, step_item r hr (.write reg v) rest (by cases reg <;> simp_all [holds])]
  simp [runOp, hreg]; rfl

/-- A trigger, its event's completion and the wait for it. -/
theorem reaches_eventP {s : State} (r : Running s) (hr : s.sqr.bound.res = .ok) {v : Byte} {e : Event}
    (hv : v.getLsbD 7 = true) (hsto : v.getLsbD 4 = false)
    (hx : ∀ ts, exec (decodeTrigger v s.per.xmode) (pop ts s)
      = .next (beginEvent e { pop ts s with per := writeCtrlFields v s.per })) (ts : List Task) :
    Reaches (pop (onOk (.write .ctrl v) :: onOk .wait :: ts) s) (pop ts (eventP v e s)) := by
  have h1 : step (pop (onOk (.write .ctrl v) :: onOk .wait :: ts) s)
      = .next (logReg (.w .ctrl v) (pop (onOk .wait :: ts) (beginEvent e { s with per := writeCtrlFields v s.per }))) := by
    rw [step_item r hr (.write .ctrl v) _ (by simp [holds, r.noStop])]
    simp only [runOp, hv, and_self, if_true, pop_per]
    rw [hx]
    simp [afterTrigger, r.faultless]
    rfl
  refine .step_then h1 (.step_then (step_completes (e := e) ?_ ?_ ?_ ?_ rfl ?_) (.of_step ?_))
  · exact r.legal
  · exact r.faultless
  · exact r.live
  · exact r.default
  · simpa using hsto
  · have hrun : Running (complete e (draw (logReg (.w .ctrl v) (pop (onOk .wait :: ts)
        (beginEvent e { s with per := writeCtrlFields v s.per }))) e) (logReg (.w .ctrl v) (pop (onOk .wait :: ts)
        (beginEvent e { s with per := writeCtrlFields v s.per })))) :=
      ⟨r.legal, r.faultless, r.live, r.default, r.busy, rfl, by simpa using hsto, r.noDelay⟩
    rw [hrun.step_head (t := onOk .wait) (ts := ts) (pending_ok hr) ?_]
    · rfl
    · rfl

theorem running_eventP {s : State} (r : Running s) {v : Byte} {e : Event} (hsto : v.getLsbD 4 = false) :
    Running (eventP v e s) :=
  ⟨r.legal, r.faultless, r.live, r.default, r.busy, rfl, by simpa [eventP] using hsto, r.noDelay⟩

theorem does_eventP {s : State} (r : Running s) (hr : s.sqr.bound.res = .ok) {v : Byte} {e : Event}
    (hv : v.getLsbD 7 = true) (hsto : v.getLsbD 4 = false)
    (hx : ∀ ts, exec (decodeTrigger v s.per.xmode) (pop ts s)
      = .next (beginEvent e { pop ts s with per := writeCtrlFields v s.per })) :
    Does [onOk (.write .ctrl v), onOk .wait] s (eventP v e s, .ok) :=
  .of_reaches (running_eventP r hsto) hr rfl (reaches_eventP r hr hv hsto hx)

theorem checkStatus_pass {st : Stage} {s : State} (h : expected st (statusCode (readReg .status s)) = true) :
    checkStatus st s = setPhase (phaseAfter st s.sqr.phase) (logReg (.r .status (readReg .status s)) s) := by
  simp only [checkStatus, h, if_true]; rfl

theorem checkStatus_fail {st : Stage} {s : State} (h : expected st (statusCode (readReg .status s)) = false) :
    checkStatus st s = withRes .err (setPhase .failed (logReg (.r .status (readReg .status s)) s)) := by
  simp only [checkStatus, h, Bool.false_eq_true, if_false]; rfl

theorem checkP_pass {st : Stage} {s : State} (h : expected st (statusCode (readReg .status s)) = true) :
    checkP st (statusP s) = (setPhase (phaseAfter st s.sqr.phase) (logReg (.r .status (readReg .status s)) s), .ok) := by
  simp only [checkP, statusP, h, if_true]; rfl

theorem checkP_fail {st : Stage} {s : State} (h : expected st (statusCode (readReg .status s)) = false) :
    checkP st (statusP s) = (setPhase .failed (logReg (.r .status (readReg .status s)) s), .err) := by
  simp only [checkP, statusP, h, Bool.false_eq_true, if_false]

theorem does_check {s : State} (r : Running s) (hr : s.sqr.bound.res = .ok) (st : Stage) :
    Does [onOk (.check st)] s (checkP st (statusP s)) := by
  intro rest
  refine ⟨rest, .of_step ?_, ?_, ?_, ?_, fun _ => rfl, fun _ => rfl⟩
  · rw [List.singleton_append, step_item r hr (.check st) rest rfl]
    simp only [runOp]
    rcases Bool.eq_false_or_eq_true (expected st (statusCode (readReg .status s))) with h | h
    · rw [checkStatus_pass (s := pop rest (pop (onOk (.check st) :: rest) s)) h, checkP_pass h, withRes_self (by exact hr)]
      rfl
    · rw [checkStatus_fail (s := pop rest (pop (onOk (.check st) :: rest) s)) h, checkP_fail h]
      rfl
  · unfold checkP statusP; split <;> exact ⟨r.legal, r.faultless, r.live, r.default, r.busy, r.evNone, r.noStop, r.noDelay⟩
  · unfold checkP statusP; split <;> exact hr
  · unfold checkP statusP; split <;> rfl

theorem does_take {s : State} (r : Running s) (hr : s.sqr.bound.res = .ok) :
    Does [onOk .take] s (takeData s, .ok) := by
  refine .of_reaches ⟨r.legal, r.faultless, r.live, r.default, r.busy, r.evNone, r.noStop, r.noDelay⟩ hr rfl fun rest => .of_step ?_
  rw [List.singleton_append, step_item r hr .take rest rfl]
  rfl

theorem does_setPhase {s : State} (r : Running s) (hr : s.sqr.bound.res = .ok) (p : Phase) :
    Does [onOk (.setPhase p)] s (setPhase p s, .ok) := by
  refine .of_reaches ⟨r.legal, r.faultless, r.live, r.default, r.busy, r.evNone, r.noStop, r.noDelay⟩ hr rfl fun rest => .of_step ?_
  rw [List.singleton_append, step_item r hr (.setPhase p) rest rfl]
  rfl

theorem does_delay {s : State} (r : Running s) (hr : s.sqr.bound.res = .ok) (t : Nat) :
    Does [onOk (.delay t)] s (logDelay t s, .ok) := by
  refine .of_reaches ⟨r.legal, r.faultless, r.live, r.default, r.busy, r.evNone, r.noStop, r.noDelay⟩ hr rfl fun rest => ?_
  have h1 : step (pop ([onOk (.delay t)] ++ rest) s) = .next (beginDelay t (pop rest s)) := by
    rw [List.singleton_append, step_item r hr (.delay t) rest rfl]
    rfl
  refine .step_then h1 (.of_step ?_)
  rw [step_ends_delay (s := beginDelay t (pop rest s)) (t := t) r.legal r.faultless r.default r.evNone r.noStop rfl]
  have := r.noDelay
  obtain ⟨cfg, per, ⟨seq, ph, res, rd, op, ct, bd, dl⟩, obs, f, env⟩ := s
  simp only at this
  subst this
  rfl

/-! ### What a trigger does where the sequencer stands -/

theorem trigger_begins {s : State} (hf : s.fault = none) (he : s.per.ev = none) (ht : s.per.ctrl.sto = false) (v : Byte)
    (f : State → State) : trigger v true f s = .next (f { s with per := writeCtrlFields v s.per }) := by
  simp [trigger, unlessFaulted, hf, he, ht]

theorem decodeTrigger_start (m : XMode) : decodeTrigger 0xA4#8 m = .start := by cases m <;> rfl
theorem decodeTrigger_stop (m : XMode) : decodeTrigger 0x94#8 m = .stop := by cases m <;> rfl

theorem exec_start_of_running {s : State} (r : Running s) (ts : List Task) :
    exec (decodeTrigger 0xA4#8 s.per.xmode) (pop ts s)
      = .next (beginEvent .start { pop ts s with per := writeCtrlFields 0xA4#8 s.per }) := by
  rw [decodeTrigger_start]
  exact trigger_begins (s := pop ts s) r.faultless r.evNone r.noStop _ _

theorem exec_sendAddr_of_running {s : State} (r : Running s) (hm : s.per.xmode = .xaddr) {b : Byte} (hb : s.per.data = b)
    (ts : List Task) : exec (decodeTrigger 0x84#8 s.per.xmode) (pop ts s)
      = .next (beginEvent (.sendAddr b) { pop ts s with per := writeCtrlFields 0x84#8 s.per }) := by
  subst hb
  rw [hm]
  show trigger 0x84#8 ((pop ts s).per.xmode == .xaddr) _ _ = _
  rw [show ((pop ts s).per.xmode == XMode.xaddr) = true by simp [hm]]
  exact trigger_begins (s := pop ts s) r.faultless r.evNone r.noStop _ _

theorem exec_sendData_of_running {s : State} (r : Running s) (hm : s.per.xmode = .xmt) {b : Byte} (hb : s.per.data = b)
    (ts : List Task) : exec (decodeTrigger 0x84#8 s.per.xmode) (pop ts s)
      = .next (beginEvent (.sendData b) { pop ts s with per := writeCtrlFields 0x84#8 s.per }) := by
  subst hb
  rw [hm]
  show trigger 0x84#8 ((pop ts s).per.xmode == .xmt) _ _ = _
  rw [show ((pop ts s).per.xmode == XMode.xmt) = true by simp [hm]]
  exact trigger_begins (s := pop ts s) r.faultless r.evNone r.noStop _ _

theorem exec_recvAck_of_running {s : State} (r : Running s) (hm : s.per.xmode = .xmr) (ts : List Task) :
    exec (decodeTrigger 0xC4#8 s.per.xmode) (pop ts s)
      = .next (beginEvent .recvAck { pop ts s with per := writeCtrlFields 0xC4#8 s.per }) := by
  rw [hm]
  show trigger 0xC4#8 ((pop ts s).per.xmode == .xmr) _ _ = _
  rw [show ((pop ts s).per.xmode == XMode.xmr) = true by simp [hm]]
  exact trigger_begins (s := pop ts s) r.faultless r.evNone r.noStop _ _

theorem exec_recvNack_of_running {s : State} (r : Running s) (hm : s.per.xmode = .xmr) (ts : List Task) :
    exec (decodeTrigger 0x84#8 s.per.xmode) (pop ts s)
      = .next (beginEvent .recvNack { pop ts s with per := writeCtrlFields 0x84#8 s.per }) := by
  rw [hm]
  show trigger 0x84#8 ((pop ts s).per.xmode == .xmr) _ _ = _
  rw [show ((pop ts s).per.xmode == XMode.xmr) = true by simp [hm]]
  exact trigger_begins (s := pop ts s) r.faultless r.evNone r.noStop _ _

/-! ### Where a primitive leaves the peripheral -/

@[simp] theorem checkP_per (st : Stage) (s : State) : (checkP st (statusP s)).1.per = s.per := by
  unfold checkP statusP; split <;> rfl

@[simp] theorem checkP_cfg (st : Stage) (s : State) : (checkP st (statusP s)).1.cfg = s.cfg := by
  unfold checkP statusP; split <;> rfl

@[simp] theorem eventP_xmode (v : Byte) (e : Event) (s : State) : (eventP v e s).per.xmode = modeAfter e s.per.xmode := rfl
@[simp] theorem eventP_int (v : Byte) (e : Event) (s : State) : (eventP v e s).per.ctrl.int = true := rfl

/-- Where a start leaves the peripheral, whatever its status. -/
theorem startP_leaves (s : State) : (startP s).1.per.xmode = .xaddr ∧ (startP s).1.per.ctrl.int = true := by
  simp [startP, modeAfter]

/-- Where a send leaves the peripheral, whatever its status. -/
theorem sendP_leaves (b : Byte) (e : Event) (st : Stage) (s : State) :
    (sendP b e st s).1.per.xmode = modeAfter e s.per.xmode ∧ (sendP b e st s).1.per.ctrl.int = true := by
  simp [sendP]

/-! ### Sends and receives -/

/-- The two sends: an address byte in XADDR, a data byte in XMT. -/
def SendsAs (b : Byte) (e : Event) (m : XMode) : Prop :=
  (m = .xaddr ∧ e = .sendAddr b) ∨ (m = .xmt ∧ e = .sendData b)

theorem does_send {s : State} (r : Running s) (hr : s.sqr.bound.res = .ok) (hi : s.per.ctrl.int = true) {b : Byte} {e : Event}
    (hm : SendsAs b e s.per.xmode) (st : Stage) : Does (sendTasks b st) s (sendP b e st s) := by
  have h1 := does_writeReg r hr .data (by decide) b
  have hd : (logReg (.w .data b) { s with per := writeReg .data b s.per }).per.data = b := by
    simp [writeData_taken hi]
  have r1 : Running (logReg (.w .data b) { s with per := writeReg .data b s.per }) :=
    ⟨r.legal, r.faultless, r.live, r.default, r.busy, by simp [r.evNone], by simp [r.noStop], r.noDelay⟩
  have h2 : Does [onOk (.write .ctrl 0x84#8), onOk .wait] (logReg (.w .data b) { s with per := writeReg .data b s.per })
      (eventP 0x84#8 e (logReg (.w .data b) { s with per := writeReg .data b s.per }), .ok) := by
    refine does_eventP r1 hr (by decide) (by decide) fun ts => ?_
    rcases hm with ⟨hm, rfl⟩ | ⟨hm, rfl⟩
    · exact exec_sendAddr_of_running r1 (by simpa using hm) hd ts
    · exact exec_sendData_of_running r1 (by simpa using hm) hd ts
  have h3 := does_check (running_eventP (v := 0x84#8) (e := e) r1 (by decide)) hr st
  exact h1.andThen (f := fun s => checkP st (statusP (eventP 0x84#8 e s)))
    (b₂ := [onOk (.write .ctrl 0x84#8), onOk .wait, onOk (.check st)])
    (fun _ => h2.andThen (f := fun s => checkP st (statusP s)) (fun _ => h3) (.cons .nil)) (.cons (.cons (.cons .nil)))

theorem does_start {s : State} (r : Running s) (hr : s.sqr.bound.res = .ok) : Does startTasks s (startP s) :=
  (does_eventP r hr (by decide) (by decide) (exec_start_of_running r)).andThen (f := fun s => checkP .start (statusP s))
    (fun _ => does_check (running_eventP r (by decide)) hr .start) (.cons .nil)

theorem does_recvAck {s : State} (r : Running s) (hr : s.sqr.bound.res = .ok) (hm : s.per.xmode = .xmr) :
    Does recvAckTasks s (recvAckP s, .ok) :=
  (does_eventP r hr (by decide) (by decide) (exec_recvAck_of_running r hm)).andThen (f := fun s => (takeData s, .ok))
    (fun _ => does_take (running_eventP r (by decide)) hr) (.cons .nil)

theorem does_recvNack {s : State} (r : Running s) (hr : s.sqr.bound.res = .ok) (hm : s.per.xmode = .xmr) :
    Does recvNackTasks s (recvNackP s, .ok) :=
  (does_eventP r hr (by decide) (by decide) (exec_recvNack_of_running r hm)).andThen (f := fun s => (takeData s, .ok))
    (fun _ => does_take (running_eventP r (by decide)) hr) (.cons .nil)

/-! ### Calls and loops -/

theorem unlessFaulted_none {s : State} (h : s.fault = none) (k : Answered) : unlessFaulted s k = k := by
  unfold unlessFaulted; rw [h]

theorem afterCall_next {s t : State} (h : t.fault = none) : afterCall s (.next t) = .next t := by
  simp [afterCall, h]

/-- A call of a lower layer's instruction does what its body does. -/
theorem does_run {s : State} (r : Running s) (hr : s.sqr.bound.res = .ok) {i : Instr} {body : List Task} {x : Ran}
    (hx : ∀ ts, exec i (pop ts s) = expand body (pop ts s)) (h : Does body s x) : Does [onOk (.run i)] s x := by
  intro rest
  obtain ⟨c, hc, hp⟩ := h rest
  refine ⟨c, .step_then ?_ hc, hp⟩
  rw [List.singleton_append, step_item r hr (.run i) rest rfl]
  show afterCall _ (exec i (Machine.pop rest s)) = _
  rw [hx, show expand body (Machine.pop rest s) = .next (Machine.pop (body ++ rest) s) from
    unlessFaulted_none (s := Machine.pop rest s) r.faultless _]
  exact afterCall_next r.faultless

/-- The loop head's step. -/
theorem step_iterate {s : State} (r : Running s) (hr : s.sqr.bound.res = .ok) {op : Op} {i : Nat} {body : List Task}
    (hh : holds s op = false) (hx : ∀ rest s, runOp op rest s = .next (iterate i body rest s)) (rest : List Task) :
    step (pop (onOk op :: rest) s) = .next (pop (body ++ rest) (indexP i s)) := by
  rw [step_item r hr op rest hh, hx]
  rfl

theorem Running.indexP {s : State} (r : Running s) (i : Nat) : Running (indexP i s) :=
  ⟨r.legal, r.faultless, r.live, r.default, r.busy, r.evNone, r.noStop, r.noDelay⟩

theorem does_iterate {s : State} (r : Running s) (hr : s.sqr.bound.res = .ok) {op : Op} {i : Nat} {body : List Task} {x : Ran}
    (hh : holds s op = false) (hx : ∀ rest s, runOp op rest s = .next (iterate i body rest s))
    (h : Does body (Machine.indexP i s) x) : Does [onOk op] s x := by
  intro rest
  obtain ⟨c, hc, hp⟩ := h rest
  exact ⟨c, .step_then (step_iterate r hr hh hx rest) hc, hp⟩

/-- An item that does nothing but end. -/
theorem does_nothing {s : State} (r : Running s) (hr : s.sqr.bound.res = .ok) {op : Op} (hh : holds s op = false)
    (hx : ∀ rest s, runOp op rest s = .next (pop rest s)) : Does [onOk op] s (s, .ok) :=
  .of_reaches r hr rfl fun rest => .of_step (by rw [List.singleton_append, step_item r hr op rest hh, hx]; rfl)

theorem does_addressByte {s : State} (r : Running s) (hr : s.sqr.bound.res = .ok) (hi : s.per.ctrl.int = true)
    (hm : s.per.xmode = .xaddr) (addr : Addr7) (dir : Dir) :
    Does [onOk (.run (.addressByte addr dir))] s
      (sendP (addressByte addr dir) (.sendAddr (addressByte addr dir)) (.addr dir) s) :=
  does_run r hr (fun _ => rfl) (does_send r hr hi (.inl ⟨hm, rfl⟩) (.addr dir))

theorem addressByte_eta (ab : Byte) : addressByte (addrOf ab) (dirOf ab) = ab := by
  revert ab; decide

/-- What a check or a body leaves to the next one. -/
theorem Does.running {body : List Task} {s : State} {x : Ran} (h : Does body s x) : Running x.1 ∧ x.1.sqr.bound.res = .ok := by
  obtain ⟨_, _, h1, h2, _⟩ := h []
  exact ⟨h1, h2⟩

theorem Does.cfg_eq {body : List Task} {s : State} {x : Ran} (h : Does body s x) : x.1.cfg = s.cfg := by
  obtain ⟨_, _, _, _, h3, _⟩ := h []
  exact h3

theorem does_begin {s : State} (r : Running s) (hr : s.sqr.bound.res = .ok) (ab : Byte) : Does (beginBody ab) s (beginP ab s) := by
  have h := does_start r hr
  refine h.andThen (fun _ => ?_) (.cons .nil)
  have := does_addressByte h.running.1 h.running.2 (startP_leaves s).2 (startP_leaves s).1 (addrOf ab) (dirOf ab)
  rwa [addressByte_eta] at this

theorem beginP_leaves {ab : Byte} {s : State} (h : (beginP ab s).2 = .ok) :
    (beginP ab s).1.per.xmode = (if ab.getLsbD 0 then .xmr else .xmt) ∧ (beginP ab s).1.per.ctrl.int = true := by
  unfold beginP at *
  rcases hs : (startP s).2 with _ | _
  · rw [show andThen (startP s) (sendP ab (.sendAddr ab) (.addr (dirOf ab)))
        = sendP ab (.sendAddr ab) (.addr (dirOf ab)) (startP s).1 by simp [andThen, hs]]
    have := sendP_leaves ab (.sendAddr ab) (.addr (dirOf ab)) (startP s).1
    rw [(startP_leaves s).1] at this
    exact this
  · simp [andThen, hs] at h

theorem does_writeByte {s : State} (r : Running s) (hr : s.sqr.bound.res = .ok) (hi : s.per.ctrl.int = true)
    (hm : s.per.xmode = .xmt) (b : Byte) : Does (writeByteBody b) s (writeByteP b s) :=
  does_send r hr hi (.inr ⟨hm, rfl⟩) .data

theorem does_writeBytes (buf : List Byte) : ∀ (i : Nat) {s : State}, Running s → s.sqr.bound.res = .ok →
    s.per.ctrl.int = true → s.per.xmode = .xmt → Does [onOk (.writeBytes i buf)] s (writeBytesP i buf s) := by
  induction buf with
  | nil => intro i s r hr _ _; exact does_nothing r hr rfl (fun _ _ => rfl)
  | cons b bs ih =>
    intro i s r hr hi hm
    refine does_iterate r hr rfl (fun _ _ => rfl) ?_
    have h := does_writeByte (s := indexP i s) (r.indexP i) hr hi hm b
    refine h.andThen (fun _ => ?_) (.cons .nil)
    have hl := sendP_leaves b (.sendData b) .data (indexP i s)
    exact ih (i + 1) h.running.1 h.running.2 hl.2 (hl.1.trans hm)

theorem does_readBytes (k : Nat) : ∀ (i : Nat) {s : State}, Running s → s.sqr.bound.res = .ok → s.per.xmode = .xmr →
    Does [onOk (.readBytes i k)] s (readBytesP i k s, .ok) := by
  induction k with
  | zero =>
    intro i s r hr hm
    refine does_iterate r hr rfl (fun _ _ => rfl) ?_
    have h := does_recvNack (s := indexP i s) (r.indexP i) hr hm
    exact h.andThen (f := fun s => (setPhase .readDone s, .ok)) (fun _ => does_setPhase h.running.1 h.running.2 _) (.cons .nil)
  | succ k ih =>
    intro i s r hr hm
    refine does_iterate r hr rfl (fun _ _ => rfl) ?_
    have h := does_recvAck (s := indexP i s) (r.indexP i) hr hm
    exact h.andThen (f := fun s => (readBytesP (i + 1) k s, .ok)) (fun _ => ih (i + 1) h.running.1 h.running.2 hm) (.cons .nil)

/-! ### Transactions -/

theorem endBody_unwinds (cfg : Cfg) (rest : List Task) : unwind cfg (endBody ++ rest) = endBody ++ rest := rfl

/-- END_body runs whichever way the transaction went. -/
theorem reaches_end {s : State} (r : Running s) (res : Res) {c rest : List Task}
    (hc : (res = .ok → c = endBody ++ rest) ∧ (res = .err → unwind s.cfg c = endBody ++ rest)) :
    Reaches (pop c (withRes res s)) (pop rest (withRes res (endP s))) := by
  have hp : pending (pop c (withRes res s)) = endBody ++ rest := by
    cases res with
    | ok => rw [pending_ok rfl]; exact hc.1 rfl
    | err => rw [pending_err rfl]; exact hc.2 rfl
  have r0 : Running (pop c (withRes res s)) :=
    ⟨r.legal, r.faultless, r.live, r.default, r.busy, r.evNone, r.noStop, r.noDelay⟩
  have h1 : step (pop c (withRes res s)) = .next (pop (always (.setPhase .idle) :: rest) (withRes res
      (logReg (.w .ctrl 0x94#8) (logBus .stop { s with per := writeCtrlFields 0x94#8 s.per })))) := by
    rw [r0.step_head (t := always (.write .ctrl 0x94#8)) (ts := always (.setPhase .idle) :: rest) hp
      (by simp [always, holds, withRes, r.noStop])]
    show afterTrigger _ _ (exec (decodeTrigger 0x94#8 s.per.xmode) _) = _
    rw [decodeTrigger_stop]
    show afterTrigger _ _ (trigger _ true _ _) = _
    rw [trigger_begins r0.faultless r0.evNone r0.noStop]
    simp [afterTrigger, withRes, r.faultless]
    rfl
  refine .step_then h1 (.step_then (step_performs_stop r.legal r.faultless r.live r.default rfl) (.of_step ?_))
  have r2 : Running (performStop (pop (always (.setPhase .idle) :: rest) (withRes res
      (logReg (.w .ctrl 0x94#8) (logBus .stop { s with per := writeCtrlFields 0x94#8 s.per }))))) :=
    ⟨r.legal, r.faultless, r.live, r.default, r.busy, r.evNone, rfl, r.noDelay⟩
  rw [r2.step_head (t := always (.setPhase .idle)) (ts := rest) (by cases res <;> rfl) rfl]
  rfl

theorem Running.endP {s : State} (r : Running s) : Running (endP s) :=
  ⟨r.legal, r.faultless, r.live, r.default, r.busy, r.evNone, rfl, r.noDelay⟩

theorem does_end {s : State} (r : Running s) (hr : s.sqr.bound.res = .ok) : Does endBody s (endP s, .ok) :=
  .of_reaches r.endP hr rfl fun rest => by
    have := reaches_end r .ok (c := endBody ++ rest) (rest := rest) ⟨fun _ => rfl, fun h => by cases h⟩
    rwa [withRes_self hr, withRes_self (s := Machine.endP s) hr] at this

theorem getLsbD_zero_writeAddress (a : Byte) : (writeAddress a).getLsbD 0 = false := by
  revert a; decide

theorem getLsbD_zero_addressByte (a : Addr7) : (addressByte a .w).getLsbD 0 = false := by
  revert a; decide

theorem does_transmit {s : State} (r : Running s) (hr : s.sqr.bound.res = .ok) {ab : Byte} (hab : ab.getLsbD 0 = false)
    (buf : List Byte) : Does (transmitBody ab buf) s (transmitP ab buf s) := by
  have h : Does (beginBody ab ++ writeBytesBody buf) s (andThen (beginP ab s) (writeBytesP 0 buf)) := by
    have hb := does_begin r hr ab
    refine hb.andThen (fun hok => ?_) (.cons .nil)
    have hl := beginP_leaves hok
    rw [hab] at hl
    exact does_writeBytes buf 0 hb.running.1 hb.running.2 hl.2 hl.1
  intro rest
  obtain ⟨c, hc, hx, hres, hcfg, hok, herr⟩ := h (endBody ++ rest)
  refine ⟨rest, ?_, hx.endP, hres, hcfg, fun _ => rfl, fun _ => rfl⟩
  rw [show transmitBody ab buf ++ rest = (beginBody ab ++ writeBytesBody buf) ++ (endBody ++ rest) by simp [transmitBody]]
  refine hc.trans (reaches_end hx _ ⟨hok, fun he => ?_⟩)
  rw [hcfg, herr he]
  rfl

theorem does_commandFrame {s : State} (r : Running s) (hr : s.sqr.bound.res = .ok) (c : Byte) :
    Does [onOk (.run (.commandFrame c))] s (cmdP c s) :=
  does_run r hr (fun _ => rfl) (does_transmit r hr (getLsbD_zero_addressByte _) _)

theorem does_chr {s : State} (r : Running s) (hr : s.sqr.bound.res = .ok) (c : Byte) : Does (chrBody c) s (chrP c s) :=
  does_run r hr (fun _ => rfl) (does_transmit r hr (getLsbD_zero_addressByte _) _)

theorem does_blWrite {s : State} (r : Running s) (hr : s.sqr.bound.res = .ok) (reg val : Byte) :
    Does (blWriteBody reg val) s (blWriteP reg val s) :=
  does_run r hr (fun _ => rfl) (does_transmit r hr (getLsbD_zero_addressByte _) _)

/-- An LCD row is called as the command frame of its byte, and its byte is the byte it was decoded from. -/
theorem exec_lcdInstr (c : Byte) : lcdInstr c = .commandFrame c ∨
    ∀ s, exec (lcdInstr c) s = expand [onOk (.run (.commandFrame c))] s := by
  have key : ∀ c : Byte, lcdInstr c = .commandFrame c ∨ (lcdByte (lcdInstr c) = c ∧ (lcdInstr c).layer = .lcdCmd) := by decide
  rcases key c with h | ⟨h, hl⟩
  · exact .inl h
  · refine .inr fun s => ?_
    generalize lcdInstr c = i at h hl
    subst h
    cases i <;> first | rfl | cases hl

theorem does_cmd {s : State} (r : Running s) (hr : s.sqr.bound.res = .ok) (c : Byte) : Does (cmdBody c) s (cmdP c s) := by
  unfold cmdBody
  rcases exec_lcdInstr c with h | h
  · rw [h]; exact does_commandFrame r hr c
  · exact does_run r hr (fun ts => h (pop ts s)) (does_commandFrame r hr c)

/-- A body, then the delay of R234 and R235. -/
theorem Does.thenDelay {body : List Task} {s : State} {x : Ran} (h : Does body s x) (t : Nat) :
    Does (body ++ [{ op := .delay t, guard := .clearDelay }]) s (thenDelayP t x) := by
  intro rest
  obtain ⟨c, hc, hx, hres, hcfg, hok, herr⟩ := h ({ op := .delay t, guard := .clearDelay } :: rest)
  rw [List.append_assoc]
  have hdelay : ∀ (res : Res) (c : List Task), pending (pop c (withRes res x.1)) = { op := .delay t, guard := .clearDelay } :: rest →
      Reaches (pop c (withRes res x.1)) (pop rest (withRes res (logDelay t x.1))) := by
    intro res c hp
    have r0 : Running (pop c (withRes res x.1)) :=
      ⟨hx.legal, hx.faultless, hx.live, hx.default, hx.busy, hx.evNone, hx.noStop, hx.noDelay⟩
    have h1 : step (pop c (withRes res x.1)) = .next (beginDelay t (pop rest (withRes res x.1))) := by
      rw [r0.step_head hp rfl]; rfl
    refine .step_then h1 (.of_step ?_)
    rw [step_ends_delay (s := beginDelay t (pop rest (withRes res x.1))) (t := t)
      hx.legal hx.faultless hx.default hx.evNone hx.noStop rfl]
    have hd := hx.noDelay
    obtain ⟨⟨cfg, per, ⟨seq, ph, res', rd, op, ct, bd, dl⟩, obs, f, env⟩, xr⟩ := x
    simp only at hd
    subst hd
    rfl
  obtain ⟨y, rr⟩ := x
  cases rr with
  | ok =>
    refine ⟨rest, hc.trans ?_, ?_, ?_, ?_, fun _ => rfl, fun h => by cases h⟩
    · rw [hok rfl]
      have := hdelay .ok _ (pending_ok rfl)
      simpa [thenDelayP] using this
    · exact ⟨hx.legal, hx.faultless, hx.live, hx.default, hx.busy, hx.evNone, hx.noStop, hx.noDelay⟩
    · simpa [thenDelayP] using hres
    · simpa [thenDelayP] using hcfg
  | err =>
    have hcfg' : y.cfg = s.cfg := hcfg
    cases hflag : s.cfg.clearDelayOnError with
    | true =>
      refine ⟨rest, hc.trans ?_, ?_, ?_, ?_, fun _ => rfl, fun _ => rfl⟩
      · have hp : pending (pop c (withRes .err y)) = { op := .delay t, guard := .clearDelay } :: rest := by
          rw [pending_err rfl]
          show unwind y.cfg c = _
          rw [hcfg', herr rfl]
          simp [unwind, runsAfterErr, hflag]
        have := hdelay .err c hp
        simpa [thenDelayP, hcfg', hflag] using this
      · simp only [thenDelayP, hcfg', hflag, or_true, if_true]
        exact ⟨hx.legal, hx.faultless, hx.live, hx.default, hx.busy, hx.evNone, hx.noStop, hx.noDelay⟩
      · simpa [thenDelayP, hcfg', hflag] using hres
      · simp [thenDelayP, hcfg', hflag]
    | false =>
      have e : thenDelayP t (y, .err) = (y, .err) := by simp [thenDelayP, hcfg', hflag]
      rw [e]
      refine ⟨c, hc, hx, hres, hcfg, fun h => absurd h (by simp), fun _ => ?_⟩
      rw [herr rfl]
      simp [unwind, runsAfterErr, hflag]

theorem does_clear {s : State} (r : Running s) (hr : s.sqr.bound.res = .ok) : Does (clearBodyTasks s.cfg) s (clearP s) :=
  (does_cmd r hr clearByte).thenDelay s.cfg.tClear

theorem does_home {s : State} (r : Running s) (hr : s.sqr.bound.res = .ok) : Does (homeBody s.cfg) s (homeP s) :=
  (does_cmd r hr homeByte).thenDelay s.cfg.tHome

theorem does_clearBody {s : State} (r : Running s) (hr : s.sqr.bound.res = .ok) : Does [onOk .clearBody] s (clearP s) := by
  intro rest
  obtain ⟨c, hc, hp⟩ := does_clear r hr rest
  refine ⟨c, .step_then ?_ hc, hp⟩
  rw [List.singleton_append, step_item r hr .clearBody rest rfl]
  rfl

theorem does_putString (str : List Byte) : ∀ (i : Nat) {s : State}, Running s → s.sqr.bound.res = .ok →
    Does [onOk (.putString i str)] s (putStringP i str s) := by
  induction str with
  | nil => intro i s r hr; exact does_nothing r hr rfl (fun _ _ => rfl)
  | cons c cs ih =>
    intro i s r hr
    refine does_iterate r hr rfl (fun _ _ => rfl) ?_
    have h := does_chr (s := indexP i s) (r.indexP i) hr c
    exact h.andThen (fun _ => ih (i + 1) h.running.1 h.running.2) (.cons .nil)

theorem does_setBlRgb {s : State} (r : Running s) (hr : s.sqr.bound.res = .ok) (cfg : Cfg) (red green blue : Byte) :
    Does (setBlRgbBody cfg red green blue) s (setBlRgbP cfg red green blue s) := by
  have h1 := does_blWrite r hr cfg.regRed red
  refine h1.andThen (b₂ := blWriteBody cfg.regGreen green ++ blWriteBody cfg.regBlue blue) (fun _ => ?_) (.cons (.cons .nil))
  have h2 := does_blWrite h1.running.1 h1.running.2 cfg.regGreen green
  exact h2.andThen (fun _ => does_blWrite h2.running.1 h2.running.2 _ _) (.cons .nil)

theorem does_busInit {s : State} (r : Running s) (hr : s.sqr.bound.res = .ok) : Does (busInitBody s.cfg) s (busInitP s, .ok) := by
  have h1 := does_writeReg r hr .status (by decide) 0x00#8
  have h2 := does_writeReg h1.running.1 h1.running.2 .bitrate (by decide) (bitRate s.cfg)
  exact h1.andThen (f := fun s => (logReg (.w .bitrate (bitRate s.cfg)) { s with per := writeReg .bitrate (bitRate s.cfg) s.per }, .ok))
    (b₂ := [onOk (.write .bitrate (bitRate s.cfg))]) (fun _ => h2) (.cons .nil)

/-- A delay, then a command. -/
theorem does_delay_then {s : State} (r : Running s) (hr : s.sqr.bound.res = .ok) (t : Nat) {body : List Task} {x : Ran}
    (h : Does body (logDelay t s) x) (hd : Droppable body) : Does (onOk (.delay t) :: body) s x :=
  (does_delay r hr t).andThen (f := fun _ => x) (fun _ => h) hd

/-- Two bodies in sequence, the second from wherever the first leaves the machine. -/
theorem Does.seq {b₁ b₂ : List Task} {s : State} {x : Ran} {f : State → Ran} (h₁ : Does b₁ s x)
    (h₂ : ∀ t, Running t → t.sqr.bound.res = .ok → t.cfg = s.cfg → Does b₂ t (f t)) (hd : Droppable b₂) :
    Does (b₁ ++ b₂) s (Machine.andThen x f) :=
  h₁.andThen (fun _ => h₂ x.1 h₁.running.1 h₁.running.2 h₁.cfg_eq) hd

theorem does_dispInit {s : State} (r : Running s) (hr : s.sqr.bound.res = .ok) :
    Does (dispInitBody s.cfg) s (dispInitP s.cfg s) := by
  have hcmd : ∀ (t : Nat) (c : Byte) {s : State}, Running s → s.sqr.bound.res = .ok →
      Does (onOk (.delay t) :: cmdBody c) s (cmdP c (logDelay t s)) := fun t c s r hr =>
    does_delay_then r hr t (does_cmd (s := logDelay t s) ⟨r.legal, r.faultless, r.live, r.default, r.busy, r.evNone, r.noStop, r.noDelay⟩ hr c) (.cons .nil)
  generalize hcfg : s.cfg = cfg
  rw [show dispInitBody cfg = (onOk (.delay cfg.tPowerOn) :: cmdBody (functionSetByte cfg))
      ++ ((onOk (.delay cfg.tFs1) :: cmdBody (functionSetByte cfg))
      ++ ((onOk (.delay cfg.tFs2) :: cmdBody (functionSetByte cfg))
      ++ (cmdBody (functionSetByte cfg) ++ (cmdBody (displayControlByte cfg) ++ ([onOk .clearBody]
      ++ (cmdBody (entryModeByte cfg) ++ (blWriteBody cfg.regMode1 cfg.valMode1
      ++ (blWriteBody cfg.regOutput cfg.valOutput ++ blWriteBody cfg.regMode2 cfg.valMode2)))))))) from rfl]
  unfold dispInitP
  refine (hcmd _ _ r hr).seq (fun t r hr _ => ?_) (fun _ _ => rfl)
  refine (hcmd _ _ r hr).seq (fun t r hr _ => ?_) (fun _ _ => rfl)
  refine (hcmd _ _ r hr).seq (fun t r hr _ => ?_) (fun _ _ => rfl)
  refine (does_cmd r hr _).seq (fun t r hr _ => ?_) (fun _ _ => rfl)
  refine (does_cmd r hr _).seq (fun t r hr _ => ?_) (fun _ _ => rfl)
  refine (does_clearBody r hr).seq (fun t r hr _ => ?_) (fun _ _ => rfl)
  refine (does_cmd r hr _).seq (fun t r hr _ => ?_) (fun _ _ => rfl)
  refine (does_blWrite r hr _ _).seq (fun t r hr _ => ?_) (fun _ _ => rfl)
  exact (does_blWrite r hr _ _).seq (fun t r hr _ => does_blWrite r hr _ _) (fun _ _ => rfl)

end Sys2Proof.Machine
end

