-- ==== Sys2Proof/Laws/Exec.lean ====
section
/-! SUPPORT. What each shared operation answers, and each instruction's meaning as a use of one of them. -/

namespace Sys2Proof.Machine

/-! ### The shared operations -/

theorem unlessFaulted_some {s : State} {f : Fault} (h : s.fault = some f) (k : Answered) : unlessFaulted s k = .fault f := by
  unfold unlessFaulted; rw [h]

@[simp] theorem accepted_cfg (o out body) (s : State) : (accepted o out body s).cfg = s.cfg := rfl
@[simp] theorem accepted_per (o out body) (s : State) : (accepted o out body s).per = s.per := rfl
@[simp] theorem accepted_obs (o out body) (s : State) : (accepted o out body s).obs = s.obs := rfl
@[simp] theorem accepted_fault (o out body) (s : State) : (accepted o out body s).fault = s.fault := rfl
@[simp] theorem accepted_env (o out body) (s : State) : (accepted o out body s).env = s.env := rfl
@[simp] theorem accepted_phase (o out body) (s : State) : (accepted o out body s).sqr.phase = s.sqr.phase := rfl
@[simp] theorem accepted_cont (o out body) (s : State) : (accepted o out body s).sqr.cont = body := rfl

/-- Everything `accept` can answer in a machine that is not marked. -/
theorem accept_cases {o f adm out body} {s : State} (hf : s.fault = none) :
    (s.sqr.seq = .busy ∧ accept o f adm out body s = raise .reentrant s) ∨
    (s.sqr.seq = .ready ∧ ∃ r, f = some r ∧ accept o f adm out body s = raise r s) ∨
    (s.sqr.seq = .ready ∧ f = none ∧ adm = false ∧ accept o f adm out body s = raise .phase s) ∨
    (s.sqr.seq = .ready ∧ f = none ∧ adm = true ∧ accept o f adm out body s = .next (accepted o out body s)) := by
  unfold accept
  rw [unlessFaulted_none hf]
  cases hs : s.sqr.seq <;> cases f <;> cases adm <;> simp [accepted]

theorem accept_ok {o adm out body} {s : State} (hf : s.fault = none) (hr : s.sqr.seq = .ready) (ha : adm = true) :
    accept o none adm out body s = .next (accepted o out body s) := by
  rcases accept_cases (o := o) (f := none) (adm := adm) (out := out) (body := body) hf with h | h | h | h
  · rw [hr] at h; cases h.1
  · obtain ⟨_, _, h, _⟩ := h; cases h
  · rw [ha] at h; cases h.2.2.1
  · exact h.2.2.2

/-- An unmarked next state of `accept` is the accepted one. -/
theorem accept_next {o f adm out body} {s t : State} (hf : s.fault = none) (h : accept o f adm out body s = .next t)
    (ht : t.fault = none) : s.sqr.seq = .ready ∧ f = none ∧ adm = true ∧ t = accepted o out body s := by
  rcases accept_cases (o := o) (f := f) (adm := adm) (out := out) (body := body) hf with c | c | c | c
  · rw [c.2] at h; injection h with h; subst h; cases ht
  · obtain ⟨_, r, _, c⟩ := c; rw [c] at h; injection h with h; subst h; cases ht
  · rw [c.2.2.2] at h; injection h with h; subst h; cases ht
  · rw [c.2.2.2] at h; injection h with h; exact ⟨c.1, c.2.1, c.2.2.1, h.symm⟩

/-- Everything `trigger` can answer in a machine that is not marked. -/
theorem trigger_cases (v : Byte) (d : Bool) (f : State → State) {s : State} (hf : s.fault = none) :
    (s.per.ctrl.sto = true ∧ trigger v d f s = .next s) ∨
    (s.per.ctrl.sto = false ∧ s.per.ev.isSome = true ∧ trigger v d f s = raise .triggerInFlight s) ∨
    (s.per.ctrl.sto = false ∧ s.per.ev = none ∧ d = true ∧
      trigger v d f s = .next (f { s with per := writeCtrlFields v s.per })) ∨
    (s.per.ctrl.sto = false ∧ s.per.ev = none ∧ d = false ∧ trigger v d f s = raise .ctrlUndefined s) := by
  unfold trigger
  rw [unlessFaulted_none hf]
  cases h1 : s.per.ctrl.sto <;> cases h2 : s.per.ev <;> cases d <;> simp

theorem expand_next (body : List Task) {s : State} (hf : s.fault = none) :
    expand body s = .next (pop (body ++ s.sqr.cont) s) := by
  unfold expand; rw [unlessFaulted_none hf]; rfl

/-! ### The meanings -/

section Commands
variable (s : State)

theorem exec_busInit : exec .busInit s = accept (latch 0x01#8 [] []) none true none (busInitBody s.cfg) s := rfl
theorem exec_beginTx (ab : Byte) : exec (.beginTx ab) s = accept (latch 0x02#8 [ab] []) none true none (beginBody ab) s := rfl
theorem exec_endTx : exec .endTx s = accept (latch 0x03#8 [] []) none true none endBody s := rfl
theorem exec_writeByte (b : Byte) : exec (.writeByte b) s
    = accept (latch 0x04#8 [b] []) none (s.sqr.phase == .write) none (writeByteBody b) s := rfl
theorem exec_writeBytes (buf : List Byte) : exec (.writeBytes buf) s
    = accept (latch 0x05#8 [countByte buf] buf) none (s.sqr.phase == .write) none (writeBytesBody buf) s := rfl
theorem exec_readAck : exec .readAck s = accept (latch 0x06#8 [] []) none (s.sqr.phase == .read) (some []) readAckBody s := rfl
theorem exec_readNack : exec .readNack s = accept (latch 0x07#8 [] []) none (s.sqr.phase == .read) (some []) readNackBody s := rfl
theorem exec_readBytes (n : Byte) : exec (.readBytes n) s
    = accept (latch 0x08#8 [n] []) (checkCount n) (s.sqr.phase == .read) (some []) (readBytesBody n) s := rfl
theorem exec_transmitOne (a b : Byte) : exec (.transmitOne a b) s
    = accept (latch 0x09#8 [a, b] []) (checkAddress a) true none (transmitBody (writeAddress a) [b]) s := rfl
theorem exec_transmitTwo (a b c : Byte) : exec (.transmitTwo a b c) s
    = accept (latch 0x0A#8 [a, b, c] []) (checkAddress a) true none (transmitBody (writeAddress a) [b, c]) s := rfl
theorem exec_transmitMany (a : Byte) (buf : List Byte) : exec (.transmitMany a buf) s
    = accept (latch 0x0B#8 [a, countByte buf] buf) (checkAddress a) true none (transmitBody (writeAddress a) buf) s := rfl
theorem exec_dispInit : exec .dispInit s = accept (latch 0x10#8 [] []) none true none (dispInitBody s.cfg) s := rfl
theorem exec_clear : exec .clear s = accept (latch 0x11#8 [] []) none true none (clearBodyTasks s.cfg) s := rfl
theorem exec_home : exec .home s = accept (latch 0x12#8 [] []) none true none (homeBody s.cfg) s := rfl
theorem exec_setCursor (col row : Byte) : exec (.setCursor col row) s
    = accept (latch 0x13#8 [col, row] []) (checkRow row) true none (setCursorBody s.cfg col row) s := rfl
theorem exec_putChar (c : Byte) : exec (.putChar c) s = accept (latch 0x14#8 [c] []) none true none (chrBody c) s := rfl
theorem exec_putString (str : List Byte) : exec (.putString str) s
    = accept (latch 0x15#8 [countByte str] str) (checkString str) true none (putStringBody str) s := rfl
theorem exec_setBlReg (reg val : Byte) : exec (.setBlReg reg val) s
    = accept (latch 0x16#8 [reg, val] []) none true none (blWriteBody reg val) s := rfl
theorem exec_setBlRgb (r g b : Byte) : exec (.setBlRgb r g b) s
    = accept (latch 0x17#8 [r, g, b] []) none true none (setBlRgbBody s.cfg r g b) s := rfl
theorem exec_setBlColor (r g b : Byte) : exec (.setBlColor r g b) s
    = accept (latch 0x18#8 [r, g, b] []) none true none (setBlRgbBody s.cfg r g b) s := rfl

end Commands

/-- What a host command latches, checks, reads into and runs. -/
theorem exec_command {i : Instr} (h : isCommand i = true) (s : State) :
    ∃ o f adm out body, exec i s = accept o f adm out body s := by
  cases i with
  | busInit => exact ⟨_, _, _, _, _, exec_busInit s⟩
  | beginTx ab => exact ⟨_, _, _, _, _, exec_beginTx s ab⟩
  | endTx => exact ⟨_, _, _, _, _, exec_endTx s⟩
  | writeByte b => exact ⟨_, _, _, _, _, exec_writeByte s b⟩
  | writeBytes buf => exact ⟨_, _, _, _, _, exec_writeBytes s buf⟩
  | readAck => exact ⟨_, _, _, _, _, exec_readAck s⟩
  | readNack => exact ⟨_, _, _, _, _, exec_readNack s⟩
  | readBytes n => exact ⟨_, _, _, _, _, exec_readBytes s n⟩
  | transmitOne a b => exact ⟨_, _, _, _, _, exec_transmitOne s a b⟩
  | transmitTwo a b c => exact ⟨_, _, _, _, _, exec_transmitTwo s a b c⟩
  | transmitMany a buf => exact ⟨_, _, _, _, _, exec_transmitMany s a buf⟩
  | dispInit => exact ⟨_, _, _, _, _, exec_dispInit s⟩
  | clear => exact ⟨_, _, _, _, _, exec_clear s⟩
  | home => exact ⟨_, _, _, _, _, exec_home s⟩
  | setCursor col row => exact ⟨_, _, _, _, _, exec_setCursor s col row⟩
  | putChar c => exact ⟨_, _, _, _, _, exec_putChar s c⟩
  | putString str => exact ⟨_, _, _, _, _, exec_putString s str⟩
  | setBlReg reg val => exact ⟨_, _, _, _, _, exec_setBlReg s reg val⟩
  | setBlRgb r g b => exact ⟨_, _, _, _, _, exec_setBlRgb s r g b⟩
  | setBlColor r g b => exact ⟨_, _, _, _, _, exec_setBlColor s r g b⟩
  | illegal _ | start | sendAddr | sendData | recvAck | recvNack | stop | ctrlUndefined _ _ | lcdClear | lcdHome _
  | lcdEntryMode _ _ | lcdDisplayControl _ _ _ | lcdFunctionSet _ _ _ _ | lcdSetDdram _ | addressByte _ _
  | commandFrame _ | characterFrame _ | backlightFrame _ _ => cases h

section Triggers
variable (s : State)

theorem exec_start : exec .start s = trigger 0xA4#8 true (beginEvent .start) s := rfl
theorem exec_sendAddr : exec .sendAddr s
    = trigger 0x84#8 (s.per.xmode == .xaddr) (beginEvent (.sendAddr s.per.data)) s := rfl
theorem exec_sendData : exec .sendData s
    = trigger 0x84#8 (s.per.xmode == .xmt) (beginEvent (.sendData s.per.data)) s := rfl
theorem exec_recvAck : exec .recvAck s = trigger 0xC4#8 (s.per.xmode == .xmr) (beginEvent .recvAck) s := rfl
theorem exec_recvNack : exec .recvNack s = trigger 0x84#8 (s.per.xmode == .xmr) (beginEvent .recvNack) s := rfl
theorem exec_stop : exec .stop s = trigger 0x94#8 true (logBus .stop) s := rfl
theorem exec_ctrlUndefined (v : Byte) (m : XMode) : exec (.ctrlUndefined v m) s = trigger v false id s := rfl

end Triggers

/-- A trigger instruction is one use of `trigger`. -/
theorem exec_decodeTrigger (v : Byte) (m : XMode) (s : State) :
    ∃ v' d f, exec (decodeTrigger v m) s = trigger v' d f s := by
  have h : (decodeTrigger v m).layer = .ctrlTrigger .xidle ∨ ∃ m', (decodeTrigger v m).layer = .ctrlTrigger m' := by
    simp only [decodeTrigger]; repeat' split
    all_goals first | exact .inl rfl | exact .inr ⟨_, rfl⟩
  generalize decodeTrigger v m = i at h
  cases i <;> first | exact ⟨_, _, _, rfl⟩ | (rcases h with h | ⟨_, h⟩ <;> cases h)

/-- What a descriptor with an opcode decodes to is a host command. -/
theorem isCommand_of_operands {op : Opcode} {args : List Byte} {i : Instr} (h : decodeOperands op args = .ok i) :
    isCommand i = true := by
  have h0 : ∀ {j : Instr} {args : List Byte}, noOperand j args = .ok i → i = j := by
    intro j args h; unfold noOperand at h; split at h <;> cases h; rfl
  have h1 : ∀ {f : Byte → Instr} {args : List Byte}, oneOperand f args = .ok i → ∃ a, i = f a := by
    intro f args h; unfold oneOperand at h; split at h <;> cases h; exact ⟨_, rfl⟩
  have h2 : ∀ {f : Byte → Byte → Instr} {args : List Byte}, twoOperands f args = .ok i → ∃ a b, i = f a b := by
    intro f args h; unfold twoOperands at h; split at h <;> cases h; exact ⟨_, _, rfl⟩
  have h3 : ∀ {f : Byte → Byte → Byte → Instr} {args : List Byte}, threeOperands f args = .ok i → ∃ a b c, i = f a b c := by
    intro f args h; unfold threeOperands at h; split at h <;> cases h; exact ⟨_, _, _, rfl⟩
  have hc : ∀ {f : List Byte → Instr} {args : List Byte}, countedOperand f args = .ok i → ∃ b, i = f b := by
    intro f args h; unfold countedOperand at h; split at h
    · split at h <;> cases h; exact ⟨_, rfl⟩
    · cases h
  have ha : ∀ {f : Byte → List Byte → Instr} {args : List Byte}, addressedOperand f args = .ok i → ∃ a b, i = f a b := by
    intro f args h; unfold addressedOperand at h; split at h
    · exact ⟨_, hc h⟩
    · cases h
  cases op <;> simp only [decodeOperands] at h <;>
    first
    | (rw [h0 h]; rfl)
    | (obtain ⟨_, rfl⟩ := h1 h; rfl)
    | (obtain ⟨_, _, rfl⟩ := h2 h; rfl)
    | (obtain ⟨_, _, _, rfl⟩ := h3 h; rfl)
    | (obtain ⟨_, rfl⟩ := hc h; rfl)
    | (obtain ⟨_, _, rfl⟩ := ha h; rfl)

theorem decodeDescriptor_some {d0 : Byte} {op : Opcode} (h : opcodeOf d0 = some op) (args : List Byte) :
    decodeDescriptor (d0 :: args) = decodeOperands op args := by
  simp only [decodeDescriptor, h]

theorem decodeDescriptor_none {d0 : Byte} (h : opcodeOf d0 = none) (args : List Byte) :
    decodeDescriptor (d0 :: args) = .ok (.illegal (d0 :: args)) := by
  simp only [decodeDescriptor, h]

/-- A descriptor decodes to a host command or to ILLEGAL. -/
theorem decode_hostCmd {cfg : Cfg} {d : List Byte} {i : Instr} (h : decode cfg .hostCmd d = .ok i) :
    isCommand i = true ∨ i = .illegal d := by
  have h : decodeDescriptor d = .ok i := h
  cases d with
  | nil => injection h with h; exact .inr h.symm
  | cons d0 args =>
    cases ho : opcodeOf d0 with
    | none => rw [decodeDescriptor_none ho] at h; injection h with h; exact .inr h.symm
    | some op => rw [decodeDescriptor_some ho] at h; exact .inl (isCommand_of_operands h)

section Calls
variable (s : State)

theorem exec_addressByte (addr : Addr7) (dir : Dir) : exec (.addressByte addr dir) s
    = expand (sendTasks (addressByte addr dir) (.addr dir)) s := rfl
theorem exec_commandFrame (c : Byte) : exec (.commandFrame c) s
    = expand (transmitBody (addressByte s.cfg.lcdAddr .w) [s.cfg.selCmd, c]) s := rfl
theorem exec_characterFrame (c : Byte) : exec (.characterFrame c) s
    = expand (transmitBody (addressByte s.cfg.lcdAddr .w) [s.cfg.selData, c]) s := rfl
theorem exec_backlightFrame (reg val : Byte) : exec (.backlightFrame reg val) s
    = expand (transmitBody (addressByte s.cfg.rgbAddr .w) [reg, val]) s := rfl
theorem exec_lcdClear : exec .lcdClear s = sendCommand (lcdByte .lcdClear) s := rfl
theorem exec_lcdHome (x : Bool) : exec (.lcdHome x) s = sendCommand (lcdByte (.lcdHome x)) s := rfl
theorem exec_lcdEntryMode (i sh : Bool) : exec (.lcdEntryMode i sh) s = sendCommand (lcdByte (.lcdEntryMode i sh)) s := rfl
theorem exec_lcdDisplayControl (d c b : Bool) : exec (.lcdDisplayControl d c b) s
    = sendCommand (lcdByte (.lcdDisplayControl d c b)) s := rfl
theorem exec_lcdFunctionSet (dl n f : Bool) (x : BitVec 2) : exec (.lcdFunctionSet dl n f x) s
    = sendCommand (lcdByte (.lcdFunctionSet dl n f x)) s := rfl
theorem exec_lcdSetDdram (a : BitVec 7) : exec (.lcdSetDdram a) s = sendCommand (lcdByte (.lcdSetDdram a)) s := rfl

end Calls

/-! ### What an instruction can do -/

/-- Everything a trigger, a command, an LCD or wire row can do in a machine that is not marked. -/
inductive Did (s : State) : State → Prop where
  | faulted (f : Fault) : Did s { s with fault := some f }
  | held : Did s s
  | accepts (o : Opnd) (out : Option (List Byte)) (body : List Task) (h : s.sqr.seq = .ready) : Did s (accepted o out body s)
  | begins (v : Byte) (e : Event) : Did s (beginEvent e { s with per := writeCtrlFields v s.per })
  | stops (v : Byte) : Did s (logBus .stop { s with per := writeCtrlFields v s.per })
  | calls (items : List Task) : Did s (pop (items ++ s.sqr.cont) s)

theorem accept_did (o : Opnd) (f : Option Fault) (adm : Bool) (out : Option (List Byte)) (body : List Task) {s : State}
    (hf : s.fault = none) : ∃ t, accept o f adm out body s = .next t ∧ Did s t := by
  rcases accept_cases (o := o) (f := f) (adm := adm) (out := out) (body := body) hf with c | c | c | c
  · exact ⟨_, c.2, .faulted _⟩
  · obtain ⟨_, r, _, c⟩ := c; exact ⟨_, c, .faulted _⟩
  · exact ⟨_, c.2.2.2, .faulted _⟩
  · exact ⟨_, c.2.2.2, .accepts _ _ _ c.1⟩

theorem trigger_did (v : Byte) (d : Bool) (f : State → State) {s : State} (hf : s.fault = none)
    (hd : d = true → Did s (f { s with per := writeCtrlFields v s.per })) : ∃ t, trigger v d f s = .next t ∧ Did s t := by
  rcases trigger_cases v d f hf with c | c | c | c
  · exact ⟨_, c.2, .held⟩
  · exact ⟨_, c.2.2, .faulted _⟩
  · exact ⟨_, c.2.2.2, hd c.2.2.1⟩
  · exact ⟨_, c.2.2.2, .faulted _⟩

theorem expand_did (body : List Task) {s : State} (hf : s.fault = none) : ∃ t, expand body s = .next t ∧ Did s t :=
  ⟨_, expand_next body hf, .calls body⟩

theorem exec_did (i : Instr) {s : State} (hf : s.fault = none) : ∃ t, exec i s = .next t ∧ Did s t := by
  cases hi : isCommand i with
  | true =>
    obtain ⟨o, f, adm, out, body, e⟩ := exec_command hi s
    rw [e]; exact accept_did o f adm out body hf
  | false =>
    cases i with
    | illegal d =>
      show ∃ t, execIllegal d s = .next t ∧ Did s t
      unfold execIllegal
      rw [unlessFaulted_none hf]
      cases s.sqr.seq <;> exact ⟨_, rfl, .faulted _⟩
    | start => exact trigger_did _ _ _ hf fun _ => .begins _ _
    | sendAddr => exact trigger_did _ _ _ hf fun _ => .begins _ _
    | sendData => exact trigger_did _ _ _ hf fun _ => .begins _ _
    | recvAck => exact trigger_did _ _ _ hf fun _ => .begins _ _
    | recvNack => exact trigger_did _ _ _ hf fun _ => .begins _ _
    | stop => exact trigger_did _ _ _ hf fun _ => .stops _
    | ctrlUndefined v m => exact trigger_did _ _ _ hf fun h => by cases h
    | lcdClear => exact expand_did _ hf
    | lcdHome x => exact expand_did _ hf
    | lcdEntryMode a b => exact expand_did _ hf
    | lcdDisplayControl a b c => exact expand_did _ hf
    | lcdFunctionSet a b c x => exact expand_did _ hf
    | lcdSetDdram a => exact expand_did _ hf
    | addressByte a d => exact expand_did _ hf
    | commandFrame c => exact expand_did _ hf
    | characterFrame c => exact expand_did _ hf
    | backlightFrame r v => exact expand_did _ hf
    | busInit | beginTx _ | endTx | writeByte _ | writeBytes _ | readAck | readNack | readBytes _ | transmitOne _ _
    | transmitTwo _ _ _ | transmitMany _ _ | dispInit | clear | home | setCursor _ _ | putChar _ | putString _
    | setBlReg _ _ | setBlRgb _ _ _ | setBlColor _ _ _ => cases hi

end Sys2Proof.Machine
end

