-- ==== Sys2Proof/Laws/Answers.lean ====
section
/-! SUPPORT. The primitives of the pseudocode under a scripted answer, as whole states. -/

namespace Sys2Proof.Machine

theorem draw_script {s : State} {a : Answer} {as : List Answer} (h : s.env.script = a :: as) (e : Event) : draw s e = a := by
  simp [draw, h]

theorem afterDraw_script' {s : State} {a : Answer} {as : List Answer} (h : s.env.script = a :: as) (e : Event) :
    afterDraw e s.env = answered 1 s := by
  simp [afterDraw, answered, h]

theorem answered_succ (n : Nat) (s : State) (t : State) (h : t.env = answered n s) : answered 1 t = answered (n + 1) s := by
  simp [answered, h, Nat.add_assoc]

theorem statusCode_statusByte (t : Status) : statusCode (statusByte t) = t.sc ++ 0#3 := by
  unfold statusCode statusByte
  generalize t.sc = a; generalize t.ps = b; revert a b; decide

/-! ### A stop performed first -/

@[simp] theorem stopped_cfg (s : State) : (stopped s).cfg = s.cfg := by unfold stopped; split <;> rfl
@[simp] theorem stopped_sqr (s : State) : (stopped s).sqr = s.sqr := by unfold stopped; split <;> rfl
@[simp] theorem stopped_obs (s : State) : (stopped s).obs = s.obs := by unfold stopped; split <;> rfl
@[simp] theorem stopped_env (s : State) : (stopped s).env = s.env := by unfold stopped; split <;> rfl
@[simp] theorem stopped_fault (s : State) : (stopped s).fault = s.fault := by unfold stopped; split <;> rfl
@[simp] theorem stopped_ev (s : State) : (stopped s).per.ev = s.per.ev := by unfold stopped; split <;> rfl
@[simp] theorem stopped_bitrate (s : State) : (stopped s).per.bitrate = s.per.bitrate := by unfold stopped; split <;> rfl
@[simp] theorem stopped_ps (s : State) : (stopped s).per.status.ps = s.per.status.ps := by unfold stopped; split <;> rfl

theorem stopped_of_none {s : State} (h : s.per.ctrl.sto = false) : stopped s = s := by
  unfold stopped; rw [h]; rfl

theorem stopped_sto (s : State) : (stopped s).per.ctrl.sto = false := by
  unfold stopped; split
  · rfl
  · rename_i h; simpa using h

/-- A stop's performance changes the peripheral only. -/
theorem stopped_eq (s : State) : stopped s = { s with per := (stopped s).per } := by
  unfold stopped; split <;> rfl

theorem stopped_accepted (o : Opnd) (out : Option (List Byte)) (body : List Task) (s : State) :
    stopped (accepted o out body s) = accepted o out body { s with per := (stopped s).per } := by
  rw [← stopped_eq]
  unfold stopped
  rw [show (accepted o out body s).per = s.per from rfl]
  split <;> rfl

/-! ### Checks -/

theorem checkP_ok {st : Stage} {s : State} (h : expected st (s.per.status.sc ++ 0#3) = true) : checkP st (statusP s)
    = (setPhase (phaseAfter st s.sqr.phase) (logReg (.r .status (s.per.status.sc ++ 0#1 ++ s.per.status.ps)) s), .ok) := by
  rw [checkP_pass]; rfl
  show expected st (statusCode (statusByte s.per.status)) = true
  rw [statusCode_statusByte]; exact h

theorem checkP_err {st : Stage} {s : State} (h : expected st (s.per.status.sc ++ 0#3) = false) : checkP st (statusP s)
    = (setPhase .failed (logReg (.r .status (s.per.status.sc ++ 0#1 ++ s.per.status.ps)) s), .err) := by
  rw [checkP_fail]; rfl
  show expected st (statusCode (statusByte s.per.status)) = false
  rw [statusCode_statusByte]; exact h

/-! ### Events under a scripted answer -/

/-- The state after a START answered `a`, its status read. -/
def afterStart (a : Answer) (s : State) : State :=
  { s with
    per := { s.per with
      ctrl := { int := true, ea := false, sta := true, sto := false, wc := s.per.ctrl.wc, en := true, ie := false }
      status := { s.per.status with sc := a.sc }
      ev := none, xmode := .xaddr, bus := .held }
    obs := { s.obs with
      trace := s.obs.trace ++ [.start (a.sc ++ 0#3)]
      regTrace := s.obs.regTrace ++ [.w .ctrl 0xA4#8, .p, .r .status (a.sc ++ 0#1 ++ s.per.status.ps)] }
    env := answered 1 s }

/-- The state after a SEND of `b` answered `a`, its status read. -/
def afterSend (b : Byte) (e : Event) (a : Answer) (s : State) : State :=
  { s with
    per := { s.per with
      ctrl := { int := true, ea := false, sta := false, sto := false, wc := false, en := true, ie := false }
      status := { s.per.status with sc := a.sc }
      data := b, ev := none, xmode := modeAfter e s.per.xmode, bus := busAfter e s.per.bus }
    obs := { s.obs with
      trace := s.obs.trace ++ [completionEvent e a]
      regTrace := s.obs.regTrace ++ [.w .data b, .w .ctrl 0x84#8, .p, .r .status (a.sc ++ 0#1 ++ s.per.status.ps)] }
    env := answered 1 s }

/-- The state after a receive answered `a`, its byte taken. -/
def afterRecv (v : Byte) (e : Event) (ea : Bool) (a : Answer) (s : State) : State :=
  { s with
    per := { s.per with
      ctrl := { int := true, ea := ea, sta := false, sto := false, wc := s.per.ctrl.wc, en := true, ie := false }
      status := { s.per.status with sc := a.sc }
      data := a.data, ev := none }
    sqr := { s.sqr with bound := { s.sqr.bound with out := s.sqr.bound.out.map (· ++ [a.data]) } }
    obs := { s.obs with
      trace := s.obs.trace ++ [completionEvent e a]
      regTrace := s.obs.regTrace ++ [.w .ctrl v, .p, .r .data a.data] }
    env := answered 1 s }

theorem eventP_script {s : State} {a : Answer} {as : List Answer} (h : s.env.script = a :: as) (v : Byte) (e : Event) :
    eventP v e s = logReg .p { complete e a (logReg (.w .ctrl v) (beginEvent e { s with per := writeCtrlFields v s.per })) with
      env := answered 1 s } := by
  have h' : (logReg (.w .ctrl v) (beginEvent e { s with per := writeCtrlFields v s.per })).env.script = a :: as := h
  simp only [eventP]
  rw [draw_script h', complete, afterDraw_script' h']
  rfl

/-- A check of a status whose code is known. -/
theorem checkP_code {st : Stage} {s : State} {c : BitVec 5} (hc : s.per.status.sc = c) : checkP st (statusP s)
    = if expected st (c ++ 0#3) then
        (setPhase (phaseAfter st s.sqr.phase) (logReg (.r .status (c ++ 0#1 ++ s.per.status.ps)) s), .ok)
      else (setPhase .failed (logReg (.r .status (c ++ 0#1 ++ s.per.status.ps)) s), .err) := by
  subst hc
  split
  · rename_i hx; exact checkP_ok hx
  · rename_i hx; exact checkP_err (by simpa using hx)

theorem startP_script {s : State} {a : Answer} {as : List Answer} (h : s.env.script = a :: as) :
    startP s = if expected .start (a.sc ++ 0#3) then (afterStart a s, .ok) else (setPhase .failed (afterStart a s), .err) := by
  unfold startP
  rw [eventP_script h, checkP_code (c := a.sc) rfl]
  congr 1 <;> simp [setPhase, logReg, complete, logBus, beginEvent, writeCtrlFields, afterStart, receives, modeAfter, busAfter,
      completionEvent, codeByte, phaseAfter]

theorem sendP_script {s : State} {a : Answer} {as : List Answer} (h : s.env.script = a :: as) (hi : s.per.ctrl.int = true)
    (b : Byte) {e : Event} (he : receives e = false) (st : Stage) :
    sendP b e st s = if expected st (a.sc ++ 0#3) then (setPhase (phaseAfter st s.sqr.phase) (afterSend b e a s), .ok)
      else (setPhase .failed (afterSend b e a s), .err) := by
  show checkP st (statusP (eventP 0x84#8 e (logReg (.w .data b) { s with per := writeReg .data b s.per }))) = _
  rw [writeReg_data, writeData_taken hi, eventP_script (a := a) (as := as) (by exact h), checkP_code (c := a.sc) rfl]
  congr 1 <;> simp [setPhase, logReg, complete, logBus, beginEvent, writeCtrlFields, afterSend, he, answered]

theorem recvAckP_script {s : State} {a : Answer} {as : List Answer} (h : s.env.script = a :: as) :
    recvAckP s = afterRecv 0xC4#8 .recvAck true a s := by
  unfold recvAckP
  rw [eventP_script h]
  simp [takeData, readReg, logReg, complete, logBus, beginEvent, writeCtrlFields, afterRecv, receives, modeAfter, busAfter]

theorem recvNackP_script {s : State} {a : Answer} {as : List Answer} (h : s.env.script = a :: as) :
    recvNackP s = afterRecv 0x84#8 .recvNack false a s := by
  unfold recvNackP
  rw [eventP_script h]
  simp [takeData, readReg, logReg, complete, logBus, beginEvent, writeCtrlFields, afterRecv, receives, modeAfter, busAfter]

/-- A command's end, as a whole state. -/
theorem finishWith_eq {x : State} {o : Opnd} (hd : x.sqr.delay = none) (ho : x.sqr.opnd = some o) (r : Res) :
    finishWith (x, r) = { x with
      sqr := { seq := .ready, phase := x.sqr.phase, result := some r, rdata := x.sqr.bound.out.getD x.sqr.rdata, opnd := some o,
               cont := [], bound := Bound.empty, delay := none }
      obs := { x.obs with reports := x.obs.reports ++
        [{ command := o.opcode :: o.fixed ++ o.buf, result := r, rdata := x.sqr.bound.out.getD x.sqr.rdata }] } } := by
  simp only [finishWith, finish, hd, ho, descriptorOf]

end Sys2Proof.Machine
end

