-- ==== Sys2Proof/Laws/Traces.lean ====
section
/-! SUPPORT. The pseudocode's primitives and transactions under any oracle: the trace they add, what they keep, where they leave the
peripheral. -/

namespace Sys2Proof.Machine

/-- what every piece of pseudocode keeps -/
structure Via (u : State) (tr : List BusEvent) (t : State) : Prop where
  cfg : t.cfg = u.cfg
  fault : t.fault = u.fault
  bitrate : t.per.bitrate = u.per.bitrate
  ps : t.per.status.ps = u.per.status.ps
  seen : t.obs.seen = u.obs.seen
  host : t.env.host = u.env.host
  sched : t.env.sched = u.env.sched
  live : t.env.live = u.env.live
  mode : t.env.mode = u.env.mode
  rdata : t.sqr.rdata = u.sqr.rdata
  bound : t.sqr.bound = u.sqr.bound
  delay : t.sqr.delay = u.sqr.delay
  reports : t.obs.reports = u.obs.reports
  desc : descriptorOf t.sqr.opnd = descriptorOf u.sqr.opnd
  trace : t.obs.trace = u.obs.trace ++ tr
  script : t.env.script = u.env.script.drop (tr.filterMap statusOf).length
  follows : Follows u tr

theorem Via.refl (u : State) : Via u [] u :=
  ⟨rfl, rfl, rfl, rfl, rfl, rfl, rfl, rfl, rfl, rfl, rfl, rfl, rfl, rfl, by simp, by simp, by intro k a c _ h; simp at h⟩

theorem Via.trans {u v w : State} {tr tr'} (h : Via u tr v) (g : Via v tr' w) : Via u (tr ++ tr') w where
  cfg := g.cfg.trans h.cfg
  fault := g.fault.trans h.fault
  bitrate := g.bitrate.trans h.bitrate
  ps := g.ps.trans h.ps
  seen := g.seen.trans h.seen
  host := g.host.trans h.host
  sched := g.sched.trans h.sched
  live := g.live.trans h.live
  mode := g.mode.trans h.mode
  rdata := g.rdata.trans h.rdata
  bound := g.bound.trans h.bound
  delay := g.delay.trans h.delay
  reports := g.reports.trans h.reports
  desc := g.desc.trans h.desc
  trace := by rw [g.trace, h.trace, List.append_assoc]
  script := by rw [g.script, h.script]; simp [List.filterMap_append, Nat.add_comm]
  follows := by
    intro k a c ha hc
    rw [List.filterMap_append] at hc
    by_cases hk : k < (tr.filterMap statusOf).length
    · rw [List.getElem?_append_left hk] at hc
      exact h.follows k a c ha hc
    · rw [List.getElem?_append_right (by omega)] at hc
      refine g.follows (k - (tr.filterMap statusOf).length) a c ?_ hc
      rw [h.script, List.getElem?_drop, ← ha]; congr 1; omega

/-- one event -/
theorem via_event {u t : State} {ev : BusEvent} {sc : BitVec 5} (hst : statusOf ev = some (sc ++ 0#3))
    (hd : ∀ a as, u.env.script = a :: as → sc = a.sc)
    (h1 : t.cfg = u.cfg) (h2 : t.fault = u.fault) (h3 : t.per.bitrate = u.per.bitrate) (h4 : t.per.status.ps = u.per.status.ps)
    (h5 : t.obs.seen = u.obs.seen) (h6 : t.env.host = u.env.host) (h7 : t.env.sched = u.env.sched) (h8 : t.env.live = u.env.live)
    (h9 : t.env.mode = u.env.mode) (h10 : t.sqr.rdata = u.sqr.rdata) (h11 : t.sqr.bound = u.sqr.bound) (h12 : t.sqr.delay = u.sqr.delay)
    (h13 : t.obs.reports = u.obs.reports) (h14 : t.sqr.opnd = u.sqr.opnd) (h15 : t.obs.trace = u.obs.trace ++ [ev])
    (h16 : t.env.script = u.env.script.tail) : Via u [ev] t :=
  ⟨h1, h2, h3, h4, h5, h6, h7, h8, h9, h10, h11, h12, h13, by rw [h14], h15, by rw [h16]; simp [hst], by
    intro k a c ha hc
    rcases k with _ | k
    · simp [hst] at hc
      subst hc
      cases hu : u.env.script with
      | nil => rw [hu] at ha; cases ha
      | cons b bs => rw [hu] at ha; injection ha with ha; subst ha; rw [hd _ _ hu]
    · simp [hst] at hc⟩

/-- R165: no script is left and the oracle is the ideal one. -/
def IdealOracle (s : State) : Prop := s.env.script = [] ∧ s.env.mode = .ideal

theorem Via.ideal {u t tr} (h : Via u tr t) (hi : IdealOracle u) : IdealOracle t := ⟨by rw [h.script, hi.1]; simp, by rw [h.mode, hi.2]⟩

theorem check_cases (st : Stage) (s : State) : checkP st (statusP s) = (if expected st (s.per.status.sc ++ 0#3) then
   (setPhase (phaseAfter st s.sqr.phase) (logReg (.r .status (readReg .status s)) s), .ok)
   else (setPhase .failed (logReg (.r .status (readReg .status s)) s), .err)) := by
  have : statusCode (readReg .status s) = s.per.status.sc ++ 0#3 := statusCode_statusByte _
  split
  · rename_i h; exact checkP_pass (by rw [this]; exact h)
  · rename_i h; exact checkP_fail (by rw [this]; simpa using h)

theorem via_check {u t : State} {tr} (st : Stage) (h : Via u tr t) : Via u tr (checkP st (statusP t)).1 := by
  rw [check_cases]; split <;> exact ⟨h.1, h.2, h.3, h.4, h.5, h.6, h.7, h.8, h.9, h.10, h.11, h.12, h.13, h.14, h.15, h.16, h.17⟩

theorem check_per (st : Stage) (s : State) : (checkP st (statusP s)).1.per = s.per := by
  rw [check_cases]; split <;> rfl
theorem check_env (st : Stage) (s : State) : (checkP st (statusP s)).1.env = s.env := by
  rw [check_cases]; split <;> rfl
theorem check_res (st : Stage) (s : State) : (checkP st (statusP s)).2 = .ok ↔ expected st (s.per.status.sc ++ 0#3) = true := by
  rw [check_cases]; split <;> simp_all
theorem check_phase (st : Stage) (s : State) : (checkP st (statusP s)).1.sqr.phase =
    if (checkP st (statusP s)).2 = .ok then phaseAfter st s.sqr.phase else .failed := by
  rw [check_cases]; split <;> rfl

theorem start_via (u : State) : let c : Byte := (draw u .start).sc ++ 0#3
    let x := startP u
    Via u [.start c] x.1 ∧ x.1.per.ctrl.int = true ∧ x.1.per.ctrl.sto = false ∧ x.1.per.xmode = .xaddr ∧ x.1.per.bus = .held ∧ x.1.per.ev = none
    ∧ (x.2 = .ok ↔ c = 0x08#8 ∨ c = 0x10#8) ∧ x.1.sqr.phase = (if x.2 = .ok then u.sqr.phase else .failed) := by
  intro c x
  refine ⟨via_check _ (via_event (sc := (draw u .start).sc) rfl ?_ rfl rfl rfl rfl rfl rfl rfl rfl rfl rfl rfl rfl rfl rfl rfl rfl), ?_⟩
  · intro a as h; rw [draw_script h]
  · rw [show x = checkP .start (statusP (eventP 0xA4#8 .start u)) from rfl, check_per]
    refine ⟨rfl, rfl, rfl, rfl, rfl, ?_, ?_⟩
    · rw [check_res]
      show expected .start ((draw u .start).sc ++ 0#3) = true ↔ _
      simp [expected, c]
    · exact check_phase _ _

theorem send_via (u : State) (hi : u.per.ctrl.int = true) (b : Byte) {e : Event} (st : Stage) (he : e = .sendAddr b ∨ e = .sendData b) :
    let a := draw u e
    let x := sendP b e st u
    Via u [completionEvent e a] x.1 ∧ x.1.per.ctrl.int = true ∧ x.1.per.ctrl.sto = false ∧ x.1.per.ev = none ∧ x.1.per.xmode = modeAfter e u.per.xmode ∧ x.1.per.bus = u.per.bus
    ∧ (x.2 = .ok ↔ expected st (a.sc ++ 0#3) = true) ∧ x.1.sqr.phase = (if x.2 = .ok then phaseAfter st u.sqr.phase else .failed) := by
  intro a x
  have hb : busAfter e u.per.bus = u.per.bus := by rcases he with rfl | rfl <;> rfl
  have hw : writeReg .data b u.per = { u.per with data := b, ctrl := { u.per.ctrl with wc := false } } := by rw [writeReg_data, writeData_taken hi]
  have hx : x = checkP st (statusP (eventP 0x84#8 e (logReg (.w .data b) { u with per := { u.per with data := b, ctrl := { u.per.ctrl with wc := false } } }))) := by
    show checkP st (statusP (eventP 0x84#8 e (logReg (.w .data b) { u with per := writeReg .data b u.per }))) = _
    rw [hw]
  rw [hx]
  refine ⟨via_check _ (via_event (sc := a.sc) ?_ ?_ rfl rfl rfl rfl rfl rfl rfl rfl rfl rfl rfl rfl rfl rfl rfl rfl), ?_⟩
  · rcases he with rfl | rfl <;> rfl
  · intro a' as h; show (draw u e).sc = _; rw [draw_script h]
  · rw [check_per]
    refine ⟨rfl, rfl, rfl, rfl, hb, ?_, ?_⟩
    · rw [check_res]; rfl
    · exact check_phase _ _

theorem via_setPhase {u t tr} (p : Phase) (h : Via u tr t) : Via u tr (setPhase p t) :=
  ⟨h.1, h.2, h.3, h.4, h.5, h.6, h.7, h.8, h.9, h.10, h.11, h.12, h.13, h.14, h.15, h.16, h.17⟩

theorem descriptorOf_idx (i : Nat) (q : Sequencer) : descriptorOf (setIdx i q).opnd = descriptorOf q.opnd := by
  unfold setIdx; cases q.opnd <;> rfl

theorem via_index (i : Nat) (u : State) : Via u [] (indexP i u) :=
  ⟨rfl, rfl, rfl, rfl, rfl, rfl, rfl, rfl, rfl, rfl, rfl, rfl, rfl, descriptorOf_idx i u.sqr, by simp [indexP], by simp [indexP], by intro k a c _ h; simp at h⟩

theorem via_delay (n : Nat) (u : State) : Via u [.delay n] (logDelay n u) :=
  ⟨rfl, rfl, rfl, rfl, rfl, rfl, rfl, rfl, rfl, rfl, rfl, rfl, rfl, rfl, rfl, rfl, by intro k a c _ h; cases k <;> cases h⟩

theorem via_end (u : State) : Via u [.stop] (endP u) :=
  ⟨rfl, rfl, rfl, rfl, rfl, rfl, rfl, rfl, rfl, rfl, rfl, rfl, rfl, rfl, rfl, rfl, by intro k a c _ h; cases k <;> cases h⟩

theorem idealCode_data (b : Byte) (s : State) (h : IdealOracle s) : (draw s (.sendData b)).sc = 0x05#5 := by
  simp [draw, h.1, h.2, idealCode]

theorem writeBytes_via (buf : List Byte) : ∀ (i : Nat) (u : State), u.per.ctrl.int = true → u.per.xmode = .xmt → u.per.ev = none → u.per.ctrl.sto = false →
    let x := writeBytesP i buf u
    ∃ tr, Via u tr x.1 ∧ Sent buf tr x.2 ∧ x.1.per.ctrl.int = true ∧ x.1.per.ctrl.sto = false ∧ x.1.per.ev = none ∧ x.1.per.xmode = .xmt ∧ x.1.per.bus = u.per.bus
      ∧ x.1.sqr.phase = (if x.2 = .ok then u.sqr.phase else .failed) ∧ (IdealOracle u → x.2 = .ok) := by
  induction buf with
  | nil => intro i u hi hm he hs; exact ⟨[], .refl u, .done, hi, hs, he, hm, rfl, rfl, fun _ => rfl⟩
  | cons b bs ih =>
    intro i u hi hm he hs x
    obtain ⟨v, w1, w2, w3, w4, w5, w6, w7⟩ := send_via (indexP i u) hi b .data (.inr rfl)
    have v := (via_index i u).trans v
    have hx : x = andThen (sendP b (.sendData b) .data (indexP i u)) (writeBytesP (i + 1) bs) := rfl
    have e6 : ∀ sc : BitVec 5, expected .data (sc ++ 0#3) = true ↔ sc ++ 0#3 = 0x28#8 := by intro sc; simp [expected]
    rw [e6] at w6
    generalize sendP b (.sendData b) .data (indexP i u) = y at *
    obtain ⟨t, r⟩ := y
    cases r with
    | ok =>
      obtain ⟨tr, v', sn, z1, z2, z3, z4, z5, z6, z7⟩ := ih (i + 1) t w1 (w4.trans hm) w3 w2
      have hx : x = writeBytesP (i + 1) bs t := hx
      rw [hx]
      refine ⟨_, v.trans v', ?_, z1, z2, z3, z4, z5.trans w5, ?_, fun h => z7 (v.ideal h)⟩
      · have := w6.1 rfl
        show Sent (b :: bs) (.tx b (_ ++ 0#3) :: tr) _
        rw [this]; exact .more sn
      · rw [z6, w7]; rfl
    | err =>
      have hx : x = (t, .err) := hx
      rw [hx]
      have : ¬ ((draw (indexP i u) (.sendData b)).sc ++ 0#3 = 0x28#8) := fun h => by cases w6.2 h
      refine ⟨_, v, .nack this, w1, w2, w3, w4.trans hm, w5, w7, fun h => absurd ?_ this⟩
      rw [idealCode_data b _ ((via_index i u).ideal h)]; rfl

theorem sent_ok {buf tr} (h : Sent buf tr .ok) : tr = buf.map (fun b => .tx b 0x28#8) := by
  generalize hr : Res.ok = r at h
  induction h with
  | done => rfl
  | more _ ih => rw [ih hr]; rfl
  | nack => cases hr

theorem begin_via (ab : Byte) (u : State) : let x := beginP ab u
    ∃ tr, Via u tr x.1 ∧ x.1.per.ctrl.int = true ∧ x.1.per.ctrl.sto = false ∧ x.1.per.ev = none ∧ x.1.per.bus = .held
      ∧ (x.2 = .ok → x.1.per.xmode = (if ab.getLsbD 0 then .xmr else .xmt))
      ∧ x.1.sqr.phase = (if x.2 = .ok then (if ab.getLsbD 0 then .read else .write) else .failed)
      ∧ (IdealOracle u → x.2 = .ok)
      ∧ (∃ c, (IdealOracle u → u.per.bus = .free → c = 0x08#8) ∧ ((x.2 = .err ∧ tr = [.start c] ∧ c ≠ 0x08#8 ∧ c ≠ 0x10#8) ∨ ((c = 0x08#8 ∨ c = 0x10#8) ∧ ∃ d, tr = [.start c, .addr ab d] ∧
          (x.2 = .ok ↔ d = (if ab.getLsbD 0 then 0x40#8 else 0x18#8))))) := by
  intro x
  have hx : x = andThen (startP u) (sendP ab (.sendAddr ab) (.addr (dirOf ab))) := rfl
  obtain ⟨v, s1, s2, s3, s4, s5, s6, s7⟩ := start_via u
  have hid : IdealOracle u → (draw u .start).sc ++ 0#3 = (match u.per.bus with | .free => 0x08#8 | .held => 0x10#8) := by
    intro h; simp only [draw, h.1, h.2]; cases u.per.bus <;> rfl
  generalize startP u = y at *
  obtain ⟨t, r⟩ := y
  cases r with
  | err =>
    have hx : x = (t, .err) := hx
    have h6 : ¬ _ := fun h => by cases s6.2 h
    have hn : ¬ IdealOracle u := by
      intro h; refine h6 ?_; rw [hid h]; cases u.per.bus <;> simp
    rw [hx]
    refine ⟨_, v, s1, s2, s5, s4, fun h => (by cases h), s7, fun h => absurd h hn, _, fun h => absurd h hn, .inl ⟨rfl, rfl, fun h => h6 (.inl h), fun h => h6 (.inr h)⟩⟩
  | ok =>
    have hx : x = sendP ab (.sendAddr ab) (.addr (dirOf ab)) t := hx
    obtain ⟨v', w1, w2, w3, w4, w5, w6, w7⟩ := send_via t s1 ab (e := .sendAddr ab) (.addr (dirOf ab)) (.inl rfl)
    rw [hx]
    have e6 : ∀ sc : BitVec 5, expected (.addr (dirOf ab)) (sc ++ 0#3) = true ↔ sc ++ 0#3 = (if ab.getLsbD 0 then 0x40#8 else 0x18#8) := by
      intro sc; unfold dirOf; cases ab.getLsbD 0 <;> simp [expected]
    refine ⟨_, v.trans v', w1, w2, w3, w5.trans s4, fun _ => w4, ?_, ?_, _, ?_, .inr ⟨s6.1 rfl, _, rfl, ?_⟩⟩
    · rw [w7]; unfold dirOf; cases ab.getLsbD 0 <;> rfl
    · intro h
      rw [w6, e6]
      have : IdealOracle t := v.ideal h
      simp only [draw, this.1, this.2, idealCode]; cases ab.getLsbD 0 <;> rfl
    · intro h hb; rw [hid h, hb]
    · rw [w6, e6]; exact Iff.rfl

theorem transmit_via (ab : Byte) (hab : ab.getLsbD 0 = false) (buf : List Byte) (u : State) (he : u.per.ev = none) : let x := transmitP ab buf u
    ∃ tr, Via u tr x.1 ∧ Transaction ab buf tr x.2 ∧ BusIdle x.1 ∧ x.1.per.ev = none ∧ (IdealOracle u → x.2 = .ok)
     ∧ (IdealOracle u → u.per.bus = .free → tr = Act.ideal (.frame ab buf)) := by
  intro x
  have key : ∀ (y : Ran) (tr), Via u tr y.1 → y.1.per.ev = none → Transaction ab buf (tr ++ [.stop]) y.2 → (IdealOracle u → y.2 = .ok) → (IdealOracle u → u.per.bus = .free → tr ++ [.stop] = Act.ideal (.frame ab buf)) →
      ∃ tr, Via u tr (endP y.1, y.2).1 ∧ Transaction ab buf tr y.2 ∧ BusIdle (endP y.1) ∧ (endP y.1).per.ev = none ∧ (IdealOracle u → y.2 = .ok)
     ∧ (IdealOracle u → u.per.bus = .free → tr = Act.ideal (.frame ab buf)) :=
    fun y tr v he t h1 h2 => ⟨_, v.trans (via_end y.1), t, ⟨rfl, rfl, rfl, rfl⟩, he, h1, h2⟩
  obtain ⟨tr, v, b1, b2, b3, b4, b5, b6, b7, c, bc, b8⟩ := begin_via ab u
  have hx : x = (endP (andThen (beginP ab u) (writeBytesP 0 buf)).1, (andThen (beginP ab u) (writeBytesP 0 buf)).2) := rfl
  rw [hx]
  generalize beginP ab u = y at *
  obtain ⟨t, r⟩ := y
  cases r with
  | err =>
    refine key (t, .err) tr v b3 ?_ b7 fun h => by cases b7 h
    rcases b8 with ⟨-, rfl, h1, h2⟩ | ⟨hc, d, rfl, hd⟩
    · exact .noStart h1 h2
    · rw [hab] at hd; exact .noAddress hc fun h => by cases hd.2 h
  | ok =>
    have b5 := b5 rfl
    rw [hab] at b5
    obtain ⟨tr', v', sn, z1, z2, z3, z4, z5, z6, z7⟩ := writeBytes_via buf 0 t b1 b5 b3 b2
    rcases b8 with ⟨h, -⟩ | ⟨hc, d, rfl, hd⟩
    · cases h
    rw [hab] at hd
    obtain rfl := hd.1 rfl
    refine key (writeBytesP 0 buf t) _ (v.trans v') z3 (.data hc sn) (fun h => z7 (v.ideal h)) fun h hb => ?_
    have := z7 (v.ideal h)
    rw [this] at sn
    rw [sent_ok sn, bc h hb]; rfl

end Sys2Proof.Machine
end

