-- ==== Sys2Proof/Laws/Acts.lean ====
section
/-! SUPPORT. The composed commands as their pieces (Safety.Acts), under any oracle. -/

namespace Sys2Proof.Machine

/-- A piece run as a program. -/
def actP (s : State) : Act → Ran
  | .wait t => (logDelay t s, .ok)
  | .frame ab buf => transmitP ab buf s
  | .settle ab buf t => thenDelayP t (transmitP ab buf s)

/-- The pieces in their order, up to the first that fails. -/
def actsP : List Act → State → Ran
  | [], s => (s, .ok)
  | a :: as, s => andThen (actP s a) (actsP as)

/-- The piece addresses a peer for writing. -/
def Act.even : Act → Prop
  | .wait _ => True
  | .frame ab _ => ab.getLsbD 0 = false
  | .settle ab _ _ => ab.getLsbD 0 = false

/-- The piece is a bare delay. -/
def Act.isWait : Act → Prop
  | .wait _ => True
  | _ => False

/-- What a run of pieces leaves, from a state with nothing in flight. -/
structure Performed (late : Bool) (acts : List Act) (u : State) (x : Ran) : Prop where
  ev : x.1.per.ev = none
  ok : IdealOracle u → x.2 = .ok
  ex : ∃ tr, Via u tr x.1 ∧ Acts late acts tr x.2 ∧ (IdealOracle u → u.per.bus = .free → tr = acts.flatMap Act.ideal)
  idle : acts ≠ [] → (∀ a, acts.getLast? = some a → ¬ a.isWait) → BusIdle x.1
  noop : acts = [] → x = (u, .ok)
  bus : u.per.bus = .free → x.1.per.bus = .free

theorem acts_res (acts : List Act) : ∀ (u : State), u.per.ev = none → (∀ a ∈ acts, a.even) → Performed u.cfg.clearDelayOnError acts u (actsP acts u) := by
  induction acts with
  | nil => intro u he _; exact ⟨he, fun _ => rfl, ⟨[], .refl u, .done, fun _ _ => rfl⟩, fun h => absurd rfl h, fun _ => rfl, fun h => h⟩
  | cons a as ih =>
    intro u he hev
    have hev' : ∀ a ∈ as, a.even := fun a h => hev a (List.mem_cons_of_mem _ h)
    have hl : ∀ b bs, as = b :: bs → ∀ {P : Act → Prop}, (∀ c, (a :: as).getLast? = some c → P c) → ∀ c, as.getLast? = some c → P c := by
      rintro b bs rfl P h c hc; exact h c (by rwa [List.getLast?_cons_cons])
    have frame : ∀ ab buf, ab.getLsbD 0 = false → ∃ y tr, transmitP ab buf u = y ∧ Via u tr y.1 ∧ Transaction ab buf tr y.2 ∧ BusIdle y.1 ∧ y.1.per.ev = none ∧ (IdealOracle u → y.2 = .ok)
        ∧ (IdealOracle u → u.per.bus = .free → tr = Act.ideal (.frame ab buf)) := fun ab buf h => by
      obtain ⟨tr, h⟩ := transmit_via ab h buf u he; exact ⟨_, tr, rfl, h⟩
    -- the combination
    have comb : ∀ (t : State) (tr : List BusEvent), Via u tr t → t.per.ev = none → (BusIdle t ∨ a.isWait) → (u.per.bus = .free → t.per.bus = .free) →
        (∀ tr' r, Acts u.cfg.clearDelayOnError as tr' r → Acts u.cfg.clearDelayOnError (a :: as) (tr ++ tr') r) → (IdealOracle u → u.per.bus = .free → tr = a.ideal) →
        Performed u.cfg.clearDelayOnError (a :: as) u (actsP as t) := by
      intro t tr v het hid hb hac hide
      obtain ⟨r1, r2, ⟨tr', v', ac, r3⟩, r4, r5, r6⟩ := ih t het hev'
      rw [v.cfg] at ac
      refine ⟨r1, fun h => r2 (v.ideal h), ⟨_, v.trans v', hac _ _ ac, fun h hf => ?_⟩, fun _ hla => ?_, fun h => (by cases h), fun h => r6 (hb h)⟩
      · rw [hide h hf, r3 (v.ideal h) (hb hf)]; rfl
      · cases hc : as with
        | nil =>
          rw [← hc, r5 hc]
          rcases hid with h | h
          · exact h
          · subst hc; exact absurd h (hla a rfl)
        | cons b bs =>
          rw [← hc]; exact r4 (by rw [hc]; simp) (hl b bs hc hla)
    cases a with
    | wait t =>
      exact comb (logDelay t u) _ (via_delay t u) he (.inr trivial) id (fun _ _ h => .wait h) (fun _ _ => rfl)
    | frame ab buf =>
      obtain ⟨⟨t, r⟩, tr, hy, v, tra, bi, hee, ok, idl⟩ := frame ab buf (hev (.frame ab buf) (List.mem_cons_self ..))
      have hx : actsP (.frame ab buf :: as) u = andThen (t, r) (actsP as) := by rw [← hy]; rfl
      rw [hx]
      cases r with
      | ok => exact comb t tr v hee (.inl bi) (fun _ => bi.bus) (fun _ _ h => .frame tra h) idl
      | err => exact ⟨hee, ok, ⟨tr, v, .frameErr tra, fun h => by cases ok h⟩, fun _ _ => bi, fun h => (by cases h), fun _ => bi.bus⟩
    | settle ab buf d =>
      obtain ⟨⟨t, r⟩, tr, hy, v, tra, bi, hee, ok, idl⟩ := frame ab buf (hev (.settle ab buf d) (List.mem_cons_self ..))
      have hx : actsP (.settle ab buf d :: as) u = andThen (thenDelayP d (t, r)) (actsP as) := by rw [← hy]; rfl
      rw [hx]
      have bi' : BusIdle (logDelay d t) := ⟨bi.1, bi.2, bi.3, bi.4⟩
      cases r with
      | ok =>
        have := comb (logDelay d t) _ (v.trans (via_delay d t)) hee (.inl bi') (fun _ => bi.bus)
          (fun tr' _ h => by rw [List.append_assoc]; exact .settle tra h) (fun h hf => by rw [idl h hf]; simp [Act.ideal])
        exact this
      | err =>
        have hcfg : t.cfg = u.cfg := v.cfg
        cases hc : u.cfg.clearDelayOnError with
        | true =>
          have e : andThen (thenDelayP d (t, .err)) (actsP as) = (logDelay d t, .err) := by
            simp [thenDelayP, hcfg, hc, andThen]
          rw [e]
          refine ⟨hee, ok, ⟨tr ++ [.delay d], v.trans (via_delay d t), .settleErr (late := true) tra, fun h => by cases ok h⟩, fun _ _ => bi', fun h => (by cases h), fun _ => bi.bus⟩
        | false =>
          have e : andThen (thenDelayP d (t, .err)) (actsP as) = (t, .err) := by
            simp [thenDelayP, hcfg, hc, andThen]
          rw [e]
          refine ⟨hee, ok, ⟨tr, v, by simpa using Acts.settleErr (late := false) (as := as) (t := d) tra, fun h => by cases ok h⟩, fun _ _ => bi, fun h => (by cases h), fun _ => bi.bus⟩

theorem Via.ended {s u t : State} {tr} {r : Res} (v : Via u tr t) (h1 : u.cfg = s.cfg) (h2 : u.fault = none) (h3 : u.per.bitrate = s.per.bitrate)
  (h4 : u.per.status.ps = s.per.status.ps) (h5 : u.obs = s.obs) (h6 : u.env = s.env) (h7 : u.sqr.delay = none) (he : t.per.ev = none) :
    Frame s (finishWith (t, r)) :=
  ⟨v.cfg.trans h1, v.fault.trans h2, v.bitrate.trans h3, v.ps.trans h4, he, rfl, rfl, rfl, v.delay.trans h7, by rw [show (finishWith (t, r)).obs.seen = t.obs.seen from rfl, v.seen, h5],
    by rw [show (finishWith (t, r)).env.host = t.env.host from rfl, v.host, h6], by rw [show (finishWith (t, r)).env.sched = t.env.sched from rfl, v.sched, h6],
    by rw [show (finishWith (t, r)).env.live = t.env.live from rfl, v.live, h6], by rw [show (finishWith (t, r)).env.mode = t.env.mode from rfl, v.mode, h6]⟩

theorem performs_of {s u w : State} {command : List Byte} {acts : List Act} {x : Ran} (hw : Reaches u (finishWith x)) 
  (h1 : w.cfg = s.cfg) (h2 : w.fault = none) (h3 : w.per = (stopped s).per) 
  (h5 : w.obs = s.obs) (h6 : w.env = s.env) (h7 : w.sqr.delay = none) (h8 : w.sqr.bound.out = none) (h9 : w.sqr.rdata = s.sqr.rdata)
  (h10 : descriptorOf w.sqr.opnd = command) (h11 : w.sqr.phase = s.sqr.phase) (hev : ∀ a, acts.getLast? = some a → ¬ a.isWait)
  (ha : Performed w.cfg.clearDelayOnError acts w x) : Performs command acts s u := by
  obtain ⟨t, r⟩ := x
  obtain ⟨r1, r2, ⟨tr, v, ac, r3⟩, r4, r5, r6⟩ := ha
  have hrd : (finishWith (t, r)).sqr.rdata = s.sqr.rdata := by
    show t.sqr.bound.out.getD t.sqr.rdata = _
    rw [v.bound, h8, v.rdata, h9]; rfl
  refine ⟨_, tr, r, hw, by rw [← h1]; exact ac, ?_, v.ended h1 h2 (by rw [h3]; simp) (by rw [h3]; simp) h5 h6 h7 r1, ?_, rfl, hrd, ?_, ?_, ?_⟩
  · intro k a c h h'; exact v.follows k a c (by rw [h6]; exact h) h'
  · show t.obs.trace = _; rw [v.trace, h5]
  · show t.obs.reports ++ [{ command := descriptorOf t.sqr.opnd, result := r, rdata := (finishWith (t, r)).sqr.rdata }] = _
    rw [hrd, v.reports, h5, v.desc, h10]
  · intro hn; have := r4 hn hev; exact ⟨this.1, this.2, this.3, this.4⟩
  · intro hn; have := r5 hn; injection this with e1 e2; subst e1; exact ⟨h11, h3⟩

theorem addr_even (a : Addr7) : (addressByte a .w).getLsbD 0 = false := by unfold addressByte; revert a; decide

theorem andThen_assoc (x : Ran) (f g : State → Ran) : andThen (andThen x f) g = andThen x (fun s => andThen (f s) g) := by
  obtain ⟨s, r⟩ := x; cases r <;> rfl

theorem andThen_ok (x : Ran) : andThen x (fun s => (s, .ok)) = x := by
  obtain ⟨s, r⟩ := x; cases r <;> rfl

theorem actsP_one (a : Act) (u : State) : actsP [a] u = actP u a := andThen_ok _

/-- the pseudocode of a composed command, as its pieces: putString needs indexP -/
theorem writeAddress_eq (a : Byte) : writeAddress a = a <<< 1 := by unfold writeAddress; simp

theorem transmitP_cfg (ab : Byte) (buf : List Byte) (u : State) : (transmitP ab buf u).1.cfg = u.cfg := by
  have w : ∀ (buf : List Byte) (i : Nat) (u : State), (writeBytesP i buf u).1.cfg = u.cfg := by
    intro buf; induction buf with
    | nil => intro i u; rfl
    | cons b bs ih =>
      intro i u
      have h : (writeByteP b (indexP i u)).1.cfg = u.cfg := by
        unfold writeByteP sendP
        dsimp only
        rw [check_cases]; split <;> rfl
      show (andThen _ _).1.cfg = _
      generalize writeByteP b (indexP i u) = y at *
      obtain ⟨t, r⟩ := y; cases r
      · exact (ih (i+1) t).trans h
      · exact h
  have hb : (beginP ab u).1.cfg = u.cfg := by
    obtain ⟨tr, v, _⟩ := begin_via ab u; exact v.cfg
  show (andThen (beginP ab u) (writeBytesP 0 buf)).1.cfg = _
  generalize beginP ab u = y at *
  obtain ⟨t, r⟩ := y; cases r
  · exact (w buf 0 t).trans hb
  · exact hb

theorem thenDelayP_cfg (t : Nat) (x : Ran) : (thenDelayP t x).1.cfg = x.1.cfg := by
  unfold thenDelayP; dsimp only; split <;> rfl

theorem actP_cfg (a : Act) (u : State) : (actP u a).1.cfg = u.cfg := by
  cases a with
  | wait t => rfl
  | frame ab buf => exact transmitP_cfg ab buf u
  | settle ab buf t => exact (thenDelayP_cfg _ _).trans (transmitP_cfg ab buf u)

/-- same, next state depends on cfg only -/
theorem chain {f g : State → Ran} {a : Act} {as : List Act} (u : State) (h1 : f u = actP u a) (h2 : ∀ t, t.cfg = u.cfg → g t = actsP as t) :
    andThen (f u) g = actsP (a :: as) u := by
  have hc := actP_cfg a u
  show _ = andThen (actP u a) (actsP as)
  rw [h1]
  generalize actP u a = y at *
  obtain ⟨t, r⟩ := y; cases r
  · exact h2 t hc
  · rfl

theorem chainw {f : State → Ran} {n : Nat} {as : List Act} (u : State) (h2 : ∀ t, t.cfg = u.cfg → f t = actsP as t) :
    f (logDelay n u) = actsP (.wait n :: as) u := h2 _ rfl

theorem chain1 {f : State → Ran} {a : Act} (u : State) (h1 : f u = actP u a) : f u = actsP [a] u := by rw [actsP_one, h1]

theorem dispInit_acts (u : State) (acts) (h : actsOf u.cfg .dispInit = some acts) : dispInitP u.cfg u = actsP acts u := by
  injection h with h; subst h
  unfold dispInitP
  have cm : ∀ c (t : State), t.cfg = u.cfg → cmdP c t = actP t (actsOf.lcd u.cfg u.cfg.selCmd c) := by
    intro c t h; show transmitP _ _ t = _; rw [h]; rfl
  have bl : ∀ r v (t : State), t.cfg = u.cfg → blWriteP r v t = actP t (actsOf.rgb u.cfg r v) := by
    intro r v t h; show transmitP _ _ t = _; rw [h]; rfl
  have cl : ∀ (t : State), t.cfg = u.cfg → clearP t = actP t (.settle (actsOf.lcdTo u.cfg) [u.cfg.selCmd, clearByte] u.cfg.tClear) := by
    intro t h; show thenDelayP _ (transmitP _ _ t) = _; rw [h]; rfl
  rw [← chainw (as := _) (n := u.cfg.tPowerOn) u (f := fun t => andThen (cmdP _ t) _)]
  intro t ht
  refine chain (f := cmdP _) t (cm _ t ht) fun t' h' => ?_
  have ht' := h'.trans ht
  refine chainw (f := fun t => andThen (cmdP _ t) _) t' fun t1 h1 => ?_
  have ht1 := h1.trans ht'
  refine chain (f := cmdP _) t1 (cm _ _ ht1) fun t2 h2 => ?_
  have ht2 := h2.trans ht1
  refine chainw (f := fun t => andThen (cmdP _ t) _) t2 fun t3 h3 => ?_
  have ht3 := h3.trans ht2
  refine chain (f := cmdP _) t3 (cm _ _ ht3) fun t4 h4 => ?_
  have ht4 := h4.trans ht3
  refine chain (f := cmdP _) t4 (cm _ _ ht4) fun t5 h5 => ?_
  have ht5 := h5.trans ht4
  refine chain (f := cmdP _) t5 (cm _ _ ht5) fun t6 h6 => ?_
  have ht6 := h6.trans ht5
  refine chain (f := clearP) t6 (cl _ ht6) fun t7 h7 => ?_
  have ht7 := h7.trans ht6
  refine chain (f := cmdP _) t7 (cm _ _ ht7) fun t8 h8 => ?_
  have ht8 := h8.trans ht7
  refine chain (f := blWriteP _ _) t8 (bl _ _ _ ht8) fun t9 h9 => ?_
  have ht9 := h9.trans ht8
  refine chain (f := blWriteP _ _) t9 (bl _ _ _ ht9) fun t10 h10 => ?_
  have ht10 := h10.trans ht9
  exact chain1 (f := blWriteP _ _) t10 (bl _ _ _ ht10)

theorem setBlRgb_acts (u : State) (r g b : Byte) : setBlRgbP u.cfg r g b u = actsP [actsOf.rgb u.cfg u.cfg.regRed r, actsOf.rgb u.cfg u.cfg.regGreen g, actsOf.rgb u.cfg u.cfg.regBlue b] u := by
  have bl : ∀ r v (t : State), t.cfg = u.cfg → blWriteP r v t = actP t (actsOf.rgb u.cfg r v) := by
    intro r v t h; show transmitP _ _ t = _; rw [h]; rfl
  refine chain (f := blWriteP _ _) u (bl _ _ _ rfl) fun t9 h9 => ?_
  refine chain (f := blWriteP _ _) t9 (bl _ _ _ h9) fun t10 h10 => ?_
  have ht10 := h10.trans h9
  exact chain1 (f := blWriteP _ _) t10 (bl _ _ _ ht10)

/-- strings: the index is latched at every loop head -/
theorem Via.nil_left {u v t : State} {tr} (h : Via u [] v) (g : Via v tr t) : Via u tr t := by simpa using h.trans g

theorem putString_res (str : List Byte) : ∀ (i : Nat) (u : State), u.per.ev = none → 
    Performed u.cfg.clearDelayOnError (str.map (actsOf.lcd u.cfg u.cfg.selData)) u (putStringP i str u) := by
  induction str with
  | nil => intro i u he; exact ⟨he, fun _ => rfl, ⟨[], .refl u, .done, fun _ _ => rfl⟩, fun h => absurd rfl h, fun _ => rfl, fun h => h⟩
  | cons c cs ih =>
    intro i u he
    have v0 := via_index i u
    obtain ⟨tr, v, tra, bi, hee, ok, idl⟩ := transmit_via (addressByte u.cfg.lcdAddr .w) (addr_even _) [u.cfg.selData, c] (indexP i u) he
    have hx : putStringP i (c :: cs) u = andThen (transmitP (addressByte u.cfg.lcdAddr .w) [u.cfg.selData, c] (indexP i u)) (putStringP (i + 1) cs) := rfl
    rw [hx]
    generalize transmitP (addressByte u.cfg.lcdAddr .w) [u.cfg.selData, c] (indexP i u) = y at *
    obtain ⟨t, r⟩ := y
    have v := v0.nil_left v
    have ok : IdealOracle u → r = .ok := ok
    have idl : IdealOracle u → u.per.bus = .free → tr = Act.ideal (actsOf.lcd u.cfg u.cfg.selData c) := idl
    cases r with
    | err => exact ⟨hee, ok, ⟨tr, v, .frameErr tra, fun h => by cases ok h⟩, fun _ _ => bi, fun h => (by cases h), fun _ => bi.bus⟩
    | ok =>
      have ih := ih (i + 1) t hee
      rw [show t.cfg = u.cfg from v.cfg] at ih
      obtain ⟨r1, r2, ⟨tr', v', ac, r3⟩, r4, r5, r6⟩ := ih
      refine ⟨r1, fun h => r2 (v.ideal h), ⟨_, v.trans v', .frame tra ac, fun h hf => ?_⟩, fun _ hla => ?_, fun h => (by cases h), fun h => r6 bi.bus⟩
      · rw [idl h hf, r3 (v.ideal h) bi.bus]; rfl
      · cases hc : cs with
        | nil =>
          have := r5 (by rw [hc]; rfl)
          rw [hc] at this
          have e : putStringP (i + 1) [] t = (t, .ok) := rfl
          show BusIdle (putStringP (i+1) [] t).1
          exact bi
        | cons d ds =>
          rw [← hc]
          refine r4 (by rw [hc]; simp) fun a ha => ?_
          have : ∀ a ∈ (cs.map (actsOf.lcd u.cfg u.cfg.selData)), ¬ a.isWait := by
            intro a ha; obtain ⟨x, _, rfl⟩ := List.mem_map.1 ha; exact fun h => h
          exact this a (List.mem_of_getLast? ha)

theorem body_acts (i : Instr) (acts) (u : State) (h : actsOf u.cfg i = some acts) (hw : i.wf = true) (he : u.per.ev = none) :
    isCommand i = true ∧ (∀ a, acts.getLast? = some a → ¬ a.isWait) ∧ Performed u.cfg.clearDelayOnError acts u (bodyP i u) := by
  have one : ∀ a : Act, acts = [a] → a.even → bodyP i u = actP u a → ¬ a.isWait → (∀ a, acts.getLast? = some a → ¬ a.isWait) ∧ Performed u.cfg.clearDelayOnError acts u (bodyP i u) := by
    rintro a rfl ha hb hn
    rw [hb, ← actsP_one]
    exact ⟨fun b hb => by simp at hb; subst hb; exact hn, acts_res _ u he (by simpa using ha)⟩
  have lst : ∀ (a : Act) (as : List Act), (∀ b, (a :: as).getLast? = some b → ¬ b.isWait) ↔ (∀ b, (a :: as).getLast? = some b → ¬ b.isWait) := fun _ _ => Iff.rfl
  cases i with
  | transmitOne a b => injection h with h; exact ⟨rfl, one _ h.symm (by show (a <<< 1).getLsbD 0 = false; simp) (by show transmitP (writeAddress a) [b] u = _; rw [writeAddress_eq]; rfl) (fun h => h)⟩
  | transmitTwo a b c => injection h with h; exact ⟨rfl, one _ h.symm (by show (a <<< 1).getLsbD 0 = false; simp) (by show transmitP (writeAddress a) [b, c] u = _; rw [writeAddress_eq]; rfl) (fun h => h)⟩
  | transmitMany a b => injection h with h; exact ⟨rfl, one _ h.symm (by show (a <<< 1).getLsbD 0 = false; simp) (by show transmitP (writeAddress a) b u = _; rw [writeAddress_eq]; rfl) (fun h => h)⟩
  | dispInit =>
    refine ⟨rfl, ?_, ?_⟩
    · injection h with h; subst h; intro a ha; simp at ha; subst ha; exact fun h => h
    · show Performed _ _ _ (dispInitP u.cfg u)
      rw [dispInit_acts u acts h]
      refine acts_res _ u he ?_
      injection h with h; subst h
      intro a ha
      simp only [List.mem_cons, List.not_mem_nil, or_false] at ha
      rcases ha with h | h | h | h | h | h | h | h | h | h | h | h | h <;> subst h <;> first | trivial | exact addr_even _
  | clear => injection h with h; exact ⟨rfl, one _ h.symm (addr_even _) rfl (fun h => h)⟩
  | home => injection h with h; exact ⟨rfl, one _ h.symm (addr_even _) rfl (fun h => h)⟩
  | setCursor c r =>
    injection h with h
    refine ⟨rfl, one _ h.symm (addr_even _) ?_ (fun h => h)⟩
    show cmdP (cursorByte u.cfg c r) u = _
    have : cursorByte u.cfg c r = c ||| rowBase u.cfg r := BitVec.and_allOnes (w := 8)
    rw [this]; rfl
  | putChar c => injection h with h; exact ⟨rfl, one _ h.symm (addr_even _) rfl (fun h => h)⟩
  | putString str =>
    injection h with h; subst h
    refine ⟨rfl, ?_, putString_res str 0 u he⟩
    intro a ha hh
    obtain ⟨x, _, rfl⟩ := List.mem_map.1 (List.mem_of_getLast? ha); exact hh
  | setBlReg r v => injection h with h; exact ⟨rfl, one _ h.symm (addr_even _) rfl (fun h => h)⟩
  | setBlRgb r g b =>
    injection h with h; subst h
    refine ⟨rfl, by intro a ha; simp at ha; subst ha; exact fun h => h, ?_⟩
    show Performed _ _ _ (setBlRgbP u.cfg r g b u)
    rw [setBlRgb_acts]
    exact acts_res _ u he (by intro a ha; simp only [List.mem_cons, List.not_mem_nil, or_false] at ha; rcases ha with h | h | h <;> subst h <;> exact addr_even _)
  | setBlColor r g b =>
    injection h with h; subst h
    refine ⟨rfl, by intro a ha; simp at ha; subst ha; exact fun h => h, ?_⟩
    show Performed _ _ _ (setBlRgbP u.cfg r g b u)
    rw [setBlRgb_acts]
    exact acts_res _ u he (by intro a ha; simp only [List.mem_cons, List.not_mem_nil, or_false] at ha; rcases ha with h | h | h <;> subst h <;> exact addr_even _)
  | _ => cases h

end Sys2Proof.Machine
end

