-- ==== Sys2Proof/Laws/PerInstr.lean ====
section
/-! SUPPORT. One lemma per instruction about its words: the length and the fixed bits its row of the opcode table gives it. -/

namespace Sys2Proof.Laws.RowPattern

/-- The row of an instruction: its length in bytes, and the mask and match of its first byte. -/
structure Row where
  length : Nat
  mask : Byte
  bits : Byte

/-- 30_encoding.md R101, R110, R113 to R116: the rows. COMMAND_FRAME and CHARACTER_FRAME begin with the configured selectors; a
descriptor of ILLEGAL has no fixed bit but that it spells no opcode. -/
def row (cfg : Cfg) : Instr → Row
  | .busInit => ⟨1, 0xFF#8, 0x01#8⟩
  | .beginTx _ => ⟨2, 0xFF#8, 0x02#8⟩
  | .endTx => ⟨1, 0xFF#8, 0x03#8⟩
  | .writeByte _ => ⟨2, 0xFF#8, 0x04#8⟩
  | .writeBytes buf => ⟨2 + buf.length, 0xFF#8, 0x05#8⟩
  | .readAck => ⟨1, 0xFF#8, 0x06#8⟩
  | .readNack => ⟨1, 0xFF#8, 0x07#8⟩
  | .readBytes _ => ⟨2, 0xFF#8, 0x08#8⟩
  | .transmitOne _ _ => ⟨3, 0xFF#8, 0x09#8⟩
  | .transmitTwo _ _ _ => ⟨4, 0xFF#8, 0x0A#8⟩
  | .transmitMany _ buf => ⟨3 + buf.length, 0xFF#8, 0x0B#8⟩
  | .dispInit => ⟨1, 0xFF#8, 0x10#8⟩
  | .clear => ⟨1, 0xFF#8, 0x11#8⟩
  | .home => ⟨1, 0xFF#8, 0x12#8⟩
  | .setCursor _ _ => ⟨3, 0xFF#8, 0x13#8⟩
  | .putChar _ => ⟨2, 0xFF#8, 0x14#8⟩
  | .putString str => ⟨2 + str.length, 0xFF#8, 0x15#8⟩
  | .setBlReg _ _ => ⟨3, 0xFF#8, 0x16#8⟩
  | .setBlRgb _ _ _ => ⟨4, 0xFF#8, 0x17#8⟩
  | .setBlColor _ _ _ => ⟨4, 0xFF#8, 0x18#8⟩
  | .illegal d => ⟨d.length, 0x00#8, 0x00#8⟩
  | .start => ⟨1, 0xF5#8, 0xA4#8⟩
  | .sendAddr => ⟨1, 0xF5#8, 0x84#8⟩
  | .sendData => ⟨1, 0xF5#8, 0x84#8⟩
  | .recvAck => ⟨1, 0xF5#8, 0xC4#8⟩
  | .recvNack => ⟨1, 0xF5#8, 0x84#8⟩
  | .stop => ⟨1, 0xF5#8, 0x94#8⟩
  | .ctrlUndefined _ _ => ⟨1, 0x80#8, 0x80#8⟩
  | .lcdClear => ⟨1, 0xFF#8, 0x01#8⟩
  | .lcdHome _ => ⟨1, 0xFE#8, 0x02#8⟩
  | .lcdEntryMode _ _ => ⟨1, 0xFC#8, 0x04#8⟩
  | .lcdDisplayControl _ _ _ => ⟨1, 0xF8#8, 0x08#8⟩
  | .lcdFunctionSet _ _ _ _ => ⟨1, 0xE0#8, 0x20#8⟩
  | .lcdSetDdram _ => ⟨1, 0x80#8, 0x80#8⟩
  | .addressByte _ _ => ⟨1, 0x00#8, 0x00#8⟩
  | .commandFrame _ => ⟨2, 0xFF#8, cfg.selCmd⟩
  | .characterFrame _ => ⟨2, 0xFF#8, cfg.selData⟩
  | .backlightFrame _ _ => ⟨2, 0x00#8, 0x00#8⟩

/-- Under every configuration, a well-formed instruction encodes to as many bytes as its row says, the first with the row's fixed
bits. -/
def Statement (i : Instr) : Prop :=
  ∀ cfg : Cfg, i.wf = true → (encode cfg i).length = (row cfg i).length
    ∧ ∀ b : Byte, (encode cfg i).head? = some b → b &&& (row cfg i).mask = (row cfg i).bits

/-- A first byte that is all fixed bits, or has none. -/
theorem of_head {cfg : Cfg} {i : Instr} {c : Byte} {rest : List Byte} (he : encode cfg i = c :: rest)
    (hl : rest.length + 1 = (row cfg i).length) (hm : c &&& (row cfg i).mask = (row cfg i).bits) :
    (encode cfg i).length = (row cfg i).length
      ∧ ∀ b : Byte, (encode cfg i).head? = some b → b &&& (row cfg i).mask = (row cfg i).bits := by
  refine ⟨by rw [he]; exact hl, fun b hb => ?_⟩
  rw [he] at hb
  injection hb with hb; subst hb; exact hm

theorem busInit : Statement .busInit := fun _ _ =>
  of_head rfl rfl (show (0x01#8 : Byte) &&& 0xFF#8 = 0x01#8 by decide)

theorem beginTx (a : Byte) : Statement (.beginTx a) := fun _ _ =>
  of_head rfl rfl (show (0x02#8 : Byte) &&& 0xFF#8 = 0x02#8 by decide)

theorem endTx : Statement .endTx := fun _ _ =>
  of_head rfl rfl (show (0x03#8 : Byte) &&& 0xFF#8 = 0x03#8 by decide)

theorem writeByte (a : Byte) : Statement (.writeByte a) := fun _ _ =>
  of_head rfl rfl (show (0x04#8 : Byte) &&& 0xFF#8 = 0x04#8 by decide)

theorem writeBytes (a : List Byte) : Statement (.writeBytes a) := fun _ _ =>
  of_head rfl (Nat.add_comm (a.length + 1) 1 |>.trans (by show 1 + (a.length + 1) = 2 + a.length; omega)) (show (0x05#8 : Byte) &&& 0xFF#8 = 0x05#8 by decide)

theorem readAck : Statement .readAck := fun _ _ =>
  of_head rfl rfl (show (0x06#8 : Byte) &&& 0xFF#8 = 0x06#8 by decide)

theorem readNack : Statement .readNack := fun _ _ =>
  of_head rfl rfl (show (0x07#8 : Byte) &&& 0xFF#8 = 0x07#8 by decide)

theorem readBytes (a : Byte) : Statement (.readBytes a) := fun _ _ =>
  of_head rfl rfl (show (0x08#8 : Byte) &&& 0xFF#8 = 0x08#8 by decide)

theorem transmitOne (a b : Byte) : Statement (.transmitOne a b) := fun _ _ =>
  of_head rfl rfl (show (0x09#8 : Byte) &&& 0xFF#8 = 0x09#8 by decide)

theorem transmitTwo (a b c : Byte) : Statement (.transmitTwo a b c) := fun _ _ =>
  of_head rfl rfl (show (0x0A#8 : Byte) &&& 0xFF#8 = 0x0A#8 by decide)

theorem transmitMany (a : Byte) (b : List Byte) : Statement (.transmitMany a b) := fun _ _ =>
  of_head rfl (Nat.add_comm (b.length + 2) 1 |>.trans (by show 1 + (b.length + 2) = 3 + b.length; omega)) (show (0x0B#8 : Byte) &&& 0xFF#8 = 0x0B#8 by decide)

theorem dispInit : Statement .dispInit := fun _ _ =>
  of_head rfl rfl (show (0x10#8 : Byte) &&& 0xFF#8 = 0x10#8 by decide)

theorem clear : Statement .clear := fun _ _ =>
  of_head rfl rfl (show (0x11#8 : Byte) &&& 0xFF#8 = 0x11#8 by decide)

theorem home : Statement .home := fun _ _ =>
  of_head rfl rfl (show (0x12#8 : Byte) &&& 0xFF#8 = 0x12#8 by decide)

theorem setCursor (a b : Byte) : Statement (.setCursor a b) := fun _ _ =>
  of_head rfl rfl (show (0x13#8 : Byte) &&& 0xFF#8 = 0x13#8 by decide)

theorem putChar (a : Byte) : Statement (.putChar a) := fun _ _ =>
  of_head rfl rfl (show (0x14#8 : Byte) &&& 0xFF#8 = 0x14#8 by decide)

theorem putString (a : List Byte) : Statement (.putString a) := fun _ _ =>
  of_head rfl (Nat.add_comm (a.length + 1) 1 |>.trans (by show 1 + (a.length + 1) = 2 + a.length; omega)) (show (0x15#8 : Byte) &&& 0xFF#8 = 0x15#8 by decide)

theorem setBlReg (a b : Byte) : Statement (.setBlReg a b) := fun _ _ =>
  of_head rfl rfl (show (0x16#8 : Byte) &&& 0xFF#8 = 0x16#8 by decide)

theorem setBlRgb (a b c : Byte) : Statement (.setBlRgb a b c) := fun _ _ =>
  of_head rfl rfl (show (0x17#8 : Byte) &&& 0xFF#8 = 0x17#8 by decide)

theorem setBlColor (a b c : Byte) : Statement (.setBlColor a b c) := fun _ _ =>
  of_head rfl rfl (show (0x18#8 : Byte) &&& 0xFF#8 = 0x18#8 by decide)

theorem illegal (a : List Byte) : Statement (.illegal a) := fun _ _ =>
  ⟨rfl, fun _ _ => BitVec.and_zero⟩

theorem start : Statement .start := fun _ _ =>
  of_head rfl rfl (show (0xA4#8 : Byte) &&& 0xF5#8 = 0xA4#8 by decide)

theorem sendAddr : Statement .sendAddr := fun _ _ =>
  of_head rfl rfl (show (0x84#8 : Byte) &&& 0xF5#8 = 0x84#8 by decide)

theorem sendData : Statement .sendData := fun _ _ =>
  of_head rfl rfl (show (0x84#8 : Byte) &&& 0xF5#8 = 0x84#8 by decide)

theorem recvAck : Statement .recvAck := fun _ _ =>
  of_head rfl rfl (show (0xC4#8 : Byte) &&& 0xF5#8 = 0xC4#8 by decide)

theorem recvNack : Statement .recvNack := fun _ _ =>
  of_head rfl rfl (show (0x84#8 : Byte) &&& 0xF5#8 = 0x84#8 by decide)

theorem stop : Statement .stop := fun _ _ =>
  of_head rfl rfl (show (0x94#8 : Byte) &&& 0xF5#8 = 0x94#8 by decide)

theorem trigger_bit {v : Byte} (h : v.getLsbD 7 = true) : v &&& 0x80#8 = 0x80#8 := by
  revert v; decide

theorem ctrlUndefined (a : Byte) (b : XMode) : Statement (.ctrlUndefined a b) := fun _ h =>
  of_head rfl rfl (trigger_bit (Bool.and_eq_true_iff.1 h).1)

theorem lcdClear : Statement .lcdClear := fun _ _ =>
  of_head rfl rfl (show (0x01#8 : Byte) &&& 0xFF#8 = 0x01#8 by decide)

theorem lcdHome (a : Bool) : Statement (.lcdHome a) := fun _ _ =>
  of_head rfl rfl ((by decide : ∀ a : Bool, bits8 false false false false false false true a &&& 0xFE#8 = 0x02#8) a)

theorem lcdEntryMode (a b : Bool) : Statement (.lcdEntryMode a b) := fun _ _ =>
  of_head rfl rfl ((by decide : ∀ a b : Bool, bits8 false false false false false true a b &&& 0xFC#8 = 0x04#8) a b)

theorem lcdDisplayControl (a b c : Bool) : Statement (.lcdDisplayControl a b c) := fun _ _ =>
  of_head rfl rfl ((by decide : ∀ a b c : Bool, bits8 false false false false true a b c &&& 0xF8#8 = 0x08#8) a b c)

theorem lcdFunctionSet (a b c : Bool) (d : BitVec 2) : Statement (.lcdFunctionSet a b c d) := fun _ _ =>
  of_head rfl rfl ((by decide : ∀ (a b c : Bool) (d : BitVec 2),
    bits8 false false true a b c (d.getLsbD 1) (d.getLsbD 0) &&& 0xE0#8 = 0x20#8) a b c d)

theorem lcdSetDdram (a : BitVec 7) : Statement (.lcdSetDdram a) := fun _ _ =>
  of_head rfl rfl ((by decide : ∀ a : BitVec 7, (1#1 ++ a : Byte) &&& 0x80#8 = 0x80#8) a)

theorem addressByte (a : Addr7) (b : Dir) : Statement (.addressByte a b) := fun _ _ =>
  of_head rfl rfl BitVec.and_zero

theorem commandFrame (a : Byte) : Statement (.commandFrame a) := fun _ _ =>
  of_head rfl rfl (BitVec.and_allOnes (w := 8))

theorem characterFrame (a : Byte) : Statement (.characterFrame a) := fun _ _ =>
  of_head rfl rfl (BitVec.and_allOnes (w := 8))

theorem backlightFrame (a b : Byte) : Statement (.backlightFrame a b) := fun _ _ =>
  of_head rfl rfl BitVec.and_zero

end Sys2Proof.Laws.RowPattern
end

