-- ==== Sys2Proof/Laws/Place.lean ====
section
/-! SUPPORT. Continuations in their place (Safety.Coherent), body by body, and what a trigger, a call and a peripheral step do to the
invariant. -/

namespace Sys2Proof.Machine

theorem head_inPlace {cfg : Cfg} {cont : List Task} {pos ph} (h : Coherent cont .err pos ph) :
    (unwind cfg cont = [] → pos.landed ∧ pos.fits ph) ∧
    (∀ t rest, unwind cfg cont = t :: rest → inPlace (Coherent rest) .err pos ph t.op) := by
  induction cont with
  | nil => exact ⟨fun _ => h, fun t rest e => by cases e⟩
  | cons a as ih =>
    obtain ⟨op, g⟩ := a
    cases g with
    | onOk => exact ih h
    | always =>
      refine ⟨fun e => (by cases e), fun t rest e => ?_⟩
      have : ({ op := op, guard := .always } : Task) :: as = t :: rest := e
      injection this with e1 e2; subst e1; subst e2; exact h
    | clearDelay =>
      obtain ⟨hd, hk⟩ := h
      cases hf : cfg.clearDelayOnError with
      | true =>
        have hu : unwind cfg ({ op := op, guard := .clearDelay } :: as) = { op := op, guard := .clearDelay } :: as := by
          simp [unwind, runsAfterErr, hf]
        rw [hu]
        refine ⟨fun e => (by cases e), fun t rest e => ?_⟩
        injection e with e1 e2; subst e1; subst e2
        cases op <;> first | exact hk | cases hd
      | false =>
        have hu : unwind cfg ({ op := op, guard := .clearDelay } :: as) = unwind cfg as := by
          simp [unwind, runsAfterErr, hf]
        rw [hu]; exact ih hk

theorem pending_inPlace {s : State} {pos ph} (h : Coherent s.sqr.cont s.sqr.bound.res pos ph) :
    (pending s = [] → pos.landed ∧ pos.fits ph) ∧
    (∀ t rest, pending s = t :: rest → inPlace (Coherent rest) s.sqr.bound.res pos ph t.op) := by
  unfold pending
  cases hr : s.sqr.bound.res with
  | ok =>
    rw [hr] at h
    refine ⟨fun e => ?_, fun t rest e => ?_⟩
    · simp only at e; rw [e] at h; exact h
    · simp only at e; rw [e] at h; exact h
  | err => rw [hr] at h; exact head_inPlace h

theorem co_send {rest : List Task} {b : Byte} {st : Stage} {m m' : XMode} {ph : Phase}
    (hm : (m = .xaddr ∧ m' = (if b.getLsbD 0 then .xmr else .xmt)) ∨ (m = .xmt ∧ m' = .xmt))
    (h1 : Coherent rest .ok (.settled m') (phaseAfter st ph)) (h2 : Coherent rest .err (.settled m') .failed) :
    Coherent (sendTasks b st ++ rest) .ok (.settled m) ph := by
  refine ⟨m, rfl, ?_⟩
  rcases hm with ⟨rfl, rfl⟩ | ⟨rfl, rfl⟩
  · refine .inr (.inr (.inl ⟨rfl, .inl ⟨b, rfl, ⟨_, rfl, ⟨_, rfl, h1, h2⟩⟩⟩⟩))
  · refine .inr (.inr (.inl ⟨rfl, .inr (.inl ⟨b, rfl, ⟨_, rfl, ⟨_, rfl, h1, h2⟩⟩⟩)⟩))

theorem co_begin {rest : List Task} {ab : Byte} {pos : Pos} {ph : Phase} (hl : pos.landed)
    (h1 : Coherent rest .ok (.settled (dirMode (dirOf ab))) (phaseAfter (.addr (dirOf ab)) ph))
    (h2 : ∀ m, Coherent rest .err (.settled m) .failed) : Coherent (beginBody ab ++ rest) .ok pos ph :=
  .inl ⟨rfl, hl, _, rfl, _, rfl, ⟨rfl, rfl, h1, h2 _⟩, h2 _⟩

theorem co_end {rest : List Task} {res : Res} {pos : Pos} {ph : Phase} (hl : pos.landed)
    (h : Coherent rest res .anywhere .idle) : Coherent (endBody ++ rest) res pos ph := by
  cases res <;> exact .inr (.inl ⟨rfl, hl, h⟩)

theorem co_transmit {rest : List Task} {ab : Byte} {buf : List Byte} (hab : ab.getLsbD 0 = false) {pos : Pos} {ph : Phase}
    (hl : pos.landed) (h1 : Coherent rest .ok .anywhere .idle) (h2 : Coherent rest .err .anywhere .idle) :
    Coherent (transmitBody ab buf ++ rest) .ok pos ph := by
  have e : transmitBody ab buf ++ rest = beginBody ab ++ ([onOk (.writeBytes 0 buf)] ++ (endBody ++ rest)) := by
    simp [transmitBody, writeBytesBody]
  rw [e]
  refine co_begin hl ?_ fun m => ?_
  · have : dirOf ab = .w := by unfold dirOf; rw [hab]; rfl
    rw [this]
    exact ⟨rfl, rfl, co_end trivial h1, co_end trivial h2⟩
  · exact co_end (res := .err) trivial h2

theorem co_lcd (c : Byte) {k pos ph} (h : afterTransaction k .ok pos) : inPlace k .ok pos ph (.run (lcdInstr c)) := by
  have key : ∀ c : Byte, lcdInstr c = .commandFrame c ∨ ((lcdInstr c).layer = .lcdCmd) := by decide
  rcases key c with e | e
  · rw [e]; exact h
  · generalize lcdInstr c = i at e
    cases i <;> first | exact h | cases e

/-- The command bodies from a landed READY place. -/
theorem co_body {i : Instr} {o f adm out body} {s : State} (hi : isCommand i = true) (e : exec i s = accept o f adm out body s)
    {t : State} (hf : s.fault = none) (hn : exec i s = .next t) (ht : t.fault = none) {pos : Pos} (hl : pos.landed) (hp : pos.fits s.sqr.phase) :
    t.sqr.seq = .busy ∧ t.per = s.per ∧ t.sqr.phase = s.sqr.phase ∧ Coherent t.sqr.cont t.sqr.bound.res pos s.sqr.phase := by
  have done : ∀ {o f adm out body}, accept o f adm out body s = .next t → (adm = true → Coherent body .ok pos s.sqr.phase) →
    t.sqr.seq = .busy ∧ t.per = s.per ∧ t.sqr.phase = s.sqr.phase ∧ Coherent t.sqr.cont t.sqr.bound.res pos s.sqr.phase := by
    intro o f adm out body h hc
    obtain ⟨-, -, ha, rfl⟩ := accept_next hf h ht
    exact ⟨rfl, rfl, rfl, hc ha⟩
  have hany : ∀ ph : Phase, ph = .idle ∨ ph = .failed → Coherent [] .ok .anywhere ph ∧ Coherent [] .err .anywhere ph := by
    rintro ph (rfl|rfl) <;> exact ⟨⟨trivial, trivial⟩, ⟨trivial, trivial⟩⟩
  have hfail : ∀ m, Coherent [] .err (.settled m) .failed := fun m => ⟨trivial, trivial⟩
  have tr : ∀ (ab : Byte) buf, ab.getLsbD 0 = false → Coherent (transmitBody ab buf) .ok pos s.sqr.phase := by
    intro ab buf hab
    have := co_transmit (rest := []) (buf := buf) (ph := s.sqr.phase) hab hl ⟨trivial, trivial⟩ ⟨trivial, trivial⟩
    rwa [List.append_nil] at this
  have aft : ∀ {rest}, Coherent rest .ok .anywhere .idle → Coherent rest .err .anywhere .idle → ∀ pos : Pos, pos.landed → afterTransaction (Coherent rest) .ok pos :=
    fun h1 h2 pos hl => ⟨rfl, hl, h1, h2⟩
  have cmd : ∀ {rest} (c : Byte), Coherent rest .ok .anywhere .idle → Coherent rest .err .anywhere .idle → ∀ (pos : Pos) (ph), pos.landed → Coherent (cmdBody c ++ rest) .ok pos ph :=
    fun {rest} c h1 h2 pos ph hl => co_lcd c (aft h1 h2 pos hl)
  have bl : ∀ {rest} (a b : Byte), Coherent rest .ok .anywhere .idle → Coherent rest .err .anywhere .idle → ∀ (pos : Pos) (ph), pos.landed → Coherent (blWriteBody a b ++ rest) .ok pos ph :=
    fun {rest} a b h1 h2 pos ph hl => (aft h1 h2 pos hl)
  have n1 : Coherent [] .ok .anywhere .idle := ⟨trivial, trivial⟩
  have n2 : Coherent [] .err .anywhere .idle := ⟨trivial, trivial⟩
  cases i with
  | busInit => exact done ((exec_busInit s).symm.trans hn) fun _ => ⟨hl, hp⟩
  | beginTx ab =>
    refine done ((exec_beginTx s ab).symm.trans hn) fun _ => ?_
    have := co_begin (rest := []) (ab := ab) (ph := s.sqr.phase) hl (by cases dirOf ab <;> exact ⟨trivial, rfl⟩) hfail
    rwa [List.append_nil] at this
  | endTx =>
    refine done ((exec_endTx s).symm.trans hn) fun _ => ?_
    have := co_end (rest := []) (res := .ok) (ph := s.sqr.phase) hl n1
    rwa [List.append_nil] at this
  | writeByte b =>
    refine done ((exec_writeByte s b).symm.trans hn) fun ha => ?_
    have hw : s.sqr.phase = .write := by simpa using ha
    rw [hw] at hp ⊢
    cases hp
    have := co_send (rest := []) (b := b) (st := .data) (m := .xmt) (ph := .write) (.inr ⟨rfl, rfl⟩) ⟨trivial, rfl⟩ (hfail _)
    rwa [List.append_nil] at this
  | writeBytes buf =>
    refine done ((exec_writeBytes s buf).symm.trans hn) fun ha => ?_
    have hw : s.sqr.phase = .write := by simpa using ha
    rw [hw] at hp ⊢
    cases hp
    exact ⟨rfl, rfl, ⟨trivial, rfl⟩, hfail _⟩
  | readAck =>
    refine done ((exec_readAck s).symm.trans hn) fun ha => ?_
    have hw : s.sqr.phase = .read := by simpa using ha
    rw [hw] at hp ⊢
    cases hp
    exact .inr (.inr (.inr ⟨rfl, rfl, _, rfl, _, rfl, trivial, rfl⟩))
  | readNack =>
    refine done ((exec_readNack s).symm.trans hn) fun ha => ?_
    have hw : s.sqr.phase = .read := by simpa using ha
    rw [hw] at hp ⊢
    cases hp
    exact .inr (.inr (.inl ⟨rfl, .inr (.inr ⟨rfl, _, rfl, _, rfl, trivial, rfl⟩)⟩))
  | readBytes n =>
    refine done ((exec_readBytes s n).symm.trans hn) fun ha => ?_
    have hw : s.sqr.phase = .read := by simpa using ha
    rw [hw] at hp ⊢
    cases hp
    exact ⟨rfl, rfl, trivial, rfl⟩
  | transmitOne a b => exact done ((exec_transmitOne s a b).symm.trans hn) fun _ => tr _ _ (getLsbD_zero_writeAddress _)
  | transmitTwo a b c => exact done ((exec_transmitTwo s a b c).symm.trans hn) fun _ => tr _ _ (getLsbD_zero_writeAddress _)
  | transmitMany a b => exact done ((exec_transmitMany s a b).symm.trans hn) fun _ => tr _ _ (getLsbD_zero_writeAddress _)
  | dispInit =>
    refine done ((exec_dispInit s).symm.trans hn) fun _ => ?_
    have dl : ∀ (t : Nat) {r : List Task} {pos ph}, Coherent r .ok pos ph → Coherent (onOk (.delay t) :: r) .ok pos ph := fun _ _ _ _ h => h
    generalize s.cfg = c
    have c1 := bl c.regMode2 c.valMode2 n1 n2 .anywhere .idle trivial
    have c2 := bl c.regOutput c.valOutput c1 n2 .anywhere .idle trivial
    have c3 := bl c.regMode1 c.valMode1 c2 n2 .anywhere .idle trivial
    have c4 := cmd (entryModeByte c) c3 n2 .anywhere .idle trivial
    have c5 : Coherent (onOk .clearBody :: (cmdBody (entryModeByte c) ++ (blWriteBody c.regMode1 c.valMode1 ++ (blWriteBody c.regOutput c.valOutput ++ (blWriteBody c.regMode2 c.valMode2 ++ []))))) .ok .anywhere .idle := aft c4 n2 .anywhere trivial
    have c6 := cmd (displayControlByte c) c5 n2 .anywhere .idle trivial
    have c7 := cmd (functionSetByte c) c6 n2 .anywhere .idle trivial
    have c8 := cmd (functionSetByte c) c7 n2 .anywhere .idle trivial
    have c9 := cmd (functionSetByte c) (dl c.tFs2 c8) n2 .anywhere .idle trivial
    have c10 := cmd (functionSetByte c) (dl c.tFs1 c9) n2 pos s.sqr.phase hl
    exact c10
  | clear =>
    refine done ((exec_clear s).symm.trans hn) fun _ => ?_
    exact cmd _ (rest := [{ op := .delay s.cfg.tClear, guard := .clearDelay }]) n1 ⟨trivial, n2⟩ _ _ hl
  | home =>
    refine done ((exec_home s).symm.trans hn) fun _ => ?_
    exact cmd _ (rest := [{ op := .delay s.cfg.tHome, guard := .clearDelay }]) n1 ⟨trivial, n2⟩ _ _ hl
  | setCursor c ro => exact done ((exec_setCursor s c ro).symm.trans hn) fun _ => cmd _ (rest := []) n1 n2 _ _ hl
  | putChar c => exact done ((exec_putChar s c).symm.trans hn) fun _ => aft n1 n2 _ hl
  | putString str =>
    refine done ((exec_putString s str).symm.trans hn) fun _ => ?_
    cases str with
    | nil => exact ⟨rfl, hl, hp⟩
    | cons c cs => exact aft n1 n2 _ hl
  | setBlReg reg val => exact done ((exec_setBlReg s reg val).symm.trans hn) fun _ => bl _ _ (rest := []) n1 n2 _ _ hl
  | setBlRgb r g b =>
    exact done ((exec_setBlRgb s r g b).symm.trans hn) fun _ => bl _ _ (bl _ _ (bl _ _ (rest := []) n1 n2 _ _ trivial) n2 _ _ trivial) n2 _ _ hl
  | setBlColor r g b =>
    exact done ((exec_setBlColor s r g b).symm.trans hn) fun _ => bl _ _ (bl _ _ (bl _ _ (rest := []) n1 n2 _ _ trivial) n2 _ _ trivial) n2 _ _ hl
  | _ => cases hi

/-- Rebuilding the invariant after an item. -/
theorem Inv.moved {s t : State} (h : Inv s) (hb : t.sqr.seq = .busy) {pos : Pos}
   (h1 : t.per.ctrl.ie = false) (h2 : t.per.ctrl.wc = false) (h3 : t.per.bus = .free ↔ t.per.xmode = .xidle)
   (h4 : t.per.ev.isSome → t.per.ctrl.int = false ∧ t.per.ctrl.sto = false) (h5 : t.per.ctrl.sto = true → t.per.ctrl.int = false)
   (h6 : pos.realized t.per) (h7 : Coherent t.sqr.cont t.sqr.bound.res pos t.sqr.phase) : Inv t :=
  ⟨h1, h2, h3, h4, h5, ⟨pos, h6, h7⟩, fun hr => by rw [hb] at hr; cases hr⟩

theorem Inv.same {s t : State} (h : Inv s) (hb : t.sqr.seq = .busy) {pos : Pos} (hp : t.per = s.per)
   (h6 : pos.realized s.per) (h7 : Coherent t.sqr.cont t.sqr.bound.res pos t.sqr.phase) : Inv t := by
  refine h.moved hb ?_ ?_ ?_ ?_ ?_ (pos := pos) ?_ h7 <;> rw [hp]
  exacts [h.ieClear, h.noCollision, h.busFree, h.evPending, h.stoPending, h6]

theorem decodeTrigger_84 (m : XMode) : decodeTrigger 0x84#8 m = (match m with | .xaddr => .sendAddr | .xmt => .sendData | .xmr => .recvNack | .xidle => .ctrlUndefined 0x84#8 .xidle) := by
  cases m <;> rfl

theorem inv_trigger {s t : State} (h : Inv s) (hf : s.fault = none) (hb : s.sqr.seq = .busy) {pos : Pos} (hr : pos.realized s.per)
    {v : Byte} {rest : List Task} (hv : v.getLsbD 7 = true) (hh : holds s (.write .ctrl v) = false)
    (hi : inPlace (Coherent rest) s.sqr.bound.res pos s.sqr.phase (.write .ctrl v))
    (hn : afterTrigger v rest (exec (decodeTrigger v s.per.xmode) s) = .next t) : Inv t ∧ t.fault = none := by
  have hsto : s.per.ctrl.sto = false := by simpa [holds, hv] using hh
  have hev : pos.landed → s.per.ev = none := by
    intro hl
    cases pos <;> simp_all [Pos.realized, Pos.landed]
  have hnf : pos.landed := by
    rcases hi with h | h | ⟨_, ⟨_, h, _⟩ | ⟨_, h, _⟩ | h⟩ | h
    · exact h.2.1
    · exact h.2.1
    · subst h; trivial
    · subst h; trivial
    · rw [h.1]; trivial
    · rw [h.2.1]; trivial
  have hev := hev hnf
  have fire : ∀ f : State → State, exec (decodeTrigger v s.per.xmode) s = trigger v true f s →
      (f { s with per := writeCtrlFields v s.per }).fault = none →
      t = logReg (.w .ctrl v) (pop rest (f { s with per := writeCtrlFields v s.per })) := by
    intro f e hff
    rw [e] at hn
    rcases trigger_cases v true f hf with c | c | c | c
    · rw [hsto] at c; cases c.1
    · rw [hev] at c; cases c.2.1
    · rw [c.2.2.2] at hn
      simp only [afterTrigger, hff] at hn
      injection hn with hn; exact hn.symm
    · cases c.2.2.1
  have mk : ∀ (e : Event), t = logReg (.w .ctrl v) (pop rest (beginEvent e { s with per := writeCtrlFields v s.per })) →
      v.getLsbD 4 = false → v.getLsbD 0 = false → triggerMode e s.per.xmode → Coherent rest s.sqr.bound.res (.flight e) s.sqr.phase → Inv t := by
    rintro e rfl h4 h0 hm hc
    refine h.moved hb (pos := .flight e) ?_ ?_ ?_ ?_ ?_ ?_ hc
    · simpa using h0
    · simpa using h.noCollision
    · simpa using h.busFree
    · intro _; exact ⟨by simp [hv], by simpa using h4⟩
    · intro hs; simp [hv]
    · exact ⟨by simpa using h4, .inl ⟨rfl, hm⟩⟩
  rcases hi with ⟨rfl, _, hk⟩ | ⟨rfl, _, hk⟩ | ⟨rfl, ⟨b, rfl, hk⟩ | ⟨b, rfl, hk⟩ | ⟨rfl, hk⟩⟩ | ⟨rfl, rfl, hk⟩
  · have := fire (beginEvent .start) (by rw [decodeTrigger_start]; rfl) hf
    exact ⟨mk _ this (by decide) (by decide) trivial hk, by rw [this]; exact hf⟩
  · have := fire (logBus .stop) (by rw [decodeTrigger_stop]; rfl) hf
    subst this
    refine ⟨h.moved hb (pos := .anywhere) rfl h.noCollision h.busFree ?_ ?_ hev hk, hf⟩
    · intro he
      have he : s.per.ev.isSome = true := he
      rw [hev] at he; cases he
    · intro _; rfl
  · obtain ⟨_, _, _, hm, hd⟩ := hr
    have := fire (beginEvent (.sendAddr s.per.data)) (by rw [decodeTrigger_84, hm]; rw [exec_sendAddr, hm]; rfl) hf
    rw [hd] at this
    exact ⟨mk _ this (by decide) (by decide) hm hk, by rw [this]; exact hf⟩
  · obtain ⟨_, _, _, hm, hd⟩ := hr
    have := fire (beginEvent (.sendData s.per.data)) (by rw [decodeTrigger_84, hm]; rw [exec_sendData, hm]; rfl) hf
    rw [hd] at this
    exact ⟨mk _ this (by decide) (by decide) hm hk, by rw [this]; exact hf⟩
  · obtain ⟨_, _, _, hm⟩ := hr
    have := fire (beginEvent .recvNack) (by rw [decodeTrigger_84, hm]; rw [exec_recvNack, hm]; rfl) hf
    exact ⟨mk _ this (by decide) (by decide) hm hk, by rw [this]; exact hf⟩
  · obtain ⟨_, _, _, hm⟩ := hr
    have := fire (beginEvent .recvAck) (by rw [hm]; rw [show decodeTrigger 0xC4#8 .xmr = .recvAck from rfl, exec_recvAck, hm]; rfl) hf
    exact ⟨mk _ this (by decide) (by decide) hm hk, by rw [this]; exact hf⟩

theorem dirOf_addressByte (a : Addr7) (d : Dir) : (addressByte a d).getLsbD 0 = (match d with | .w => false | .r => true) := by
  cases d <;> revert a <;> decide

theorem inv_expand {s t : State} (h : Inv s) (hf : s.fault = none) (hb : s.sqr.seq = .busy) {pos : Pos} (hr : pos.realized s.per) {body : List Task}
    {rest : List Task} (hn : expand body (pop rest s) = .next t) (hc : Coherent (body ++ rest) s.sqr.bound.res pos s.sqr.phase) : Inv t ∧ t.fault = none := by
  rw [expand_next body (s := pop rest s) hf] at hn
  injection hn with hn; subst hn
  exact ⟨h.same hb (pos := pos) rfl hr hc, hf⟩

theorem inv_peripheral {s : State} (h : Inv s) : Inv (peripheralStep s) := by
  unfold peripheralStep
  split
  · rename_i hs
    obtain ⟨pos, hreal, hco⟩ := h.placed
    have hp : pos = .anywhere := by
      cases pos <;> simp_all [Pos.realized]
    subst hp
    have hev : s.per.ev = none := hreal
    refine ⟨h.ieClear, h.noCollision, ⟨fun _ => rfl, fun _ => rfl⟩, ?_, ?_, ⟨.anywhere, hreal, hco⟩, h.atRest⟩
    · simp [hev]
    · simp
  · rename_i hs
    split
    · rename_i e he
      obtain ⟨pos, hreal, hco⟩ := h.placed
      have hp : pos = .flight e ∧ triggerMode e s.per.xmode := by
        cases pos <;> simp_all [Pos.realized]
      obtain ⟨rfl, hm⟩ := hp
      have hsto : s.per.ctrl.sto = false := by simpa using hs
      have hmode : modeAfter e s.per.xmode = eventMode e := by
        cases e <;> simp_all [triggerMode, modeAfter, eventMode]
      refine ⟨h.ieClear, h.noCollision, ?_, ?_, ?_, ⟨.flight e, ⟨hsto, .inr ⟨rfl, rfl, hmode⟩⟩, hco⟩, h.atRest⟩
      · rw [complete_bus, complete_xmode, hmode]
        have := h.busFree
        cases e with
        | start => simp [busAfter, eventMode]
        | sendAddr b =>
          have hm : s.per.xmode = .xaddr := hm
          rw [hm] at this
          simp [busAfter, eventMode] at this ⊢
          split <;> simp [this]
        | sendData b =>
          have hm : s.per.xmode = .xmt := hm
          rw [hm] at this
          simp [busAfter, eventMode] at this ⊢; exact this
        | recvAck =>
          have hm : s.per.xmode = .xmr := hm
          rw [hm] at this
          simp [busAfter, eventMode] at this ⊢; exact this
        | recvNack =>
          have hm : s.per.xmode = .xmr := hm
          rw [hm] at this
          simp [busAfter, eventMode] at this ⊢; exact this
      · simp
      · simp [hsto]
    · exact h

end Sys2Proof.Machine
end

