-- ==== Sys2Proof/Laws/Step.lean ====
section
/-! SUPPORT. Everything one step of the machine can do, said once. -/

namespace Sys2Proof.Machine

/-- A sequencer item other than a trigger, a call and the end: what it leaves as it was. -/
structure Worked (s t : State) : Prop where
  cfg : t.cfg = s.cfg
  fault : t.fault = s.fault
  env : t.env = s.env
  trace : s.obs.trace <+: t.obs.trace
  regTrace : s.obs.regTrace <+: t.obs.regTrace
  reports : t.obs.reports = s.obs.reports
  seen : t.obs.seen = s.obs.seen
  seq : t.sqr.seq = s.sqr.seq
  result : t.sqr.result = s.sqr.result
  rdata : t.sqr.rdata = s.sqr.rdata

/-- What the agent whose turn it is can make of a state that is not marked. -/
inductive Moved (s : State) : State → Prop where
  | stays : Moved s s
  | did {t : State} : Did s t → Moved s t
  | called {t : State} (rest : List Task) : Did (pop rest s) t → t.fault = none → Moved s t
  | triggered {t : State} (v : Byte) (rest : List Task) : Did s t → t.fault = none → Moved s (logReg (.w .ctrl v) (pop rest t))
  | works {t : State} : Worked s t → Moved s t
  | finishes : s.sqr.seq = .busy → Moved s (finish s)
  | peripheral : Moved s (peripheralStep s)
  | reads (r : Res) : s.sqr.result = some r →
      Moved s { s with obs := { s.obs with seen := s.obs.seen ++ [(resultBit r, s.sqr.rdata)] } }
  | delayEnds : Moved s (delayUnitStep s)

theorem moved_exec (i : Instr) {s t : State} (hf : s.fault = none) (h : exec i s = .next t) : Moved s t := by
  obtain ⟨t', e, d⟩ := exec_did i hf
  rw [h] at e; injection e with e; subst e; exact .did d

theorem moved_raise (f : Fault) {s t : State} (h : raise f s = .next t) : Moved s t := by
  injection h with h; subst h; exact .did (.faulted f)

theorem runOp_moved (op : Op) (rest : List Task) {s t : State} (hf : s.fault = none) (h : runOp op rest s = .next t) : Moved s t := by
  have plain : ∀ u : State, runOp op rest s = .next u → Worked s u → Moved s t := by
    intro u e w; rw [e] at h; injection h with h; subst h; exact .works w
  cases op with
  | write r v =>
    simp only [runOp] at h plain
    split at h
    · obtain ⟨t', e, d⟩ := exec_did (decodeTrigger v s.per.xmode) hf
      rw [e] at h
      simp only [afterTrigger] at h
      split at h
      · injection h with h; subst h; exact .did d
      · rename_i h0
        injection h with h; subst h
        exact .triggered v rest d (by simpa using h0)
    · rename_i hc
      rw [if_neg hc] at plain
      exact plain _ rfl ⟨rfl, rfl, rfl, List.prefix_refl _, ⟨_, rfl⟩, rfl, rfl, rfl, rfl, rfl⟩
  | run i =>
    obtain ⟨t', e, d⟩ := exec_did i (s := pop rest s) hf
    have h : afterCall s (exec i (pop rest s)) = .next t := h
    rw [e] at h
    simp only [afterCall] at h
    split at h
    · rename_i hs
      injection h with h; subst h
      cases hx : t'.fault with
      | none => rw [hx] at hs; cases hs
      | some f => exact .did (.faulted f)
    · rename_i hs
      injection h with h; subst h
      exact .called rest d (by simpa using hs)
  | check st =>
    refine plain _ rfl ⟨?_, ?_, ?_, ?_, ?_, ?_, ?_, ?_, ?_, ?_⟩ <;> (unfold checkStatus; dsimp only; split)
    all_goals first | rfl | exact List.prefix_refl _ | exact ⟨_, rfl⟩
  | wait => exact plain _ rfl ⟨rfl, rfl, rfl, List.prefix_refl _, ⟨_, rfl⟩, rfl, rfl, rfl, rfl, rfl⟩
  | take => exact plain _ rfl ⟨rfl, rfl, rfl, List.prefix_refl _, ⟨_, rfl⟩, rfl, rfl, rfl, rfl, rfl⟩
  | delay n => exact plain _ rfl ⟨rfl, rfl, rfl, ⟨_, rfl⟩, ⟨_, rfl⟩, rfl, rfl, rfl, rfl, rfl⟩
  | setPhase p => exact plain _ rfl ⟨rfl, rfl, rfl, List.prefix_refl _, List.prefix_refl _, rfl, rfl, rfl, rfl, rfl⟩
  | clearBody => exact plain _ rfl ⟨rfl, rfl, rfl, List.prefix_refl _, List.prefix_refl _, rfl, rfl, rfl, rfl, rfl⟩
  | writeBytes i b =>
    cases b <;> exact plain _ rfl ⟨rfl, rfl, rfl, List.prefix_refl _, List.prefix_refl _, rfl, rfl, rfl, rfl, rfl⟩
  | readBytes i b =>
    cases b <;> exact plain _ rfl ⟨rfl, rfl, rfl, List.prefix_refl _, List.prefix_refl _, rfl, rfl, rfl, rfl, rfl⟩
  | putString i b =>
    cases b <;> exact plain _ rfl ⟨rfl, rfl, rfl, List.prefix_refl _, List.prefix_refl _, rfl, rfl, rfl, rfl, rfl⟩

theorem sequencerStep_moved {s t : State} (hf : s.fault = none) (h : sequencerStep s = .next t) : Moved s t := by
  unfold sequencerStep at h
  split at h
  · injection h with h; subst h; exact .stays
  · rename_i hc
    have hb : s.sqr.seq = .busy := by
      cases hs : s.sqr.seq with
      | busy => rfl
      | ready => exact absurd (.inl hs) hc
    split at h
    · injection h with h; subst h; exact .finishes hb
    · split at h
      · injection h with h; subst h; exact .stays
      · exact runOp_moved _ _ hf h

/-- Everything a step can do: it starts from a machine that is not marked, the scheduler and the host's queue may have moved on, and the
agent has done one of the things above. -/
theorem step_moved {s t : State} (h : step s = .next t) : s.fault = none ∧
    ∃ queue sched, Moved { s with env := { s.env with host := queue, sched := sched } } t := by
  have hf : s.fault = none := by
    cases hf : s.fault with
    | none => rfl
    | some f => unfold step stepOnce at h; rw [unlessFaulted_some hf] at h; cases h
  refine ⟨hf, ?_⟩
  unfold step stepOnce at h
  rw [unlessFaulted_none hf] at h
  split at h
  · obtain ⟨sched, hs⟩ : ∃ sched, (nextAgent s).2 = { s with env := { s.env with host := s.env.host, sched := sched } } := by
      unfold nextAgent; split
      · exact ⟨_, rfl⟩
      · exact ⟨_, rfl⟩
    rw [hs] at h
    generalize (nextAgent s).1 = a at h
    cases a with
    | peripheral => injection h with h; subst h; exact ⟨_, _, .peripheral⟩
    | delayUnit => injection h with h; subst h; exact ⟨_, _, .delayEnds⟩
    | sequencer => exact ⟨_, _, sequencerStep_moved (by exact hf) h⟩
    | host =>
      have h : hostStep _ = .next t := h
      unfold hostStep at h
      split at h
      · injection h with h; subst h; exact ⟨_, _, .stays⟩
      · rename_i a rest _
        cases a with
        | present d =>
          refine ⟨rest, sched, ?_⟩
          simp only [presentDescriptor] at h
          split at h
          · exact moved_raise _ h
          · split at h
            · exact moved_raise _ h
            · exact moved_exec _ (by exact hf) h
        | readResult =>
          simp only [readResult] at h
          split at h
          · exact ⟨rest, sched, moved_raise _ h⟩
          · rename_i r hr
            split at h
            · injection h with h; subst h; exact ⟨_, _, .stays⟩
            · injection h with h; subst h; exact ⟨rest, sched, .reads r hr⟩
  · cases h

/-! ### The end of a run -/

theorem any_presents {q : List HostAction} : q.any presents = false ↔ ∀ d, .present d ∉ q := by
  rw [List.any_eq_false]
  constructor
  · intro h d hd; exact h _ hd rfl
  · intro h a ha
    cases a with
    | present d => exact (h d ha).elim
    | readResult => simp [presents]

/-- R359, condition by condition. -/
theorem runEnded_iff {s : State} : runEnded s = true ↔
    s.sqr.seq = .ready ∧ s.per.ctrl.sto = false ∧ s.per.ev = none ∧ (∀ d, .present d ∉ s.env.host) ∧ s.fault = none := by
  rw [← any_presents]
  simp [runEnded, and_assoc]

theorem observation_ended {s : State} (h : runEnded s = true) : observation s = some (s.obs.trace, s.obs.reports) :=
  if_pos h

end Sys2Proof.Machine
end

