-- ==== Sys2Proof/Laws/Turns.lean ====
section
/-! SUPPORT. The step of the agent whose turn it is, the faults of acceptance, and the run of a body to its command's end. -/

namespace Sys2Proof.Machine

theorem step_turn {a s later} (h : Turn a s later) : step s = agentStep a (onward later s) := by
  unfold step stepOnce
  rw [unlessFaulted_none h.faultless, h.legal]
  simp only [nextAgent, h.turn, if_true]
  rfl

theorem step_itemNext {t rest s later} (h : ItemNext t rest s later) (hh : holds s t.op = false) : step s = runOp t.op rest (onward later s) := by
  rw [step_turn h.toTurn]
  show sequencerStep _ = _
  have hp : pending (onward later s) = t :: rest := h.head
  unfold sequencerStep
  rw [hp]
  have : ¬ ((onward later s).sqr.seq = .ready ∨ (onward later s).sqr.delay.isSome = true) := by
    simp [onward, h.busy, h.noDelay]
  rw [if_neg this]
  show (if holds s t.op = true then _ else _) = _
  rw [hh]; rfl

theorem step_held {t rest s later} (h : ItemNext t rest s later) (hh : holds s t.op = true) : step s = .next (onward later s) := by
  rw [step_turn h.toTurn]
  show sequencerStep _ = _
  have hp : pending (onward later s) = t :: rest := h.head
  unfold sequencerStep
  rw [hp]
  have : ¬ ((onward later s).sqr.seq = .ready ∨ (onward later s).sqr.delay.isSome = true) := by
    simp [onward, h.busy, h.noDelay]
  rw [if_neg this]
  show (if holds s t.op = true then _ else _) = _
  rw [hh]; rfl

theorem trigger_fires {s : State} (h : TriggerReady s) (v : Byte) (f) {d : Bool} (hd : d = true) : trigger v d f s = .next (f { s with per := writeCtrlFields v s.per }) := by
  subst hd; exact trigger_begins h.faultless h.evNone h.noStop v f

theorem accept_phase {o out body} {s : State} (hf : s.fault = none) (hr : s.sqr.seq = .ready) {adm} (ha : adm = false) :
    accept o none adm out body s = .next { s with fault := some .phase } := by
  subst ha; unfold accept; rw [unlessFaulted_none hf, hr]; rfl

theorem accept_operand {o out body f adm} {s : State} (hf : s.fault = none) (hr : s.sqr.seq = .ready) :
    accept o (some f) adm out body s = .next { s with fault := some f } := by
  unfold accept; rw [unlessFaulted_none hf, hr]; rfl

theorem accept_busy {o f adm out body} {s : State} (hf : s.fault = none) (hr : s.sqr.seq = .busy) :
    accept o f adm out body s = .next { s with fault := some .reentrant } := by
  unfold accept; rw [unlessFaulted_none hf, hr]; rfl

theorem run_does {u : State} (q : Quiet u) (hb : u.sqr.seq = .busy) (hr : u.sqr.bound.res = .ok) {body : List Task}
   (hc : u.sqr.cont = body) {x : Ran} (h : ∀ (_ : Running (stopped u)), Does body (stopped u) x) : Reaches u (finishWith x) := by
  have hs : Running (stopped u) := by
    unfold stopped; split
    · exact ⟨q.legal, q.faultless, q.live, q.default, hb, q.evNone, rfl, q.noDelay⟩
    · rename_i hh; exact ⟨q.legal, q.faultless, q.live, q.default, hb, q.evNone, by simpa using hh, q.noDelay⟩
  have h1 : Reaches u (stopped u) := by
    unfold stopped; split
    · rename_i hh; exact .of_step (step_performs_stop q.legal q.faultless q.live q.default hh)
    · exact .refl _
  have hcs : (stopped u).sqr.cont = body := by unfold stopped; split <;> exact hc
  obtain ⟨c, hc', hx, hres, hcfg, hok, herr⟩ := h hs []
  have h2 : pop (body ++ []) (stopped u) = stopped u := by
    rw [List.append_nil, ← hcs]; rfl
  rw [h2] at hc'
  refine h1.trans (hc'.trans ?_)
  have r0 : Running (pop c (withRes x.2 x.1)) :=
    ⟨hx.legal, hx.faultless, hx.live, hx.default, hx.busy, hx.evNone, hx.noStop, hx.noDelay⟩
  have hp : pending (pop c (withRes x.2 x.1)) = [] := by
    rcases hxx : x.2 with _ | _
    · rw [pending_ok rfl]; exact hok hxx
    · rw [pending_err rfl]
      show unwind x.1.cfg c = []
      rw [hcfg, herr hxx]; rfl
  exact .of_step (r0.step_finish hp)

end Sys2Proof.Machine
end

