-- ==== Sys2Proof/Tests/Slice0.lean ====
section
/-! SUPPORT. The model's own tests: the well-formedness smoke, words written out from the tables of 30_encoding.md, one step of each
instruction against 95_test_vectors.md, and a witness for the hypotheses of every statement. -/

namespace Sys2Proof.Tests

open Sys2Proof Sys2Proof.Machine

/-! ### Ill-formed terms (R104, R103, R111) -/

theorem test_wf_refuses_long_buffers :
    (Instr.writeBytes (List.replicate 256 0x41#8)).wf = false ∧ (Instr.transmitMany 0x3E#8 (List.replicate 256 0x41#8)).wf = false
      ∧ (Instr.putString (List.replicate 256 0x41#8)).wf = false := by
  simp only [Instr.wf, List.length_replicate]
  decide

theorem test_wf_refuses_zero_count : (Instr.readBytes 0x00#8).wf = false := by decide

theorem test_wf_refuses_eight_bit_addresses :
    (Instr.transmitOne 0x80#8 0x55#8).wf = false ∧ (Instr.transmitTwo 0x80#8 0x55#8 0x56#8).wf = false
      ∧ (Instr.transmitMany 0xFF#8 []).wf = false := by decide

theorem test_wf_refuses_row_two : (Instr.setCursor 0x05#8 0x02#8).wf = false := by decide

theorem test_wf_refuses_zero_in_string : (Instr.putString [0x41#8, 0x00#8]).wf = false := by decide

theorem test_wf_refuses_spelled_illegal : (Instr.illegal [0x01#8]).wf = false ∧ (Instr.illegal [0x18#8, 0x00#8]).wf = false := by
  decide

theorem test_wf_refuses_defined_triggers :
    (Instr.ctrlUndefined 0xAC#8 .xidle).wf = false ∧ (Instr.ctrlUndefined 0x84#8 .xmt).wf = false
      ∧ (Instr.ctrlUndefined 0x04#8 .xidle).wf = false := by decide

theorem test_wf_accepts_the_bounds :
    (Instr.writeBytes (List.replicate 255 0x41#8)).wf = true ∧ (Instr.readBytes 0xFF#8).wf = true ∧ (Instr.readBytes 0x01#8).wf = true
      ∧ (Instr.transmitMany 0x7F#8 []).wf = true ∧ (Instr.setCursor 0xFF#8 0x01#8).wf = true ∧ (Instr.putString []).wf = true
      ∧ (Instr.illegal []).wf = true ∧ (Instr.ctrlUndefined 0xC4#8 .xmt).wf = true := by
  simp only [Instr.wf, List.length_replicate]
  decide

/-! ### Words from the tables (R101, R110, R111, R113 to R116) -/

/-- Decoding under the default configuration. -/
def decodes (l : Layer) (bytes : List Byte) (i : Instr) : Prop :=
  decode Config.default l bytes = .ok i

theorem test_decode_bus_commands :
    decodes .hostCmd [0b00000001#8] .busInit ∧ decodes .hostCmd [0b00000010#8, 0x7C#8] (.beginTx 0x7C#8)
      ∧ decodes .hostCmd [0b00000011#8] .endTx ∧ decodes .hostCmd [0b00000100#8, 0x41#8] (.writeByte 0x41#8)
      ∧ decodes .hostCmd [0b00000101#8, 0x02#8, 0x01#8, 0x02#8] (.writeBytes [0x01#8, 0x02#8])
      ∧ decodes .hostCmd [0b00000110#8] .readAck ∧ decodes .hostCmd [0b00000111#8] .readNack
      ∧ decodes .hostCmd [0b00001000#8, 0xFF#8] (.readBytes 0xFF#8) := ⟨rfl, rfl, rfl, rfl, rfl, rfl, rfl, rfl⟩

theorem test_decode_transmits :
    decodes .hostCmd [0b00001001#8, 0x3E#8, 0x01#8] (.transmitOne 0x3E#8 0x01#8)
      ∧ decodes .hostCmd [0b00001010#8, 0x3E#8, 0x80#8, 0x01#8] (.transmitTwo 0x3E#8 0x80#8 0x01#8)
      ∧ decodes .hostCmd [0b00001011#8, 0x62#8, 0x02#8, 0x04#8, 0xFF#8] (.transmitMany 0x62#8 [0x04#8, 0xFF#8]) := ⟨rfl, rfl, rfl⟩

theorem test_decode_display_commands :
    decodes .hostCmd [0b00010000#8] .dispInit ∧ decodes .hostCmd [0b00010001#8] .clear ∧ decodes .hostCmd [0b00010010#8] .home
      ∧ decodes .hostCmd [0b00010011#8, 0x05#8, 0x01#8] (.setCursor 0x05#8 0x01#8)
      ∧ decodes .hostCmd [0b00010100#8, 0x41#8] (.putChar 0x41#8)
      ∧ decodes .hostCmd [0b00010101#8, 0x02#8, 0x48#8, 0x69#8] (.putString [0x48#8, 0x69#8])
      ∧ decodes .hostCmd [0b00010110#8, 0x04#8, 0x80#8] (.setBlReg 0x04#8 0x80#8)
      ∧ decodes .hostCmd [0b00010111#8, 0x10#8, 0x20#8, 0x30#8] (.setBlRgb 0x10#8 0x20#8 0x30#8)
      ∧ decodes .hostCmd [0b00011000#8, 0x10#8, 0x20#8, 0x30#8] (.setBlColor 0x10#8 0x20#8 0x30#8) :=
  ⟨rfl, rfl, rfl, rfl, rfl, rfl, rfl, rfl, rfl⟩

theorem test_decode_illegal :
    decodes .hostCmd [] (.illegal []) ∧ decodes .hostCmd [0x00#8] (.illegal [0x00#8])
      ∧ decodes .hostCmd [0x0C#8] (.illegal [0x0C#8]) ∧ decodes .hostCmd [0x0F#8] (.illegal [0x0F#8])
      ∧ decodes .hostCmd [0x19#8] (.illegal [0x19#8]) ∧ decodes .hostCmd [0xFF#8, 0x01#8] (.illegal [0xFF#8, 0x01#8]) :=
  ⟨rfl, rfl, rfl, rfl, rfl, rfl⟩

/-- V-BMC-12c, V-BMC-16d, V-BMC-20c, V-DPL-15b, and a missing count byte (R102). -/
theorem test_decode_rejects_lengths :
    decodeDescriptor [0x05#8, 0x03#8, 0x01#8, 0x02#8] = .error .badLength ∧ decodeDescriptor [0x08#8, 0x00#8, 0x00#8] = .error .badLength
      ∧ decodeDescriptor [0x0B#8, 0x3E#8, 0x02#8, 0x01#8] = .error .badLength
      ∧ decodeDescriptor [0x15#8, 0x03#8, 0x41#8, 0x42#8] = .error .badLength
      ∧ decodeDescriptor [0x05#8] = .error .badLength ∧ decodeDescriptor [0x0B#8, 0x3E#8] = .error .badLength := ⟨rfl, rfl, rfl, rfl, rfl, rfl⟩

theorem test_decode_triggers :
    decodes (.ctrlTrigger .xidle) [0b10100100#8] .start ∧ decodes (.ctrlTrigger .xaddr) [0b10000100#8] .sendAddr
      ∧ decodes (.ctrlTrigger .xmt) [0b10000100#8] .sendData ∧ decodes (.ctrlTrigger .xmr) [0b11000100#8] .recvAck
      ∧ decodes (.ctrlTrigger .xmr) [0b10000100#8] .recvNack ∧ decodes (.ctrlTrigger .xmt) [0b10010100#8] .stop := ⟨rfl, rfl, rfl, rfl, rfl, rfl⟩

/-- V-PER-1, V-PER-1b: bits 3 and 1 are ignored. -/
theorem test_decode_ignored_bits :
    decodeTrigger 0xAC#8 .xidle = .start ∧ decodeTrigger 0xA6#8 .xidle = .start ∧ decodeTrigger 0x9E#8 .xmr = .stop := by decide

/-- V-PER-2 to V-PER-5, and a value with bit 7 clear (R163). -/
theorem test_decode_undefined_triggers :
    decodeTrigger 0x84#8 .xidle = .ctrlUndefined 0x84#8 .xidle ∧ decodeTrigger 0xA5#8 .xmt = .ctrlUndefined 0xA5#8 .xmt
      ∧ decodeTrigger 0xB4#8 .xaddr = .ctrlUndefined 0xB4#8 .xaddr ∧ decodeTrigger 0xC4#8 .xmt = .ctrlUndefined 0xC4#8 .xmt
      ∧ decode Config.default (.ctrlTrigger .xmt) [0x04#8] = .error .notATrigger := ⟨rfl, rfl, rfl, rfl, rfl⟩

theorem test_decode_lcd_commands :
    decodes .lcdCmd [0b00000001#8] .lcdClear ∧ decodes .lcdCmd [0b00000010#8] (.lcdHome false)
      ∧ decodes .lcdCmd [0b00000110#8] (.lcdEntryMode true false) ∧ decodes .lcdCmd [0b00001110#8] (.lcdDisplayControl true true false)
      ∧ decodes .lcdCmd [0b00101000#8] (.lcdFunctionSet false true false 0#2)
      ∧ decodes .lcdCmd [0b11000101#8] (.lcdSetDdram 0b1000101#7) := ⟨rfl, rfl, rfl, rfl, rfl, rfl⟩

/-- R117: the cursor-shift and set-CGRAM patterns have no row. -/
theorem test_decode_rejects_lcd_bytes :
    decodeLcd 0b00010000#8 = none ∧ decodeLcd 0b01000000#8 = none ∧ decodeLcd 0x00#8 = none := by decide

theorem test_decode_wire :
    decodes .wireAddress [0b01111100#8] (.addressByte 0x3E#7 .w) ∧ decodes .wireAddress [0b11000101#8] (.addressByte 0x62#7 .r)
      ∧ decodes .wireDisplay [0b10000000#8, 0x01#8] (.commandFrame 0x01#8) ∧ decodes .wireDisplay [0b01000000#8, 0x41#8] (.characterFrame 0x41#8)
      ∧ decodes .wireBacklight [0b00001000#8, 0xFF#8] (.backlightFrame 0x08#8 0xFF#8)
      ∧ decode Config.default .wireDisplay [0x00#8, 0x41#8] = .error .notAFrame := ⟨rfl, rfl, rfl, rfl, rfl, rfl⟩

/-! ### States of the tests -/

/-- Right after reset, with these answers to come. -/
def ready (as : List Answer) : State :=
  { State.reset with env := { Env.reset with script := as } }

/-- READY with a transaction open in this phase: its last event complete, the mode it implies. -/
def opened (ph : Phase) (m : XMode) (as : List Answer) : State :=
  { ready as with
    per := { Periph.reset with
      ctrl := { int := true, ea := false, sta := false, sto := false, wc := false, en := true, ie := false }
      xmode := m, bus := .held }
    sqr := { Sequencer.reset with phase := ph } }

/-- An open write transaction. -/
def writing (as : List Answer) : State := opened .write .xmt as

/-- An open read transaction. -/
def reading (as : List Answer) : State := opened .read .xmr as

/-- A stop is still pending. -/
def stopping : State :=
  { State.reset with per := { Periph.reset with
      ctrl := { int := false, ea := false, sta := false, sto := true, wc := false, en := true, ie := false }, xmode := .xmt, bus := .held } }

/-- A status code drawn with a data byte. -/
def answer (sc : BitVec 5) (d : Byte) : Answer := { sc := sc, data := d }

/-- What a field of the next state is. -/
def next? {α : Type} (f : State → α) (a : Answered) : Option α :=
  match a with
  | .next t => some (f t)
  | .fault _ => none
  | .refused _ => none

/-- The latch, the acceptance and the mark. -/
def taken (t : State) : Seq × List Byte × Option Fault := (t.sqr.seq, descriptorOf t.sqr.opnd, t.fault)

/-! ### One step of each instruction -/

theorem test_busInit : next? taken (exec .busInit State.reset) = some (.busy, [0x01#8], none) := by decide

/-- V-BMC-1, V-BMC-2a to 2c. -/
theorem test_busInit_divisor :
    bitRate Config.default = 0x48#8 ∧ bitRate { Config.default with fCpu := 8000000 } = 0x20#8
      ∧ bitRate { Config.default with fScl := 400000 } = 0x0C#8 ∧ bitRate { Config.default with fScl := 31250 } = 0xF8#8 := by decide

theorem test_beginTx : next? taken (exec (.beginTx 0xC5#8) stopping) = some (.busy, [0x02#8, 0xC5#8], none) := by decide

theorem test_endTx : next? taken (exec .endTx (writing [])) = some (.busy, [0x03#8], none) := by decide

theorem test_writeByte : next? taken (exec (.writeByte 0x41#8) (writing [])) = some (.busy, [0x04#8, 0x41#8], none) := by decide

/-- V-BMC-10g. -/
theorem test_writeByte_phase : next? taken (exec (.writeByte 0x41#8) (reading [])) = some (.ready, [], some .phase) := by decide

theorem test_writeBytes : next? taken (exec (.writeBytes [0x01#8, 0x02#8]) (writing [])) = some (.busy, [0x05#8, 0x02#8, 0x01#8, 0x02#8], none) := by
  decide

/-- V-BMC-11b. -/
theorem test_writeBytes_phase : next? taken (exec (.writeBytes []) State.reset) = some (.ready, [], some .phase) := by decide

theorem test_readAck : next? taken (exec .readAck (reading [])) = some (.busy, [0x06#8], none) := by decide

/-- V-BMC-14b. -/
theorem test_readAck_phase : next? taken (exec .readAck (opened .readDone .xmr [])) = some (.ready, [], some .phase) := by decide

theorem test_readNack : next? taken (exec .readNack (reading [])) = some (.busy, [0x07#8], none) := by decide

theorem test_readBytes : next? taken (exec (.readBytes 0x03#8) (reading [])) = some (.busy, [0x08#8, 0x03#8], none) := by decide

/-- V-BMC-16b: the operand check comes first. -/
theorem test_readBytes_zero : next? taken (exec (.readBytes 0x00#8) State.reset) = some (.ready, [], some .readCountZero) := by decide

theorem test_transmitOne : next? taken (exec (.transmitOne 0x3E#8 0x00#8) State.reset) = some (.busy, [0x09#8, 0x3E#8, 0x00#8], none) := by decide

/-- V-BMC-20b. -/
theorem test_transmitOne_address : next? taken (exec (.transmitOne 0x80#8 0x55#8) State.reset) = some (.ready, [], some .badOperand) := by decide

theorem test_transmitTwo :
    next? taken (exec (.transmitTwo 0x3E#8 0x80#8 0x01#8) (opened .failed .xaddr [])) = some (.busy, [0x0A#8, 0x3E#8, 0x80#8, 0x01#8], none) := by
  decide

theorem test_transmitMany :
    next? taken (exec (.transmitMany 0x62#8 [0x04#8]) State.reset) = some (.busy, [0x0B#8, 0x62#8, 0x01#8, 0x04#8], none) := by decide

/-- V-BMC-20: the largest address, shifted. -/
theorem test_transmit_address : writeAddress 0x7F#8 = 0xFE#8 ∧ writeAddress 0x3E#8 = 0x7C#8 ∧ writeAddress 0x62#8 = 0xC4#8 := by decide

theorem test_dispInit : next? taken (exec .dispInit State.reset) = some (.busy, [0x10#8], none) := by decide

/-- V-DPL-3a to 3e: FS, DC and EM. -/
theorem test_dispInit_bytes :
    functionSetByte Config.default = 0x28#8 ∧ functionSetByte { Config.default with rows := 1 } = 0x20#8
      ∧ functionSetByte { Config.default with rows := 1, dots := .dots5x10 } = 0x24#8
      ∧ displayControlByte { Config.default with cursor := true, blink := true } = 0x0F#8
      ∧ entryModeByte { Config.default with entryId := false, entryS := true } = 0x05#8 := by decide

theorem test_clear : next? taken (exec .clear (writing [])) = some (.busy, [0x11#8], none) := by decide

theorem test_home : next? taken (exec .home State.reset) = some (.busy, [0x12#8], none) := by decide

/-- V-DPL-9, V-DPL-10 to 10d, 10f. -/
theorem test_setCursor_byte :
    cursorByte Config.default 0x3F#8 0x00#8 = 0xBF#8 ∧ cursorByte Config.default 0x3F#8 0x01#8 = 0xFF#8
      ∧ cursorByte Config.default 0x40#8 0x00#8 = 0xC0#8 ∧ cursorByte Config.default 0x80#8 0x00#8 = 0x80#8
      ∧ cursorByte { Config.default with rows := 1 } 0x05#8 0x01#8 = 0xC5#8 := by decide

/-- V-DPL-10e. -/
theorem test_setCursor_row : next? taken (exec (.setCursor 0x05#8 0x02#8) State.reset) = some (.ready, [], some .badOperand) := by decide

/-- V-DPL-11b: 0x00 is a character. -/
theorem test_putChar : next? taken (exec (.putChar 0x00#8) State.reset) = some (.busy, [0x14#8, 0x00#8], none) := by decide

theorem test_putString : next? taken (exec (.putString [0x48#8]) State.reset) = some (.busy, [0x15#8, 0x01#8, 0x48#8], none) := by decide

/-- V-DPL-15. -/
theorem test_putString_zero : next? taken (exec (.putString [0x41#8, 0x00#8]) State.reset) = some (.ready, [], some .badOperand) := by decide

/-- V-DPL-16b: the register index is not checked. -/
theorem test_setBlReg : next? taken (exec (.setBlReg 0xFF#8 0x00#8) State.reset) = some (.busy, [0x16#8, 0xFF#8, 0x00#8], none) := by decide

theorem test_setBlRgb :
    next? taken (exec (.setBlRgb 0x10#8 0x20#8 0x30#8) State.reset) = some (.busy, [0x17#8, 0x10#8, 0x20#8, 0x30#8], none) := by decide

theorem test_setBlColor :
    next? taken (exec (.setBlColor 0xFF#8 0xFF#8 0xFF#8) State.reset) = some (.busy, [0x18#8, 0xFF#8, 0xFF#8, 0xFF#8], none) := by decide

theorem test_illegal : next? taken (exec (.illegal [0x19#8]) State.reset) = some (.ready, [], some .badOpcode) := by decide

/-- The event in flight and the CTRL byte after a trigger. -/
def flight (t : State) : Option Event × Byte := (t.per.ev, readReg .ctrl t)

/-- R153; bit 7 of the CTRL byte reads 0 until the event completes. -/
theorem test_start : next? flight (exec .start State.reset) = some (some .start, 0x24#8) := by decide

theorem test_sendAddr : next? flight (exec .sendAddr (opened .idle .xaddr [])) = some (some (.sendAddr 0xFF#8), 0x04#8) := by decide

theorem test_sendData : next? flight (exec .sendData (writing [])) = some (some (.sendData 0xFF#8), 0x04#8) := by decide

theorem test_recvAck : next? flight (exec .recvAck (reading [])) = some (some .recvAck, 0x44#8) := by decide

theorem test_recvNack : next? flight (exec .recvNack (reading [])) = some (some .recvNack, 0x04#8) := by decide

/-- V-BMC-9: CTRL reads 0x14 until the stop is performed. -/
theorem test_stop : next? (fun t => (flight t, t.obs.trace)) (exec .stop (writing [])) = some ((none, 0x14#8), [.stop]) := by decide

/-- V-BMC-9: then 0x04, and STATUS reads 0xF8. -/
theorem test_stop_performed : readReg .ctrl (performStop stopping) = 0x04#8 ∧ readReg .status (performStop stopping) = 0xF8#8 := by decide

/-- V-PER-6: the in-flight check comes first. -/
theorem test_trigger_in_flight :
    next? (·.fault) (exec .sendData { writing [] with per := { (writing []).per with ev := some .start } }) = some (some .triggerInFlight) := by
  decide

/-- V-PER-4. -/
theorem test_ctrlUndefined : next? (·.fault) (exec (.ctrlUndefined 0xB4#8 .xidle) State.reset) = some (some .ctrlUndefined) := by decide

/-- V-PER-7, V-PER-8, V-PER-8b, V-PER-9: writes that trigger nothing. -/
theorem test_plain_writes :
    next? (fun t => (readReg .ctrl t, t.per.ev)) (runOp (.write .ctrl 0x04#8) [] (writing [])) = some (0x84#8, none)
      ∧ next? (fun t => (t.per.data, t.per.ctrl.wc)) (runOp (.write .data 0x12#8) [] State.reset) = some (0xFF#8, true)
      ∧ next? (fun t => (t.per.data, t.per.ctrl.wc)) (runOp (.write .data 0x12#8) [] (writing [])) = some (0x12#8, false)
      ∧ next? (fun t => statusCode (readReg .status t)) (runOp (.write .status 0xFF#8) []
          { State.reset with per := { Periph.reset with status := { sc := 0b00011#5, ps := 0#2 } } }) = some 0x18#8 := by decide

/-- R359: a READY machine with nothing left to do has ended its run; a pending stop, an event in flight, a descriptor still to present, a
fault or a running command keeps it from having ended, and a read of RESULT still to come does not. -/
theorem test_runEnded :
    observation State.reset = some ([], []) ∧ runEnded stopping = false
      ∧ runEnded { State.reset with per := { Periph.reset with ev := some .start } } = false
      ∧ runEnded { State.reset with env := { Env.reset with host := [.readResult, .present [0x03#8]] } } = false
      ∧ runEnded { State.reset with env := { Env.reset with host := [.readResult] } } = true
      ∧ runEnded { State.reset with fault := some .noResult } = false
      ∧ runEnded { State.reset with sqr := { Sequencer.reset with seq := .busy } } = false := by decide

/-- R46, R150: a delay is in both traces. -/
theorem test_delay : next? (fun t => (t.obs.trace, t.obs.regTrace, t.sqr.delay)) (runOp (.delay 4500) [] State.reset)
    = some ([.delay 4500], [.delay 4500], some 4500) := by decide

/-- The calls a called LCD command or frame leaves to run. -/
def calls (t : State) : List Op := t.sqr.cont.map (·.op)

theorem test_lcdClear : next? calls (exec .lcdClear State.reset) = some [.run (.commandFrame 0x01#8)] := by decide

theorem test_lcdHome : next? calls (exec (.lcdHome true) State.reset) = some [.run (.commandFrame 0x03#8)] := by decide

theorem test_lcdEntryMode : next? calls (exec (.lcdEntryMode false true) State.reset) = some [.run (.commandFrame 0x05#8)] := by decide

theorem test_lcdDisplayControl :
    next? calls (exec (.lcdDisplayControl true false false) State.reset) = some [.run (.commandFrame 0x0C#8)] := by decide

theorem test_lcdFunctionSet :
    next? calls (exec (.lcdFunctionSet false true false 0b11#2) State.reset) = some [.run (.commandFrame 0x2B#8)] := by decide

theorem test_lcdSetDdram : next? calls (exec (.lcdSetDdram 0x45#7) State.reset) = some [.run (.commandFrame 0xC5#8)] := by decide

theorem test_addressByte :
    next? calls (exec (.addressByte 0x62#7 .r) State.reset)
      = some [.write .data 0xC5#8, .write .ctrl 0x84#8, .wait, .check (.addr .r)] := by decide

/-- V-DPL-1: stage 6's transaction. -/
theorem test_commandFrame :
    next? calls (exec (.commandFrame 0x01#8) State.reset)
      = some [.write .ctrl 0xA4#8, .wait, .check .start, .run (.addressByte 0x3E#7 .w), .writeBytes 0 [0x80#8, 0x01#8],
          .write .ctrl 0x94#8, .setPhase .idle] := by decide

theorem test_characterFrame :
    (next? calls (exec (.characterFrame 0x41#8) State.reset)).map (·[4]?) = some (some (.writeBytes 0 [0x40#8, 0x41#8])) := by decide

/-- V-DPL-1: stage 9's transaction. -/
theorem test_backlightFrame :
    (next? calls (exec (.backlightFrame 0x08#8 0xFF#8) State.reset)).map (fun l => (l[3]?, l[4]?))
      = some (some (.run (.addressByte 0x62#7 .w)), some (.writeBytes 0 [0x08#8, 0xFF#8])) := by decide

/-! ### Witnesses: states and operands that meet the hypotheses of the statements -/

theorem legal_default : legalCfg Config.default = true := by decide

/-- READY in a phase, with these answers to come. -/
theorem calm_opened {ph : Phase} {m : XMode} (as : List Answer) (hw : ph = .write → m = .xmt) (hr : ph = .read → m = .xmr) :
    Calm (opened ph m as) where
  legal := legal_default
  faultless := rfl
  live := rfl
  default := rfl
  evNone := rfl
  noDelay := rfl
  ready := rfl
  write := fun h => ⟨hw h, rfl, rfl⟩
  read := fun h => ⟨hr h, rfl⟩

theorem calm_writing (as : List Answer) : Calm (writing as) := calm_opened as (fun _ => rfl) (fun h => nomatch h)

theorem calm_reading (as : List Answer) : Calm (reading as) := calm_opened as (fun h => nomatch h) (fun _ => rfl)

/-- A READY machine whose phase is IDLE. -/
theorem calm_idle {s : State} (hc : s.cfg = Config.default) (hf : s.fault = none) (hl : s.env.live = true) (hs : s.env.sched = [])
    (he : s.per.ev = none) (hd : s.sqr.delay = none) (hr : s.sqr.seq = .ready) (hp : s.sqr.phase = .idle) : Calm s where
  legal := by rw [hc]; exact legal_default
  faultless := hf
  live := hl
  default := hs
  evNone := he
  noDelay := hd
  ready := hr
  write := fun h => by rw [hp] at h; cases h
  read := fun h => by rw [hp] at h; cases h

theorem calm_ready (as : List Answer) : Calm (ready as) := calm_idle rfl rfl rfl rfl rfl rfl rfl rfl

theorem calm_stopping : Calm stopping := calm_idle rfl rfl rfl rfl rfl rfl rfl rfl

/-- The same state with this agent's turn next. -/
def turned (a : Agent) (s : State) : State := { s with env := { s.env with sched := [a] } }

theorem turn_turned {a : Agent} {s : State} (hl : legalCfg s.cfg = true) (hf : s.fault = none) : Turn a (turned a s) [] := ⟨hl, hf, rfl⟩

/-- A running command with these items left. -/
def running (ts : List Task) (s : State) : State :=
  { s with sqr := { s.sqr with seq := .busy, cont := ts } }

/-- The sequencer's turn, with this item next. -/
def withItem (op : Op) (s : State) : State := turned .sequencer (running [onOk op] s)

theorem itemNext_withItem {op : Op} {s : State} (hl : legalCfg s.cfg = true) (hf : s.fault = none) (hd : s.sqr.delay = none)
    (hr : s.sqr.bound.res = .ok) : ItemNext (onOk op) [] (withItem op s) [] :=
  ⟨turn_turned hl hf, rfl, hd, pending_ok hr⟩

/-- The invariant of a running command on an open transaction, from its items being in place. -/
theorem inv_opened {ph : Phase} {m : XMode} {ts : List Task} (hm : m ≠ .xidle) (h : Coherent ts .ok (.settled m) ph) :
    Inv (running ts (opened ph m [])) where
  ieClear := rfl
  noCollision := rfl
  busFree := ⟨fun h => (nomatch h), fun h => absurd h hm⟩
  evPending := fun h => nomatch h
  stoPending := fun h => nomatch h
  placed := ⟨.settled m, ⟨rfl, rfl, rfl, rfl⟩, h⟩
  atRest := fun h => nomatch h

/-- The last transition of an open write transaction: END. -/
theorem inv_ending : Inv (running endBody (writing [])) :=
  inv_opened (by decide) (by simpa using co_end (rest := []) (res := .ok) (pos := .settled .xmt) (ph := .write) trivial ⟨trivial, trivial⟩)

/-- An acknowledged receive is next. -/
theorem inv_receiving : Inv (running recvAckTasks (reading [])) :=
  inv_opened (by decide) (.inr (.inr (.inr ⟨rfl, rfl, _, rfl, _, rfl, trivial, rfl⟩)))

/-- A data byte is next. -/
theorem inv_sending : Inv (running (sendTasks 0x41#8 .data) (writing [])) :=
  inv_opened (by decide) (by
    simpa using co_send (rest := []) (b := 0x41#8) (st := .data) (m := .xmt) (ph := .write) (.inr ⟨rfl, rfl⟩) ⟨trivial, rfl⟩ ⟨trivial, trivial⟩)

theorem witness_ControlReadComposesItsFields :
    (Op.wait = .wait ∨ Op.wait = .take ∨ ∃ st, Op.wait = .check st) ∧ (Op.check (.addr .r) = .wait ∨ Op.check (.addr .r) = .take ∨
      ∃ st, Op.check (.addr .r) = .check st) := ⟨.inl rfl, .inr (.inr ⟨_, rfl⟩)⟩

theorem witness_PlainControlWriteStartsNothing :
    (0x7F#8).getLsbD 7 = false ∧ Inv (running endBody (writing []))
      ∧ pending (running endBody (writing [])) = always (.write .ctrl 0x94#8) :: [always (.setPhase .idle)] := ⟨rfl, inv_ending, rfl⟩

theorem witness_DataWriteNeedsTheFlag :
    Inv (running (sendTasks 0x41#8 .data) (writing []))
      ∧ pending (running (sendTasks 0x41#8 .data) (writing []))
        = onOk (.write .data 0x41#8) :: [onOk (.write .ctrl 0x84#8), onOk .wait, onOk (.check .data)] := ⟨inv_sending, rfl⟩

/-- Every row at its value and with the ignored bits set, and pairs of no row beside each. -/
theorem witness_TriggerDecodingTable :
    0xA4#8 &&& 0xF5#8 = 0xA4#8 ∧ 0xAE#8 &&& 0xF5#8 = 0xA4#8 ∧ 0x9E#8 &&& 0xF5#8 = 0x94#8 ∧ 0x8E#8 &&& 0xF5#8 = 0x84#8
      ∧ 0xCE#8 &&& 0xF5#8 = 0xC4#8 ∧ TriggerReady State.reset
      ∧ (∀ p ∈ [(0x84#8, XMode.xidle), (0xC4#8, .xmt), (0xC4#8, .xaddr), (0xA5#8, .xmr), (0xB4#8, .xmt)],
          p.1 &&& 0xF5#8 ≠ 0xA4#8 ∧ p.1 &&& 0xF5#8 ≠ 0x94#8 ∧ ¬ (p.1 &&& 0xF5#8 = 0x84#8 ∧ p.2 ≠ .xidle)
            ∧ ¬ (p.1 &&& 0xF5#8 = 0xC4#8 ∧ p.2 = .xmr)) :=
  ⟨by decide, by decide, by decide, by decide, by decide, ⟨rfl, rfl, rfl⟩, by decide⟩

theorem witness_IllegalOpcodesSpellNoCommand :
    State.reset.fault = none ∧ State.reset.sqr.seq = .ready ∧ (0x0C#8).toNat ≤ 0x0F ∧ 0x0C ≤ (0x0C#8).toNat ∧ 0x19 ≤ (0x19#8).toNat
      ∧ decode State.reset.cfg .hostCmd [0x0F#8] = .ok (.illegal [0x0F#8]) ∧ decode State.reset.cfg .hostCmd [] = .ok (.illegal []) :=
  ⟨rfl, rfl, by decide, by decide, by decide, rfl, rfl⟩

theorem witness_DescriptorLengthsAreChecked :
    Opcode.transmitMany.byte = 0x0B#8 ∧ [0x3E#8, 0x01#8, 0x04#8][1]?.map (3 + ·.toNat) = some ([0x3E#8, 0x01#8, 0x04#8].length + 1)
      ∧ [0x3E#8][1]?.map (3 + ·.toNat) ≠ some ([0x3E#8].length + 1)
      ∧ State.reset.sqr.seq = .ready ∧ decodeDescriptor [0x01#8, 0x00#8] = .error .badLength := ⟨rfl, rfl, by decide, rfl, rfl⟩

theorem witness_EncodedInstructionsDecode :
    legalCfg Config.default = true ∧ (Instr.readBytes 0xFF#8).wf = true ∧ (Instr.characterFrame 0x00#8).wf = true
      ∧ (Instr.ctrlUndefined 0xC4#8 .xmt).wf = true := ⟨rfl, rfl, rfl, rfl⟩

theorem witness_DecodedBytesEncode :
    (∀ mode, Layer.lcdCmd ≠ .ctrlTrigger mode) ∧ decode Config.default .lcdCmd [0xFF#8] = .ok (.lcdSetDdram 0x7F#7) :=
  ⟨fun _ h => (nomatch h), rfl⟩

/-- Every value of ROWS and DOTS that R9 allows. -/
theorem witness_DisplayBytesFollowTheConfiguration :
    legalCfg Config.default = true ∧ legalCfg { Config.default with rows := 1 } = true
      ∧ legalCfg { Config.default with rows := 1, dots := .dots5x10 } = true ∧ legalCfg { Config.default with rows := 2, dots := .dots5x10 } = false :=
  ⟨rfl, rfl, rfl, rfl⟩

/-- An event in flight on the peripheral's turn. -/
def inFlight (e : Event) (s : State) : State := turned .peripheral { s with per := { s.per with ev := some e } }

theorem witness_StartEvent :
    TriggerReady State.reset ∧ Turn .peripheral (inFlight .start State.reset) [] ∧ (inFlight .start State.reset).per.ctrl.sto = false
      ∧ (inFlight .start State.reset).per.ev = some .start := ⟨⟨rfl, rfl, rfl⟩, ⟨rfl, rfl, rfl⟩, rfl, rfl⟩

theorem witness_SendAddressEvent :
    TriggerReady (opened .idle .xaddr []) ∧ (opened .idle .xaddr []).per.xmode = .xaddr
      ∧ Turn .peripheral (inFlight (.sendAddr 0x7D#8) State.reset) [] ∧ (inFlight (.sendAddr 0x7D#8) State.reset).per.ctrl.sto = false
      ∧ (inFlight (.sendAddr 0x7D#8) State.reset).per.ev = some (.sendAddr 0x7D#8) :=
  ⟨⟨rfl, rfl, rfl⟩, rfl, ⟨rfl, rfl, rfl⟩, rfl, rfl⟩

theorem witness_SendDataEvent :
    TriggerReady (writing []) ∧ (writing []).per.xmode = .xmt
      ∧ Turn .peripheral (inFlight (.sendData 0xFF#8) (writing [])) [] ∧ (inFlight (.sendData 0xFF#8) (writing [])).per.ctrl.sto = false
      ∧ (inFlight (.sendData 0xFF#8) (writing [])).per.ev = some (.sendData 0xFF#8) := ⟨⟨rfl, rfl, rfl⟩, rfl, ⟨rfl, rfl, rfl⟩, rfl, rfl⟩

theorem witness_ReceiveAndAcknowledgeEvent :
    TriggerReady (reading []) ∧ (reading []).per.xmode = .xmr ∧ Turn .peripheral (inFlight .recvAck (reading [])) []
      ∧ (inFlight .recvAck (reading [])).per.ctrl.sto = false ∧ (inFlight .recvAck (reading [])).per.ev = some .recvAck :=
  ⟨⟨rfl, rfl, rfl⟩, rfl, ⟨rfl, rfl, rfl⟩, rfl, rfl⟩

theorem witness_ReceiveLastEvent :
    TriggerReady (reading []) ∧ (reading []).per.xmode = .xmr ∧ Turn .peripheral (inFlight .recvNack (reading [])) []
      ∧ (inFlight .recvNack (reading [])).per.ctrl.sto = false ∧ (inFlight .recvNack (reading [])).per.ev = some .recvNack :=
  ⟨⟨rfl, rfl, rfl⟩, rfl, ⟨rfl, rfl, rfl⟩, rfl, rfl⟩

theorem witness_StopEvent :
    TriggerReady (writing []) ∧ Turn .peripheral (turned .peripheral stopping) [] ∧ (turned .peripheral stopping).per.ctrl.sto = true :=
  ⟨⟨rfl, rfl, rfl⟩, ⟨rfl, rfl, rfl⟩, rfl⟩

theorem witness_TriggersHoldForAPendingStop :
    Instr.start.layer = .ctrlTrigger .xidle ∧ stopping.fault = none ∧ stopping.per.ctrl.sto = true ∧ (0xA4#8).getLsbD 7 = true
      ∧ ItemNext (onOk (.write .ctrl 0xA4#8)) [] (withItem (.write .ctrl 0xA4#8) stopping) []
      ∧ ItemNext (onOk (.write .ctrl 0xA4#8)) [] (withItem (.write .ctrl 0xA4#8) State.reset) []
      ∧ (withItem (.write .ctrl 0xA4#8) State.reset).per.ctrl.sto = false :=
  ⟨rfl, rfl, rfl, rfl, itemNext_withItem rfl rfl rfl rfl, itemNext_withItem rfl rfl rfl rfl, rfl⟩

theorem witness_TriggerInFlightFaults :
    Instr.recvAck.layer = .ctrlTrigger .xmr ∧ (inFlight .start State.reset).fault = none ∧ (inFlight .start State.reset).per.ctrl.sto = false
      ∧ (inFlight .start State.reset).per.ev ≠ none ∧ Inv (running recvAckTasks (reading []))
      ∧ pending (running recvAckTasks (reading [])) = onOk (.write .ctrl 0xC4#8) :: [onOk .wait, onOk .take] :=
  ⟨rfl, rfl, rfl, by decide, inv_receiving, rfl⟩

theorem witness_UndefinedTriggerFaults :
    TriggerReady State.reset ∧ decodeTrigger 0xC4#8 State.reset.per.xmode = .ctrlUndefined 0xC4#8 State.reset.per.xmode
      ∧ Inv (running recvAckTasks (reading []))
      ∧ pending (running recvAckTasks (reading [])) = onOk (.write .ctrl 0xC4#8) :: [onOk .wait, onOk .take] :=
  ⟨⟨rfl, rfl, rfl⟩, rfl, inv_receiving, rfl⟩

theorem witness_SequencerWritesFiveControlValues :
    Inv (running endBody (writing [])) ∧ pending (running endBody (writing [])) = always (.write .ctrl 0x94#8) :: [always (.setPhase .idle)]
      ∧ Inv (running recvAckTasks (reading []))
      ∧ pending (running recvAckTasks (reading [])) = onOk (.write .ctrl 0xC4#8) :: [onOk .wait, onOk .take] :=
  ⟨inv_ending, rfl, inv_receiving, rfl⟩

theorem witness_WaitHoldsForTheEvent :
    ItemNext (onOk .wait) [] (withItem .wait (inFlight .start State.reset)) [] ∧ (withItem .wait (inFlight .start State.reset)).per.ev ≠ none
      ∧ ItemNext (onOk .wait) [] (withItem .wait (writing [])) [] ∧ (withItem .wait (writing [])).per.ev = none
      ∧ (withItem .wait (writing [])).per.ctrl.int = true :=
  ⟨itemNext_withItem rfl rfl rfl rfl, by decide, itemNext_withItem rfl rfl rfl rfl, rfl, rfl⟩

/-- A state whose STATUS holds this code. -/
def sampled (sc : BitVec 5) : State := { State.reset with per := { Periph.reset with status := { sc := sc, ps := 0b11#2 } } }

/-- Each member of each expected set, with its prescaler bits set, and a code of the other direction. -/
theorem witness_StatusChecks :
    readReg .status (sampled 0x01#5) &&& 0xF8#8 ∈ [0x08#8, 0x10#8] ∧ readReg .status (sampled 0x02#5) &&& 0xF8#8 ∈ [0x08#8, 0x10#8]
      ∧ readReg .status (sampled 0x03#5) &&& 0xF8#8 ∈ [0x18#8] ∧ readReg .status (sampled 0x08#5) &&& 0xF8#8 ∈ [0x40#8]
      ∧ readReg .status (sampled 0x05#5) &&& 0xF8#8 ∈ [0x28#8] ∧ readReg .status (sampled 0x03#5) &&& 0xF8#8 ∉ [0x40#8]
      ∧ readReg .status (sampled 0x1F#5) &&& 0xF8#8 ∉ [0x08#8, 0x10#8] := by decide

/-- The ideal oracle, with a read stream. -/
def ideal (m : OracleMode) : State := { State.reset with env := { Env.reset with mode := m, reads := [0x5A#8] } }

theorem witness_OracleAnswers :
    (ready [answer 0x1F#5 0xFF#8]).env.script = answer 0x1F#5 0xFF#8 :: [] ∧ (ideal .ideal).env.script = [] ∧ (ideal .ideal).env.mode = .ideal
      ∧ (ideal .ideal).env.reads = 0x5A#8 :: [] ∧ (ideal (.idealExcept 1 0x00#5)).env.script = []
      ∧ (ideal (.idealExcept 1 0x00#5)).env.mode = .idealExcept 1 0x00#5 ∧ (ideal (.idealExcept 1 0x00#5)).env.drawn + 1 = 1 :=
  ⟨rfl, rfl, rfl, rfl, rfl, rfl, rfl⟩

theorem witness_AcceptanceLatchesTheCommand :
    isCommand (.readBytes 0xFF#8) = true ∧ (Instr.readBytes 0xFF#8).wf = true ∧ (reading []).fault = none ∧ (reading []).sqr.seq = .ready
      ∧ admittedIn (.readBytes 0xFF#8) (reading []).sqr.phase = true ∧ admittedIn (.writeBytes []) (writing []).sqr.phase = true
      ∧ admittedIn .dispInit State.reset.sqr.phase = true := by decide

/-- The host's turn, with a descriptor to present. -/
def presenting (d : List Byte) (s : State) : State :=
  turned .host { s with env := { s.env with host := [.present d] } }

theorem witness_AcceptChecksInOrder :
    Turn .host (presenting [0x01#8] (running [] State.reset)) [] ∧ (presenting [0x01#8] (running [] State.reset)).sqr.seq = .busy
      ∧ (∀ d : List Byte, Turn .host (presenting d State.reset) [] ∧ (presenting d State.reset).env.host = .present d :: []
          ∧ (presenting d State.reset).sqr.seq = .ready)
      ∧ decode Config.default .hostCmd [0x19#8] = .ok (.illegal [0x19#8]) ∧ decode Config.default .hostCmd [0x01#8, 0x00#8] = .error .badLength
      ∧ decode Config.default .hostCmd [0x08#8, 0x00#8] = .ok (.readBytes 0x00#8)
      ∧ decode Config.default .hostCmd [0x13#8, 0x00#8, 0x02#8] = .ok (.setCursor 0x00#8 0x02#8) ∧ (Instr.setCursor 0x00#8 0x02#8).wf = false
      ∧ decode Config.default .hostCmd [0x06#8] = .ok .readAck ∧ Instr.readAck.wf = true ∧ admittedIn .readAck State.reset.sqr.phase = false
      ∧ decode Config.default .hostCmd [0x10#8] = .ok .dispInit ∧ isCommand .dispInit = true ∧ Instr.dispInit.wf = true
      ∧ admittedIn .dispInit State.reset.sqr.phase = true :=
  ⟨⟨rfl, rfl, rfl⟩, rfl, fun _ => ⟨⟨legal_default, rfl, rfl⟩, rfl, rfl⟩, rfl, rfl, rfl, rfl, rfl, rfl, rfl, rfl, rfl, rfl, rfl, rfl⟩

theorem witness_FaultIsFinal :
    (presenting [] State.reset).fault = none
      ∧ step (presenting [] State.reset) = .next { presenting [] State.reset with
          fault := some .badOpcode, env := { (presenting [] State.reset).env with host := [], sched := [] } }
      ∧ { State.reset with fault := some .badOpcode }.fault = some .badOpcode := ⟨rfl, rfl, rfl⟩

theorem witness_PhaseTable :
    isCommand (.writeByte 0x41#8) = true ∧ (Instr.writeByte 0x41#8).wf = true ∧ (reading []).fault = none ∧ (reading []).sqr.seq = .ready
      ∧ admittedIn (.writeByte 0x41#8) (reading []).sqr.phase = false ∧ Calm (writing []) ∧ Calm (reading [])
      ∧ admittedIn (.writeByte 0x41#8) (writing []).sqr.phase = true ∧ admittedIn .readNack (reading []).sqr.phase = true
      ∧ cannotFail .readNack = true ∧ Inv State.reset ∧ State.reset.sqr.seq = .ready :=
  ⟨rfl, rfl, rfl, rfl, rfl, calm_writing [], calm_reading [], rfl, rfl, rfl,
    ⟨rfl, rfl, ⟨fun _ => rfl, fun _ => rfl⟩, fun h => (nomatch h), fun h => (nomatch h), ⟨.anywhere, rfl, trivial, trivial⟩, fun _ => ⟨rfl, rfl, rfl⟩⟩, rfl⟩

theorem witness_BusInitRuns : Calm State.reset ∧ Calm stopping := ⟨calm_ready [], calm_stopping⟩

/-- Both start codes, the acknowledge of each direction and the other direction's, and a start that fails. -/
theorem witness_BeginRuns :
    Calm (ready [answer 0x01#5 0x00#8, answer 0x03#5 0x00#8]) ∧ Calm (writing [answer 0x02#5 0x00#8, answer 0x08#5 0x00#8])
      ∧ (0x01#5 ++ 0#3 : Byte) = 0x08#8 ∧ (0x02#5 ++ 0#3 : Byte) = 0x10#8
      ∧ (0x03#5 ++ 0#3 : Byte) = (if (0x7C#8).getLsbD 0 then 0x40#8 else 0x18#8) ∧ (0x08#5 ++ 0#3 : Byte) = (if (0x7D#8).getLsbD 0 then 0x40#8 else 0x18#8)
      ∧ (0x03#5 ++ 0#3 : Byte) ≠ (if (0x7D#8).getLsbD 0 then 0x40#8 else 0x18#8)
      ∧ ((0x00#5 ++ 0#3 : Byte) ≠ 0x08#8 ∧ (0x00#5 ++ 0#3 : Byte) ≠ 0x10#8) :=
  ⟨calm_ready _, calm_writing _, by decide, by decide, by decide, by decide, by decide, by decide⟩

/-- No stop is ever performed on this bus. -/
def dead (s : State) : State := { s with env := { s.env with live := false } }

theorem witness_EndRuns :
    Calm (writing []) ∧ Calm stopping ∧ legalCfg (dead (writing [])).cfg = true ∧ (dead (writing [])).fault = none ∧ (dead (writing [])).env.sched = []
      ∧ (dead (writing [])).env.live = false ∧ (dead (writing [])).sqr.seq = .ready ∧ (dead (writing [])).sqr.delay = none
      ∧ (dead (writing [])).per.ctrl.sto = false ∧ (dead (writing [])).per.ev = none :=
  ⟨calm_writing [], calm_stopping, rfl, rfl, rfl, rfl, rfl, rfl, rfl, rfl⟩

theorem witness_WriteByteRuns :
    Calm (writing [answer 0x05#5 0x00#8]) ∧ (writing [answer 0x05#5 0x00#8]).sqr.phase = .write ∧ (0x05#5 ++ 0#3 : Byte) = 0x28#8
      ∧ (0x06#5 ++ 0#3 : Byte) ≠ 0x28#8 ∧ (reading []).fault = none ∧ (reading []).sqr.seq = .ready ∧ (reading []).sqr.phase ≠ .write :=
  ⟨calm_writing _, rfl, by decide, by decide, rfl, rfl, by decide⟩

theorem witness_WriteBytesRuns :
    Calm (writing []) ∧ (writing []).sqr.phase = .write ∧ (List.replicate 255 0x41#8).length ≤ 255
      ∧ State.reset.fault = none ∧ State.reset.sqr.seq = .ready ∧ State.reset.sqr.phase ≠ .write :=
  ⟨calm_writing _, rfl, List.length_replicate.le, rfl, rfl, by decide⟩

theorem witness_ReadAckRuns :
    Calm (reading [answer 0x00#5 0x5A#8]) ∧ (reading [answer 0x00#5 0x5A#8]).sqr.phase = .read
      ∧ (opened .readDone .xmr []).fault = none ∧ (opened .readDone .xmr []).sqr.seq = .ready ∧ (opened .readDone .xmr []).sqr.phase ≠ .read :=
  ⟨calm_reading _, rfl, rfl, rfl, by decide⟩

theorem witness_ReadNackRuns :
    Calm (reading [answer 0x0B#5 0x07#8]) ∧ (reading [answer 0x0B#5 0x07#8]).sqr.phase = .read
      ∧ (opened .readDone .xmr []).fault = none ∧ (opened .readDone .xmr []).sqr.seq = .ready ∧ (opened .readDone .xmr []).sqr.phase ≠ .read :=
  ⟨calm_reading _, rfl, rfl, rfl, by decide⟩

/-- Counts 1 and 255. -/
theorem witness_ReadBytesRuns :
    Calm (reading ([] ++ answer 0x0B#5 0xAA#8 :: [])) ∧ (0x01#8).toNat = ([] : List Answer).length + 1
      ∧ Calm (reading (List.replicate 254 (answer 0x0A#5 0x11#8) ++ answer 0x0B#5 0xAA#8 :: []))
      ∧ (0xFF#8).toNat = (List.replicate 254 (answer 0x0A#5 0x11#8)).length + 1 ∧ (reading []).sqr.phase = .read
      ∧ State.reset.fault = none ∧ State.reset.sqr.seq = .ready ∧ (0x02#8 : Byte) ≠ 0x00#8 ∧ State.reset.sqr.phase ≠ .read :=
  ⟨calm_reading _, rfl, calm_reading _, by rw [List.length_replicate]; rfl, rfl, rfl, rfl, by decide, by decide⟩

theorem witness_TransmitsAreOneTransaction :
    Calm (ready []) ∧ Calm (writing []) ∧ (0x7F#8).getLsbD 7 = false ∧ (List.replicate 255 0x41#8).length ≤ 255
      ∧ State.reset.fault = none ∧ State.reset.sqr.seq = .ready ∧ (0x80#8).getLsbD 7 = true :=
  ⟨calm_ready _, calm_writing _, rfl, List.length_replicate.le, rfl, rfl, rfl⟩

theorem witness_ExpansionsAgree : Calm (writing []) ∧ (0x7F#8).getLsbD 7 = false := ⟨calm_writing _, rfl⟩

theorem witness_DispInitRuns : Calm State.reset := calm_ready []

theorem witness_ClearAndHomeRun : Calm State.reset ∧ Calm (writing []) := ⟨calm_ready [], calm_writing []⟩

theorem witness_SetCursorRuns :
    Calm State.reset ∧ ((0x00#8 : Byte) = 0#8 ∨ (0x00#8 : Byte) = 1#8) ∧ ((0x01#8 : Byte) = 0#8 ∨ (0x01#8 : Byte) = 1#8)
      ∧ State.reset.fault = none ∧ State.reset.sqr.seq = .ready ∧ (0x02#8 : Byte) ≠ 0#8 ∧ (0x02#8 : Byte) ≠ 1#8 :=
  ⟨calm_ready [], .inl rfl, .inr rfl, rfl, rfl, by decide, by decide⟩

theorem witness_CharactersRun :
    Calm State.reset ∧ (List.replicate 255 0x41#8).length ≤ 255 ∧ 0#8 ∉ List.replicate 255 0x41#8 ∧ 0#8 ∉ ([] : List Byte)
      ∧ State.reset.fault = none ∧ State.reset.sqr.seq = .ready ∧ (0#8 : Byte) ∈ [0x41#8, 0x00#8] :=
  ⟨calm_ready [], List.length_replicate.le, fun h => absurd (List.eq_of_mem_replicate h) (by decide), List.not_mem_nil, rfl, rfl, by simp⟩

theorem witness_BacklightRuns : Calm State.reset := calm_ready []

theorem witness_CallsChangeOnlyTheContinuation :
    Instr.lcdClear.layer = .lcdCmd ∧ (Instr.addressByte 0x3E#7 .w).layer = .wireAddress ∧ (Instr.commandFrame 0x01#8).layer = .wireDisplay
      ∧ (Instr.backlightFrame 0x00#8 0x00#8).layer = .wireBacklight ∧ State.reset.fault = none := ⟨rfl, rfl, rfl, rfl, rfl⟩

/-- A running command whose last item has just called. -/
theorem calling_running {s : State} (q : Quiet s) (hb : s.sqr.bound = { res := .ok, out := none }) : Calling (running [] s) where
  legal := q.legal
  faultless := q.faultless
  live := q.live
  default := q.default
  evNone := q.evNone
  noDelay := q.noDelay
  busy := rfl
  last := rfl
  bound := hb

theorem witness_FramesAreOneTransaction : Calling (running [] State.reset) ∧ Calling (running [] stopping) :=
  ⟨calling_running (calm_ready []).toQuiet rfl, calling_running calm_stopping.toQuiet rfl⟩

theorem witness_LcdCommandsSendTheirPattern : Calling (running [] State.reset) := calling_running (calm_ready []).toQuiet rfl

theorem witness_AddressByteIsSentAndChecked :
    let s := running [] (opened .idle .xaddr [answer 0x03#5 0x00#8])
    Calling s ∧ s.per.xmode = .xaddr ∧ s.per.ctrl.int = true ∧ s.per.ctrl.sto = false ∧ s.env.script = answer 0x03#5 0x00#8 :: []
      ∧ (0x03#5 ++ 0#3 : Byte) = 0x18#8 ∧ (0x03#5 ++ 0#3 : Byte) ≠ 0x40#8 ∧ (0x08#5 ++ 0#3 : Byte) = 0x40#8 ∧ (0x08#5 ++ 0#3 : Byte) ≠ 0x18#8 :=
  ⟨calling_running (calm_opened (ph := .idle) (m := .xaddr) _ (fun h => nomatch h) (fun h => nomatch h)).toQuiet rfl, rfl, rfl, rfl, rfl, by decide, by decide, by decide, by decide⟩

theorem witness_CommandsFollowTheirPseudocode :
    isCommand (.putString [0x41#8]) = true ∧ (Instr.putString [0x41#8]).wf = true ∧ Calm stopping
      ∧ admittedIn (.putString [0x41#8]) stopping.sqr.phase = true ∧ isCommand (.writeBytes [0x41#8]) = true
      ∧ (Instr.writeBytes [0x41#8]).wf = true ∧ Calm (writing []) ∧ admittedIn (.writeBytes [0x41#8]) (writing []).sqr.phase = true
      ∧ isCommand (.readBytes 0x02#8) = true ∧ (Instr.readBytes 0x02#8).wf = true ∧ Calm (reading [])
      ∧ admittedIn (.readBytes 0x02#8) (reading []).sqr.phase = true :=
  ⟨rfl, rfl, calm_stopping, rfl, rfl, rfl, calm_writing [], rfl, rfl, rfl, calm_reading [], rfl⟩

theorem witness_EveryStepKeepsTheInvariant :
    Inv (turned .sequencer (running endBody (writing []))) ∧ Turn .sequencer (turned .sequencer (running endBody (writing []))) []
      ∧ ∃ t, step (turned .sequencer (running endBody (writing []))) = .next t :=
  ⟨⟨inv_ending.ieClear, inv_ending.noCollision, inv_ending.busFree, inv_ending.evPending, inv_ending.stoPending, inv_ending.placed,
    inv_ending.atRest⟩, ⟨rfl, rfl, rfl⟩, _, rfl⟩

theorem witness_StepRunsTheDecodedInstruction :
    Turn .host (presenting [0x10#8] State.reset) [] ∧ (presenting [0x10#8] State.reset).env.host = .present [0x10#8] :: []
      ∧ (presenting [0x10#8] State.reset).sqr.seq = .ready ∧ decode Config.default .hostCmd [0x10#8] = .ok .dispInit
      ∧ ItemNext (onOk (.write .ctrl 0xC4#8)) [] (withItem (.write .ctrl 0xC4#8) (reading [])) []
      ∧ (withItem (.write .ctrl 0xC4#8) (reading [])).per.ctrl.sto = false ∧ decode Config.default (.ctrlTrigger .xmr) [0xC4#8] = .ok .recvAck
      ∧ ItemNext (onOk (.run .lcdClear)) [] (withItem (.run .lcdClear) State.reset) [] :=
  ⟨⟨rfl, rfl, rfl⟩, rfl, rfl, rfl, itemNext_withItem rfl rfl rfl rfl, rfl, rfl, itemNext_withItem rfl rfl rfl rfl⟩

theorem witness_ObservationsOnlyGrow : step (presenting [0x10#8] State.reset) = exec .dispInit State.reset
    ∧ (∃ t, step (presenting [0x10#8] State.reset) = .next t)
    ∧ ∃ t, step State.reset = .next t ∧ runEnded State.reset = true ∧ t.fault = none := ⟨rfl, ⟨_, rfl⟩, _, rfl, by decide, rfl⟩

/-- The last step of a read command: RDATA and RESULT change, BUSY becomes READY. -/
theorem witness_ResultsChangeAtTheEnd :
    let s := { running [] (reading []) with sqr := { (running [] (reading [])).sqr with bound := { res := .ok, out := some [0x5A#8] } } }
    ∃ t, step s = .next t ∧ t.sqr.result ≠ s.sqr.result ∧ t.sqr.rdata ≠ s.sqr.rdata ∧ s.sqr.seq = .busy ∧ t.sqr.seq = .ready :=
  ⟨_, rfl, by decide, by decide, rfl, rfl⟩

/-- The host's turn to read RESULT. -/
def asking (s : State) : State := turned .host { s with env := { s.env with host := [.readResult] } }

/-- A command has ended. -/
def answered (r : Res) : State := { State.reset with sqr := { Sequencer.reset with result := some r } }

theorem witness_HostReadsTheResult :
    Turn .host (asking State.reset) [] ∧ (asking State.reset).env.host = .readResult :: [] ∧ (asking State.reset).sqr.result = none
      ∧ Turn .host (asking (answered .err)) [] ∧ (asking (answered .err)).sqr.result = some .err ∧ (asking (answered .err)).sqr.seq = .ready
      ∧ Turn .host (asking (running [] (answered .ok))) [] ∧ (asking (running [] (answered .ok))).sqr.result = some .ok
      ∧ (asking (running [] (answered .ok))).sqr.seq = .busy :=
  ⟨⟨rfl, rfl, rfl⟩, rfl, rfl, ⟨rfl, rfl, rfl⟩, rfl, rfl, ⟨rfl, rfl, rfl⟩, rfl, rfl⟩

/-- The delay unit is counting. -/
def counting (a : Agent) : State := turned a { State.reset with sqr := { Sequencer.reset with seq := .busy, delay := some 30000 } }

theorem witness_DelaysAreTracedAndEnd :
    ItemNext (onOk (.delay 30000)) [] (withItem (.delay 30000) State.reset) [] ∧ (counting .sequencer).sqr.delay = some 30000
      ∧ Turn .sequencer (counting .sequencer) [] ∧ Turn .delayUnit (counting .delayUnit) [] :=
  ⟨itemNext_withItem rfl rfl rfl rfl, rfl, ⟨rfl, rfl, rfl⟩, ⟨rfl, rfl, rfl⟩⟩

/-- A wait for an event that never completes, and a trigger that waits for a stop that is never performed. -/
theorem witness_DeadBusHangs :
    let a := dead (running [onOk .wait] { State.reset with per := { Periph.reset with ev := some .start } })
    let b := dead (running [onOk (.write .ctrl 0xA4#8)] stopping)
    (legalCfg a.cfg = true ∧ a.fault = none ∧ a.env.sched = [] ∧ a.env.live = false ∧ a.sqr.seq = .busy ∧ a.sqr.delay = none
      ∧ pending a = onOk .wait :: [] ∧ a.per.ev ≠ none)
    ∧ legalCfg b.cfg = true ∧ b.fault = none ∧ b.env.sched = [] ∧ b.env.live = false ∧ b.sqr.seq = .busy ∧ b.sqr.delay = none
      ∧ pending b = onOk (.write .ctrl 0xA4#8) :: [] ∧ (0xA4#8).getLsbD 7 = true ∧ b.per.ctrl.sto = true :=
  ⟨⟨rfl, rfl, rfl, rfl, rfl, rfl, rfl, by decide⟩, rfl, rfl, rfl, rfl, rfl, rfl, rfl, rfl, rfl⟩

/-- The default configuration, and V-BMC-2d, V-BMC-2e and V-DPL-3f. -/
theorem witness_IllegalConfigurationsAreRefused :
    State.reset.fault = none ∧ legalCfg Config.default = true ∧ legalCfg { Config.default with fScl := 30000 } = false
      ∧ legalCfg { Config.default with fCpu := 1000000 } = false
      ∧ legalCfg { Config.default with rows := 2, dots := .dots5x10 } = false := ⟨rfl, rfl, rfl, rfl, rfl⟩

theorem witness_IdealOracleMeansSuccess :
    isCommand .dispInit = true ∧ Instr.dispInit.wf = true ∧ Calm (ideal .ideal) ∧ admittedIn .dispInit (ideal .ideal).sqr.phase = true
      ∧ (ideal .ideal).env.script = [] ∧ (ideal .ideal).env.mode = .ideal ∧ ∀ d, .present d ∉ (ideal .ideal).env.host :=
  ⟨rfl, rfl, calm_idle rfl rfl rfl rfl rfl rfl rfl rfl, rfl, rfl, rfl, fun _ h => (nomatch h)⟩

theorem witness_IdealTracesAreWhole :
    actsOf (ideal .ideal).cfg (.putChar 0x41#8) = some [.frame 0x7C#8 [0x40#8, 0x41#8]] ∧ (Instr.putChar 0x41#8).wf = true ∧ Calm (ideal .ideal)
      ∧ (stopped (ideal .ideal)).per.bus = .free ∧ (ideal .ideal).env.script = [] ∧ (ideal .ideal).env.mode = .ideal
      ∧ (stopped stopping).per.bus = .free :=
  ⟨rfl, rfl, calm_idle rfl rfl rfl rfl rfl rfl rfl rfl, rfl, rfl, rfl, rfl⟩

end Sys2Proof.Tests
end

section
/-! PROOFS. 10_state.md: what the register reads return, and what the sequencer's reading items leave unchanged. -/

namespace Sys2Proof

/-- A flag in bit `n` of a byte, as R33 writes it (`INT<<7`). -/
def bitAt (b : Bool) (n : Nat) : Byte := (BitVec.ofBool b).setWidth 8 <<< n

@[simp] theorem bitAt_false (n : Nat) : bitAt false n = 0#8 := by simp [bitAt]

/-- The model's byte of eight bits is the spec's OR of eight shifted flags: their whole truth table. -/
theorem bits8_eq_or : ∀ b7 b6 b5 b4 b3 b2 b1 b0 : Bool, bits8 b7 b6 b5 b4 b3 b2 b1 b0
    = bitAt b7 7 ||| bitAt b6 6 ||| bitAt b5 5 ||| bitAt b4 4 ||| bitAt b3 3 ||| bitAt b2 2 ||| bitAt b1 1 ||| bitAt b0 0 := by
  decide

end Sys2Proof

namespace Sys2Proof.Machine

/-- R33. No flag stands in bit 1, so that term of the byte is 0. -/
theorem readReg_ctrl (s : State) : readReg .ctrl s
    = bitAt s.per.ctrl.int 7 ||| bitAt s.per.ctrl.ea 6 ||| bitAt s.per.ctrl.sta 5 ||| bitAt s.per.ctrl.sto 4
      ||| bitAt s.per.ctrl.wc 3 ||| bitAt s.per.ctrl.en 2 ||| bitAt s.per.ctrl.ie 0 := by
  simp only [readReg, ctrlByte, bits8_eq_or, bitAt_false, BitVec.or_zero]

@[simp] theorem withRes_per (r : Res) (s : State) : (withRes r s).per = s.per := rfl

@[simp] theorem takeData_per (s : State) : (takeData s).per = s.per := rfl

@[simp] theorem checkStatus_per (st : Stage) (s : State) : (checkStatus st s).per = s.per := by
  cases h : expected st (statusCode (readReg .status s)) with
  | true => rw [checkStatus_pass h, setPhase_per, logReg_per]
  | false => rw [checkStatus_fail h, withRes_per, setPhase_per, logReg_per]

/-- Settles O2: the CTRL byte is the OR of its shifted flags, and each of the three items that read a register answers a state with the
peripheral it found. -/
theorem controlReadComposesItsFields : Obligations.ControlReadComposesItsFields := by
  refine ⟨readReg_ctrl, fun op rest s hop => ?_⟩
  obtain rfl | rfl | ⟨st, rfl⟩ := hop
  · exact ⟨logReg .p (pop rest s), rfl, by rw [logReg_per, pop_per]⟩
  · exact ⟨takeData (pop rest s), rfl, by rw [takeData_per, pop_per]⟩
  · exact ⟨checkStatus st (pop rest s), rfl, by rw [checkStatus_per, pop_per]⟩

end Sys2Proof.Machine
end

section
/-! PROOFS. 30_encoding.md R101 to R103: which descriptors spell a command, the lengths they must have, and what presenting a descriptor
to a READY machine does. -/

namespace Sys2Proof

@[simp] theorem opcodeOf_byte (op : Opcode) : opcodeOf op.byte = some op := by
  cases op <;> rfl

/-- R103: the whole table of the 256 first bytes. -/
theorem opcodeOf_eq_none_iff : ∀ d0 : Byte, opcodeOf d0 = none ↔
    d0 = 0x00#8 ∨ (0x0C ≤ d0.toNat ∧ d0.toNat ≤ 0x0F) ∨ 0x19 ≤ d0.toNat := by
  decide

theorem decode_hostCmd_eq (cfg : Cfg) (d : List Byte) : decode cfg .hostCmd d = decodeDescriptor d := rfl

/-! ### Lengths -/

/-- R102: the answer `r` to the operand bytes is an instruction where the descriptor's length `L` (none: its count byte is missing) is one
more than theirs, and a rejection for the length where it is not. -/
def LengthChecked (L : Option Nat) (args : List Byte) (r : Except DecodeError Instr) : Prop :=
  (L = some (args.length + 1) → ∃ i, r = .ok i) ∧ (L ≠ some (args.length + 1) → r = .error .badLength)

theorem LengthChecked.of_ok {L : Option Nat} {args : List Byte} {i : Instr} (h : L = some (args.length + 1)) :
    LengthChecked L args (.ok i) :=
  ⟨fun _ => ⟨i, rfl⟩, fun h' => absurd h h'⟩

theorem LengthChecked.of_badLength {L : Option Nat} {args : List Byte} (h : L ≠ some (args.length + 1)) :
    LengthChecked L args (.error .badLength) :=
  ⟨fun h' => absurd h' h, fun _ => rfl⟩

theorem noOperand_lengthChecked (i : Instr) : ∀ args, LengthChecked (some 1) args (noOperand i args)
  | [] => .of_ok rfl
  | _ :: _ => .of_badLength (by simp)

theorem oneOperand_lengthChecked (f : Byte → Instr) : ∀ args, LengthChecked (some 2) args (oneOperand f args)
  | [a] => .of_ok rfl
  | [] | _ :: _ :: _ => .of_badLength (by simp)

theorem twoOperands_lengthChecked (f : Byte → Byte → Instr) : ∀ args, LengthChecked (some 3) args (twoOperands f args)
  | [a, b] => .of_ok rfl
  | [] | [_] | _ :: _ :: _ :: _ => .of_badLength (by simp)

theorem threeOperands_lengthChecked (f : Byte → Byte → Byte → Instr) :
    ∀ args, LengthChecked (some 4) args (threeOperands f args)
  | [a, b, c] => .of_ok rfl
  | [] | [_] | [_, _] | _ :: _ :: _ :: _ :: _ => .of_badLength (by simp)

theorem countedOperand_lengthChecked (f : List Byte → Instr) :
    ∀ args, LengthChecked (args[0]?.map (2 + ·.toNat)) args (countedOperand f args)
  | [] => .of_badLength (by simp)
  | n :: buf => by
    by_cases h : buf.length = n.toNat
    · rw [countedOperand, if_pos h]
      exact .of_ok (by simp; omega)
    · rw [countedOperand, if_neg h]
      exact .of_badLength (by simp; omega)

/-- The address byte before a counted operand adds one to both lengths. -/
theorem addressedOperand_lengthChecked (f : Byte → List Byte → Instr) :
    ∀ args, LengthChecked (args[1]?.map (3 + ·.toNat)) args (addressedOperand f args)
  | [] | [_] => .of_badLength (by simp)
  | a :: n :: buf => by
    have hc := countedOperand_lengthChecked (f a) (n :: buf)
    have hL : some (3 + n.toNat) = some ((a :: n :: buf).length + 1) ↔ some (2 + n.toNat) = some ((n :: buf).length + 1) := by
      simp; omega
    exact ⟨fun h => hc.1 (hL.1 h), fun h => hc.2 (mt hL.2 h)⟩

end Sys2Proof

namespace Sys2Proof.Machine

/-! ### Presenting a descriptor -/

theorem presentDescriptor_ok {d : List Byte} {i : Instr} {s : State} (hr : s.sqr.seq = .ready) (hd : decodeDescriptor d = .ok i) :
    presentDescriptor d s = exec i s := by
  simp only [presentDescriptor, hr, decode_hostCmd_eq, hd]

theorem presentDescriptor_error {d : List Byte} {e : DecodeError} {s : State} (hr : s.sqr.seq = .ready)
    (hd : decodeDescriptor d = .error e) : presentDescriptor d s = .next { s with fault := some .badLength } := by
  simp only [presentDescriptor, hr, decode_hostCmd_eq, hd, raise]

theorem exec_illegal_ready (d : List Byte) {s : State} (hf : s.fault = none) (hr : s.sqr.seq = .ready) :
    exec (.illegal d) s = .next { s with fault := some .badOpcode } := by
  show execIllegal d s = _
  simp only [execIllegal, unlessFaulted_none hf, hr, raise]

/-- ILLEGAL is no host command, so a descriptor decodes to it only where its first byte spells no opcode. -/
theorem decodeDescriptor_eq_illegal_iff (d0 : Byte) (args : List Byte) :
    decodeDescriptor (d0 :: args) = .ok (.illegal (d0 :: args)) ↔ opcodeOf d0 = none := by
  refine ⟨fun h => ?_, fun h => decodeDescriptor_none h args⟩
  cases ho : opcodeOf d0 with
  | none => rfl
  | some op =>
    rw [decodeDescriptor_some ho] at h
    cases isCommand_of_operands h

/-- Settles O7: a descriptor spells no command exactly if it is empty or no opcode is its first byte, and those bytes are R103's; the
meaning of ILLEGAL marks the machine, and presenting runs that meaning. -/
theorem illegalOpcodesSpellNoCommand : Obligations.IllegalOpcodesSpellNoCommand := by
  refine ⟨fun cfg d => ?_, fun d s hf hr => ⟨exec_illegal_ready d hf hr, fun hd => ?_⟩⟩
  · cases d with
    | nil => exact ⟨fun _ => .inl rfl, fun _ => rfl⟩
    | cons d0 args =>
      rw [decode_hostCmd_eq, decodeDescriptor_eq_illegal_iff, opcodeOf_eq_none_iff]
      simp
  · rw [presentDescriptor_ok hr hd, exec_illegal_ready d hf hr]

/-- Settles O8: the first byte selects its opcode, each operand shape checks its own length, and a rejected descriptor marks the READY
machine it is presented to. -/
theorem descriptorLengthsAreChecked : Obligations.DescriptorLengthsAreChecked := by
  unfold Obligations.DescriptorLengthsAreChecked
  intro length
  refine ⟨fun d0 args op hop => ?_, fun d s hr hd => presentDescriptor_error hr hd⟩
  subst hop
  rw [decodeDescriptor_some (opcodeOf_byte op)]
  have hL : LengthChecked (length op args) args (decodeOperands op args) := by
    cases op with
    | busInit | endTx | readAck | readNack | dispInit | clear | home => exact noOperand_lengthChecked _ args
    | beginTx | writeByte | readBytes | putChar => exact oneOperand_lengthChecked _ args
    | transmitOne | setCursor | setBlReg => exact twoOperands_lengthChecked _ args
    | transmitTwo | setBlRgb | setBlColor => exact threeOperands_lengthChecked _ args
    | writeBytes | putString => exact countedOperand_lengthChecked _ args
    | transmitMany => exact addressedOperand_lengthChecked _ args
  obtain ⟨haccept, hreject⟩ := hL
  refine ⟨fun h => ?_, hreject⟩
  obtain ⟨i, hi⟩ := haccept h
  exact ⟨i, hi, isCommand_of_operands hi⟩

end Sys2Proof.Machine
end

section
/-! PROOFS. 40_bus_events.md: what a CTRL write does with bit 7 clear, what a trigger and an event's completion do, and which CTRL writes
the sequencer has next under the invariant. -/

namespace Sys2Proof

/-- The byte with the bits of a CTRL byte that a write does not set: INT and WC. -/
theorem bits8_and_keptBits : ∀ b7 b6 b5 b4 b3 b2 b1 b0 : Bool,
    bits8 b7 b6 b5 b4 b3 b2 b1 b0 &&& 0x88#8 = bits8 b7 false false false b3 false false false := by
  decide

/-- The byte with the bits a CTRL write sets whatever bit 7 is: EA, STA, STO, EN and IE. -/
theorem and_writtenBits : ∀ v : Byte, v &&& 0x75#8
    = bits8 false (v.getLsbD 6) (v.getLsbD 5) (v.getLsbD 4) false (v.getLsbD 2) false (v.getLsbD 0) := by
  decide

theorem bits8_kept_or_written : ∀ b7 b6 b5 b4 b3 b2 b0 : Bool,
    bits8 b7 false false false b3 false false false ||| bits8 false b6 b5 b4 false b2 false b0
      = bits8 b7 b6 b5 b4 b3 b2 false b0 := by
  decide

end Sys2Proof

namespace Sys2Proof.Machine

/-! ### Register writes that trigger nothing -/

theorem writeCtrlFields_of_bit7_clear {v : Byte} (h : v.getLsbD 7 = false) (p : Periph) :
    writeCtrlFields v p = { p with ctrl := { p.ctrl with
      ea := v.getLsbD 6, sta := v.getLsbD 5, sto := v.getLsbD 4, en := v.getLsbD 2, ie := v.getLsbD 0 } } := by
  rw [writeCtrlFields, h]
  rfl

/-- R32, R33: what CTRL reads after such a write. -/
theorem ctrlByte_writeCtrlFields {v : Byte} (h : v.getLsbD 7 = false) (p : Periph) :
    ctrlByte (writeCtrlFields v p).ctrl = (ctrlByte p.ctrl &&& 0x88#8) ||| (v &&& 0x75#8) := by
  rw [writeCtrlFields_of_bit7_clear h, ctrlByte, ctrlByte, bits8_and_keptBits, and_writtenBits, bits8_kept_or_written]

theorem runOp_write_plain {r : Reg} {v : Byte} (h : ¬ (r = .ctrl ∧ v.getLsbD 7 = true)) (rest : List Task) (s : State) :
    runOp (.write r v) rest s = .next (logReg (.w r v) (pop rest { s with per := writeReg r v s.per })) :=
  if_neg h

/-! ### Triggers and completions -/

/-- R161: the pair is checked last, and the fault is the trigger's only effect. -/
theorem exec_ctrlUndefined_ready (v : Byte) (m : XMode) {s : State} (h : TriggerReady s) :
    exec (.ctrlUndefined v m) s = .next { s with fault := some .ctrlUndefined } := by
  rw [exec_ctrlUndefined, trigger, unlessFaulted_none h.faultless]
  simp [h.noStop, h.evNone, raise]

/-- R162: on the peripheral's turn the event in flight completes. -/
theorem step_turn_completes {s : State} {later : List Agent} {e : Event} (h : Turn .peripheral s later)
    (hs : s.per.ctrl.sto = false) (he : s.per.ev = some e) : step s = .next (complete e (draw s e) (onward later s)) := by
  have hp : peripheralStep (onward later s) = complete e (draw (onward later s) e) (onward later s) := by
    simp [peripheralStep, onward, hs, he]
  rw [step_turn h, agentStep, hp]
  rfl

/-! ### The sequencer's CTRL writes -/

/-- R110: the values the sequencer writes to CTRL, each in a mode it decodes in. -/
theorem Inv.ctrlWrite {v : Byte} {g : Guard} {rest : List Task} {s : State} (h : Inv s)
    (hp : pending s = { op := .write .ctrl v, guard := g } :: rest) :
    v = 0xA4#8 ∨ v = 0x94#8 ∨ (v = 0x84#8 ∧ (s.per.xmode = .xaddr ∨ s.per.xmode = .xmt ∨ s.per.xmode = .xmr))
      ∨ (v = 0xC4#8 ∧ s.per.xmode = .xmr) := by
  obtain ⟨pos, hreal, hco⟩ := h.placed
  obtain ⟨hv, -⟩ | ⟨hv, -⟩ | ⟨hv, ⟨b, rfl, -⟩ | ⟨b, rfl, -⟩ | ⟨rfl, -⟩⟩ | ⟨hv, rfl, -⟩ := (pending_inPlace hco).2 _ _ hp
  · exact .inl hv
  · exact .inr (.inl hv)
  · obtain ⟨-, -, -, hm, -⟩ := hreal
    exact .inr (.inr (.inl ⟨hv, .inl hm⟩))
  · obtain ⟨-, -, -, hm, -⟩ := hreal
    exact .inr (.inr (.inl ⟨hv, .inr (.inl hm)⟩))
  · obtain ⟨-, -, -, hm⟩ := hreal
    exact .inr (.inr (.inl ⟨hv, .inr (.inr hm)⟩))
  · obtain ⟨-, -, -, hm⟩ := hreal
    exact .inr (.inr (.inr ⟨hv, hm⟩))

/-! ### The obligations -/

/-- Settles O21: the fault is the last check of a trigger, and each value the invariant lets the sequencer write decodes to an event in
the mode the invariant has the peripheral in. -/
theorem undefinedTriggerFaults : Obligations.UndefinedTriggerFaults := by
  refine ⟨fun v s hr hd => ?_, fun v g rest s hinv hp w m => ?_⟩
  · rw [hd]
    exact exec_ctrlUndefined_ready v _ hr
  · obtain rfl | rfl | ⟨rfl, hm | hm | hm⟩ | ⟨rfl, hm⟩ := hinv.ctrlWrite hp
    · rw [decodeTrigger_start]; nofun
    · rw [decodeTrigger_stop]; nofun
    · rw [decodeTrigger_84, hm]; nofun
    · rw [decodeTrigger_84, hm]; nofun
    · rw [decodeTrigger_84, hm]; nofun
    · rw [hm, show decodeTrigger 0xC4#8 .xmr = .recvAck from rfl]; nofun

/-- Settles O3: with bit 7 clear the item is a plain register write, and the values the sequencer writes all have it set. -/
theorem plainControlWriteStartsNothing : Obligations.PlainControlWriteStartsNothing := by
  refine ⟨fun v rest s h => ?_, fun v g rest s hinv hp => ?_⟩
  · refine ⟨_, runOp_write_plain (fun ⟨_, h7⟩ => nomatch h.symm.trans h7) rest s, ?_, ctrlByte_writeCtrlFields h s.per⟩
    rw [writeReg_ctrl, writeCtrlFields_of_bit7_clear h]
  · obtain rfl | rfl | ⟨rfl, -⟩ | ⟨rfl, -⟩ := hinv.ctrlWrite hp <;> rfl

/-- Settles O14: the trigger fires in XADDR, and the completion is the peripheral's turn. -/
theorem sendAddressEvent : Obligations.SendAddressEvent := by
  refine ⟨fun s hr hm => ?_, fun s later b ht hs he => ?_⟩
  · rw [exec_sendAddr, trigger_fires hr _ _ (by rw [hm]; rfl)]
    rfl
  · exact step_turn_completes ht hs he

/-- Settles O15: the trigger fires in XMT, and the completion is the peripheral's turn. -/
theorem sendDataEvent : Obligations.SendDataEvent := by
  refine ⟨fun s hr hm => ?_, fun s later b ht hs he => ?_⟩
  · rw [exec_sendData, trigger_fires hr _ _ (by rw [hm]; rfl)]
    rfl
  · exact step_turn_completes ht hs he

end Sys2Proof.Machine
end

section
/-! PROOFS. 42_display.md R232: the DPL's command bytes as numbers, and the LCD commands they spell. -/

namespace Sys2Proof

/-- R11: each bit of a byte weighs its power of two. -/
theorem toNat_bits8 : ∀ b7 b6 b5 b4 b3 b2 b1 b0 : Bool, (bits8 b7 b6 b5 b4 b3 b2 b1 b0).toNat
    = (if b7 then 128 else 0) + (if b6 then 64 else 0) + (if b5 then 32 else 0) + (if b4 then 16 else 0)
      + (if b3 then 8 else 0) + (if b2 then 4 else 0) + (if b1 then 2 else 0) + (if b0 then 1 else 0) := by
  decide

/-! ### The rows of R116 that the bytes spell -/

theorem decodeLcd_functionSet : ∀ dl n f x1 x0 : Bool, decodeLcd (bits8 false false true dl n f x1 x0)
    = some (.lcdFunctionSet dl n f (BitVec.ofBool x1 ++ BitVec.ofBool x0)) := by
  decide

theorem decodeLcd_displayControl : ∀ d c b : Bool,
    decodeLcd (bits8 false false false false true d c b) = some (.lcdDisplayControl d c b) := by
  decide

theorem decodeLcd_entryMode : ∀ i s : Bool,
    decodeLcd (bits8 false false false false false true i s) = some (.lcdEntryMode i s) := by
  decide

end Sys2Proof

namespace Sys2Proof.Machine

theorem lcdInstr_of_decodeLcd {c : Byte} {i : Instr} (h : decodeLcd c = some i) : lcdInstr c = i := by
  rw [lcdInstr, h, Option.getD_some]

/-! ### The bytes as numbers -/

theorem toNat_functionSetByte (cfg : Cfg) : (functionSetByte cfg).toNat
    = 0x20 + (if cfg.rows = 2 then 8 else 0) + (if cfg.dots = .dots5x10 then 4 else 0) := by
  simp [functionSetByte, toNat_bits8]

theorem toNat_displayControlByte (cfg : Cfg) : (displayControlByte cfg).toNat
    = 0x0C + (if cfg.cursor then 2 else 0) + (if cfg.blink then 1 else 0) := by
  simp [displayControlByte, toNat_bits8]

theorem toNat_entryModeByte (cfg : Cfg) : (entryModeByte cfg).toNat
    = 0x04 + (if cfg.entryId then 2 else 0) + (if cfg.entryS then 1 else 0) := by
  simp [entryModeByte, toNat_bits8]

/-! ### The bytes as LCD commands -/

theorem lcdInstr_functionSetByte (cfg : Cfg) :
    lcdInstr (functionSetByte cfg) = .lcdFunctionSet false (cfg.rows == 2) (cfg.dots == .dots5x10) 0#2 :=
  lcdInstr_of_decodeLcd (decodeLcd_functionSet false _ _ false false)

theorem lcdInstr_displayControlByte (cfg : Cfg) :
    lcdInstr (displayControlByte cfg) = .lcdDisplayControl true cfg.cursor cfg.blink :=
  lcdInstr_of_decodeLcd (decodeLcd_displayControl true _ _)

theorem lcdInstr_entryModeByte (cfg : Cfg) : lcdInstr (entryModeByte cfg) = .lcdEntryMode cfg.entryId cfg.entryS :=
  lcdInstr_of_decodeLcd (decodeLcd_entryMode _ _)

theorem lcdInstr_clearByte : lcdInstr clearByte = .lcdClear := rfl

theorem lcdInstr_homeByte : lcdInstr homeByte = .lcdHome false := rfl

@[simp] theorem rowBase_zero (cfg : Cfg) : rowBase cfg 0#8 = cfg.base0 := rfl

@[simp] theorem rowBase_one (cfg : Cfg) : rowBase cfg 1#8 = cfg.base1 := rfl

/-- Settles O12: each byte's bits weigh what R232 gives and match one row of R116, under any configuration, the legal ones among them. -/
theorem displayBytesFollowTheConfiguration : Obligations.DisplayBytesFollowTheConfiguration := fun cfg _ =>
  ⟨⟨toNat_functionSetByte cfg, lcdInstr_functionSetByte cfg⟩, ⟨toNat_displayControlByte cfg, lcdInstr_displayControlByte cfg⟩,
    ⟨toNat_entryModeByte cfg, lcdInstr_entryModeByte cfg⟩, lcdInstr_clearByte, rfl, lcdInstr_homeByte, rfl,
    rowBase_zero cfg, rowBase_one cfg, rfl, rfl⟩

end Sys2Proof.Machine
end

section
/-! PROOFS. 30_encoding.md: the round trip of every row of the opcode table, both ways, and the trigger table. -/

namespace Sys2Proof

/-! ### Host descriptors -/

/-- R101, R103: the first byte of a descriptor is the byte of its opcode. -/
theorem opcodeOf_eq_some_iff {d0 : Byte} {op : Opcode} : opcodeOf d0 = some op ↔ op.byte = d0 := by
  refine ⟨fun h => ?_, fun h => by rw [← h, opcodeOf_byte]⟩
  simpa using List.find?_some h

theorem decodeDescriptor_byte (op : Opcode) (args : List Byte) :
    decodeDescriptor (op.byte :: args) = decodeOperands op args :=
  Machine.decodeDescriptor_some (opcodeOf_byte op) args

/-- R102: a buffer of at most MAXBUF bytes has its length in its count byte. -/
theorem toNat_countByte {buf : List Byte} (h : buf.length ≤ Config.maxBuf) : (countByte buf).toNat = buf.length := by
  have h255 : buf.length ≤ 255 := h
  rw [countByte, BitVec.toNat_ofNat, Nat.mod_eq_of_lt (by omega)]

theorem countByte_of_length {n : Byte} {buf : List Byte} (h : buf.length = n.toNat) : countByte buf = n := by
  rw [countByte, h, BitVec.ofNat_toNat, BitVec.setWidth_eq]

theorem countedOperand_countByte (f : List Byte → Instr) {buf : List Byte} (h : buf.length ≤ Config.maxBuf) :
    countedOperand f (countByte buf :: buf) = .ok (f buf) :=
  if_pos (toNat_countByte h).symm

theorem decodeDescriptor_encode_command (cfg : Cfg) {i : Instr} (hi : Machine.isCommand i = true) (hw : i.wf = true) :
    decodeDescriptor (encode cfg i) = .ok i := by
  cases i with
  | writeBytes buf =>
    exact (decodeDescriptor_byte .writeBytes _).trans (countedOperand_countByte _ (by simpa [Instr.wf] using hw))
  | transmitMany a buf =>
    obtain ⟨-, hlen⟩ : a.getLsbD 7 = false ∧ buf.length ≤ Config.maxBuf := by simpa [Instr.wf] using hw
    exact (decodeDescriptor_byte .transmitMany _).trans (countedOperand_countByte _ hlen)
  | putString str =>
    obtain ⟨hlen, -⟩ : str.length ≤ Config.maxBuf ∧ ∀ c ∈ str, c ≠ 0#8 := by simpa [Instr.wf] using hw
    exact (decodeDescriptor_byte .putString _).trans (countedOperand_countByte _ hlen)
  | busInit | beginTx _ | endTx | writeByte _ | readAck | readNack | readBytes _ | transmitOne _ _ | transmitTwo _ _ _
  | dispInit | clear | home | setCursor _ _ | putChar _ | setBlReg _ _ | setBlRgb _ _ _ | setBlColor _ _ _ => rfl
  | illegal _ | start | sendAddr | sendData | recvAck | recvNack | stop | ctrlUndefined _ _ | lcdClear | lcdHome _
  | lcdEntryMode _ _ | lcdDisplayControl _ _ _ | lcdFunctionSet _ _ _ _ | lcdSetDdram _ | addressByte _ _
  | commandFrame _ | characterFrame _ | backlightFrame _ _ => cases hi

/-- R103: the well-formed ILLEGAL descriptors begin with no opcode. -/
theorem opcodeOf_of_illegalOpcode : ∀ d0 : Byte, illegalOpcode d0 = true → opcodeOf d0 = none := by
  decide

theorem decodeDescriptor_illegal : ∀ {d : List Byte}, (Instr.illegal d).wf = true → decodeDescriptor d = .ok (.illegal d)
  | [], _ => rfl
  | d0 :: args, h => Machine.decodeDescriptor_none (opcodeOf_of_illegalOpcode d0 h) args

/-! ### What operand bytes decode to -/

theorem noOperand_eq_ok {j i : Instr} : ∀ {args : List Byte}, noOperand j args = .ok i → i = j ∧ args = []
  | [], rfl => ⟨rfl, rfl⟩

theorem oneOperand_eq_ok {f : Byte → Instr} {i : Instr} : ∀ {args : List Byte}, oneOperand f args = .ok i →
    ∃ a, i = f a ∧ args = [a]
  | [a], rfl => ⟨a, rfl, rfl⟩

theorem twoOperands_eq_ok {f : Byte → Byte → Instr} {i : Instr} : ∀ {args : List Byte}, twoOperands f args = .ok i →
    ∃ a b, i = f a b ∧ args = [a, b]
  | [a, b], rfl => ⟨a, b, rfl, rfl⟩

theorem threeOperands_eq_ok {f : Byte → Byte → Byte → Instr} {i : Instr} : ∀ {args : List Byte},
    threeOperands f args = .ok i → ∃ a b c, i = f a b c ∧ args = [a, b, c]
  | [a, b, c], rfl => ⟨a, b, c, rfl, rfl⟩

theorem countedOperand_eq_ok {f : List Byte → Instr} {i : Instr} {args : List Byte} (h : countedOperand f args = .ok i) :
    ∃ buf, buf.length ≤ Config.maxBuf ∧ i = f buf ∧ args = countByte buf :: buf := by
  cases args with
  | nil => cases h
  | cons n buf =>
    by_cases hl : buf.length = n.toNat
    · rw [countedOperand, if_pos hl] at h
      injection h with h
      exact ⟨buf, hl.trans_le (Nat.le_of_lt_succ n.isLt), h.symm, by rw [countByte_of_length hl]⟩
    · rw [countedOperand, if_neg hl] at h
      cases h

theorem addressedOperand_eq_ok {f : Byte → List Byte → Instr} {i : Instr} {args : List Byte}
    (h : addressedOperand f args = .ok i) :
    ∃ a buf, buf.length ≤ Config.maxBuf ∧ i = f a buf ∧ args = a :: countByte buf :: buf := by
  cases args with
  | nil => cases h
  | cons a rest =>
    obtain ⟨buf, hlen, hi, hr⟩ := countedOperand_eq_ok (f := f a) h
    exact ⟨a, buf, hlen, hi, by rw [hr]⟩

theorem encode_of_decodeOperands (cfg : Cfg) {op : Opcode} {args : List Byte} {i : Instr}
    (h : decodeOperands op args = .ok i) : encode cfg i = op.byte :: args := by
  cases op with
  | busInit | endTx | readAck | readNack | dispInit | clear | home => obtain ⟨rfl, rfl⟩ := noOperand_eq_ok h; rfl
  | beginTx | writeByte | readBytes | putChar => obtain ⟨a, rfl, rfl⟩ := oneOperand_eq_ok h; rfl
  | transmitOne | setCursor | setBlReg => obtain ⟨a, b, rfl, rfl⟩ := twoOperands_eq_ok h; rfl
  | transmitTwo | setBlRgb | setBlColor => obtain ⟨a, b, c, rfl, rfl⟩ := threeOperands_eq_ok h; rfl
  | writeBytes | putString => obtain ⟨buf, -, rfl, rfl⟩ := countedOperand_eq_ok h; rfl
  | transmitMany => obtain ⟨a, buf, -, rfl, rfl⟩ := addressedOperand_eq_ok h; rfl

theorem encode_of_decodeDescriptor (cfg : Cfg) {d : List Byte} {i : Instr} (h : decodeDescriptor d = .ok i) :
    encode cfg i = d := by
  cases d with
  | nil => cases h; rfl
  | cons d0 args =>
    cases ho : opcodeOf d0 with
    | none => rw [Machine.decodeDescriptor_none ho] at h; cases h; rfl
    | some op =>
      rw [Machine.decodeDescriptor_some ho] at h
      rw [encode_of_decodeOperands cfg h, opcodeOf_eq_some_iff.1 ho]

/-! ### Triggers -/

theorem decode_trigger (cfg : Cfg) {v : Byte} (h : v.getLsbD 7 = true) (m : XMode) :
    decode cfg (.ctrlTrigger m) [v] = .ok (decodeTrigger v m) :=
  if_pos h

/-- R111: the pairs outside the table. -/
theorem triggerPairDefined_eq_false_iff (v : Byte) (m : XMode) : triggerPairDefined v m = false ↔
    v &&& 0xF5#8 ≠ 0xA4#8 ∧ v &&& 0xF5#8 ≠ 0x94#8 ∧ ¬ (v &&& 0xF5#8 = 0x84#8 ∧ m ≠ .xidle)
      ∧ ¬ (v &&& 0xF5#8 = 0xC4#8 ∧ m = .xmr) := by
  simp only [triggerPairDefined, Bool.or_eq_false_iff, Bool.and_eq_false_iff, beq_eq_false_iff_ne, bne_eq_false_iff_eq, and_assoc]
  tauto

/-- R161: such a pair falls through every row of the decoder. -/
theorem decodeTrigger_undefined {v : Byte} {m : XMode} (h : triggerPairDefined v m = false) :
    decodeTrigger v m = .ctrlUndefined v m := by
  obtain ⟨hstart, hstop, h84, hC4⟩ := (triggerPairDefined_eq_false_iff v m).1 h
  have row84 : ∀ m', m' ≠ .xidle → ¬ (v &&& 0xF5#8 = 0x84#8 ∧ m = m') := fun m' hm' ⟨hv, hm⟩ => h84 ⟨hv, hm ▸ hm'⟩
  simp only [decodeTrigger]
  rw [if_neg hstart, if_neg hstop, if_neg (row84 .xaddr nofun), if_neg (row84 .xmt nofun), if_neg (row84 .xmr nofun), if_neg hC4]

theorem decode_encode_trigger (cfg : Cfg) {i : Instr} {m : XMode} (hl : i.layer = .ctrlTrigger m) (hw : i.wf = true) :
    decode cfg (.ctrlTrigger m) (encode cfg i) = .ok i := by
  cases i <;> cases hl
  case ctrlUndefined v =>
    obtain ⟨h7, hpair⟩ : v.getLsbD 7 = true ∧ triggerPairDefined v m = false := by simpa [Instr.wf] using hw
    rw [encode, decode_trigger cfg h7, decodeTrigger_undefined hpair]
  all_goals rfl

/-! ### LCD commands -/

/-- R116: an LCD row encodes to its one byte. -/
theorem encode_lcdCmd (cfg : Cfg) {i : Instr} (hl : i.layer = .lcdCmd) : encode cfg i = [lcdByte i] := by
  cases i <;> cases hl <;> rfl

theorem decodeLcd_setDdram : ∀ a : BitVec 7, decodeLcd (1#1 ++ a) = some (.lcdSetDdram a) := by
  decide

theorem decodeLcd_home : ∀ x : Bool, decodeLcd (bits8 false false false false false false true x) = some (.lcdHome x) := by
  decide

theorem ofBool_bits_eq : ∀ x : BitVec 2, BitVec.ofBool (x.getLsbD 1) ++ BitVec.ofBool (x.getLsbD 0) = x := by
  decide

theorem decodeLcd_lcdByte {i : Instr} (hl : i.layer = .lcdCmd) : decodeLcd (lcdByte i) = some i := by
  cases i <;> cases hl
  case lcdClear => rfl
  case lcdHome x => exact decodeLcd_home x
  case lcdEntryMode i s => exact decodeLcd_entryMode i s
  case lcdDisplayControl d c b => exact decodeLcd_displayControl d c b
  case lcdFunctionSet dl n f x => rw [lcdByte, decodeLcd_functionSet, ofBool_bits_eq]
  case lcdSetDdram a => exact decodeLcd_setDdram a

theorem decode_lcdCmd (cfg : Cfg) {c : Byte} {i : Instr} : decode cfg .lcdCmd [c] = .ok i ↔ decodeLcd c = some i := by
  cases h : decodeLcd c <;> simp [decode, h]

/-- R116: the 256 bytes of the layer. -/
theorem lcdByte_decodeLcd : ∀ c : Byte, ∀ i ∈ decodeLcd c, i.layer = .lcdCmd ∧ lcdByte i = c := by
  decide

/-! ### Wire encodings -/

theorem addrOf_addressByte (addr : Addr7) (dir : Dir) : addrOf (addressByte addr dir) = addr := by
  cases dir <;> revert addr <;> decide

theorem dirOf_addressByte_eq (addr : Addr7) (dir : Dir) : dirOf (addressByte addr dir) = dir := by
  rw [dirOf, Machine.dirOf_addressByte]
  cases dir <;> rfl

end Sys2Proof

namespace Sys2Proof.Machine

/-- R9, constraint by constraint. -/
theorem legalCfg_iff (c : Cfg) : legalCfg c = true ↔ (c.rows = 1 ∨ c.rows = 2) ∧ ¬ (c.dots = .dots5x10 ∧ c.rows = 2)
    ∧ 16 ≤ c.fCpu / c.fScl ∧ bitRateValue c ≤ 255 ∧ c.base0 ≠ c.base1 ∧ c.selCmd ≠ c.selData ∧ c.tHome < c.tClear
    ∧ 0 < c.tHome ∧ 30000 ≤ c.tPowerOn ∧ 4500 ≤ c.tFs1 ∧ 150 ≤ c.tFs2 := by
  simp only [legalCfg, Bool.and_eq_true, Bool.or_eq_true, Bool.not_eq_true', Bool.and_eq_false_iff, beq_iff_eq, beq_eq_false_iff_ne,
    bne_iff_ne, decide_eq_true_eq]
  tauto

/-- R9: a frame's first byte tells a command from a character. -/
theorem selData_ne_selCmd {cfg : Cfg} (h : legalCfg cfg = true) : cfg.selData ≠ cfg.selCmd := by
  obtain ⟨-, -, -, -, -, hsel, -⟩ := (legalCfg_iff cfg).1 h
  exact hsel.symm

/-- Settles O9: layer by layer, the decoder of the instruction's layer undoes its encoding. -/
theorem encodedInstructionsDecode : Obligations.EncodedInstructionsDecode := by
  intro cfg i hcfg hw
  cases hl : i.layer with
  | hostCmd =>
    cases hc : isCommand i with
    | true => exact decodeDescriptor_encode_command cfg hc hw
    | false =>
      cases i <;> cases hl <;> cases hc
      exact decodeDescriptor_illegal hw
  | ctrlTrigger m => exact decode_encode_trigger cfg hl hw
  | lcdCmd => rw [encode_lcdCmd cfg hl, decode_lcdCmd, decodeLcd_lcdByte hl]
  | wireAddress =>
    cases i <;> cases hl
    rw [encode, decode, addrOf_addressByte, dirOf_addressByte_eq]
  | wireDisplay =>
    cases i <;> cases hl
    · exact if_pos rfl
    · exact (if_neg (selData_ne_selCmd hcfg)).trans (if_pos rfl)
  | wireBacklight =>
    cases i <;> cases hl
    rfl

/-- Settles O10: layer by layer, what the decoder can answer encodes to the bytes it was given. -/
theorem decodedBytesEncode : Obligations.DecodedBytesEncode := by
  intro cfg l bytes i hl h
  cases l with
  | hostCmd => exact encode_of_decodeDescriptor cfg h
  | ctrlTrigger m => exact absurd rfl (hl m)
  | lcdCmd =>
    match bytes with
    | [c] =>
      obtain ⟨hlayer, hbyte⟩ := lcdByte_decodeLcd c i ((decode_lcdCmd cfg).1 h)
      rw [encode_lcdCmd cfg hlayer, hbyte]
    | [] | _ :: _ :: _ => cases h
  | wireAddress =>
    match bytes with
    | [ab] => cases h; rw [encode, addressByte_eta]
    | [] | _ :: _ :: _ => cases h
  | wireDisplay =>
    match bytes with
    | [sel, c] =>
      change decodeDisplayFrame cfg sel c = .ok i at h
      unfold decodeDisplayFrame at h
      split at h
      · next hsel => cases h; rw [encode, hsel]
      · split at h
        · next hsel => cases h; rw [encode, hsel]
        · cases h
    | [] | [_] | _ :: _ :: _ :: _ => cases h
  | wireBacklight =>
    match bytes with
    | [reg, val] => cases h; rfl
    | [] | [_] | _ :: _ :: _ :: _ => cases h

/-- Settles O6: each row of R111 is one branch of the decoder, a pair outside the rows falls through them all. -/
theorem triggerDecodingTable : Obligations.TriggerDecodingTable :=
  ⟨fun v m => ⟨fun h => by simp [decodeTrigger, h], fun h => by simp [decodeTrigger, h], fun h hm => by simp [decodeTrigger, h, hm],
    fun h hm => by simp [decodeTrigger, h, hm], fun h hm => by simp [decodeTrigger, h, hm], fun h hm => by simp [decodeTrigger, h, hm],
    fun hstart hstop h84 hC4 => decodeTrigger_undefined ((triggerPairDefined_eq_false_iff v m).2 ⟨hstart, hstop, h84, hC4⟩)⟩,
    fun v m _ hr => exec_ctrlUndefined_ready v m hr⟩

/-- Settles O11: the decoders compute each sample. -/
theorem sampleWordsDecode : Obligations.SampleWordsDecode :=
  ⟨rfl, rfl, rfl, rfl, rfl, rfl, rfl, rfl, rfl, rfl, rfl⟩

end Sys2Proof.Machine
end

section
/-! PROOFS. 10_state.md section 3 and 41_bus_master.md section 6: every step of every agent keeps the invariant, item by item of the
continuation, and what the invariant says of the sequencer's next write. -/

namespace Sys2Proof.Machine

/-! ### Positions -/

/-- What a position says of the peripheral reads four of its fields. -/
theorem Pos.realized_congr {pos : Pos} {p p' : Periph} (hev : p'.ev = p.ev) (hctrl : p'.ctrl = p.ctrl) (hmode : p'.xmode = p.xmode)
    (hdata : p'.data = p.data) : pos.realized p' ↔ pos.realized p := by
  cases pos <;> simp only [Pos.realized, hev, hctrl, hmode, hdata]

theorem Pos.realized.evNone {pos : Pos} {p : Periph} (hl : pos.landed) (h : pos.realized p) : p.ev = none := by
  cases pos with
  | anywhere => exact h
  | flight e => exact hl.elim
  | settled m => exact h.1
  | loaded m b => exact h.1

theorem Pos.settled_int {m : XMode} {p : Periph} (h : (Pos.settled m).realized p) : p.ctrl.int = true := by
  obtain ⟨-, -, hint, -⟩ := h
  exact hint

theorem Pos.settled_xmode {m : XMode} {p : Periph} (h : (Pos.settled m).realized p) : p.xmode = m := by
  obtain ⟨-, -, -, hm⟩ := h
  exact hm

/-- A wait that does not hold has its event completed. -/
theorem Pos.realized.settles {e : Event} {s : State} (h : (Pos.flight e).realized s.per) (hh : holds s .wait = false) :
    (Pos.settled (eventMode e)).realized s.per := by
  obtain ⟨hsto, ⟨hev, -⟩ | ⟨hev, hint, hm⟩⟩ := h
  · simp [holds, hev] at hh
  · exact ⟨hev, hsto, hint, hm⟩

theorem landed_of_ctrlWrite {k : Res → Pos → Phase → Prop} {res : Res} {pos : Pos} {ph : Phase} {v : Byte}
    (h : inPlace k res pos ph (.write .ctrl v)) : pos.landed := by
  obtain ⟨-, hl, -⟩ | ⟨-, hl, -⟩ | ⟨-, ⟨b, rfl, -⟩ | ⟨b, rfl, -⟩ | ⟨rfl, -⟩⟩ | ⟨-, rfl, -⟩ := h
  exacts [hl, hl, trivial, trivial, trivial, trivial]

theorem bit7_of_ctrlWrite {k : Res → Pos → Phase → Prop} {res : Res} {pos : Pos} {ph : Phase} {v : Byte}
    (h : inPlace k res pos ph (.write .ctrl v)) : v.getLsbD 7 = true := by
  obtain ⟨rfl, -⟩ | ⟨rfl, -⟩ | ⟨rfl, -⟩ | ⟨rfl, -⟩ := h <;> rfl

/-! ### The invariant under steps that leave the block alone -/

/-- The invariant speaks of the peripheral and the sequencer only. -/
theorem Inv.keeps {s t : State} (h : Inv s) (hp : t.per = s.per) (hq : t.sqr = s.sqr) : Inv t := by
  obtain ⟨h1, h2, h3, h4, h5, h6, h7⟩ := h
  constructor <;> simpa only [hp, hq]

theorem inv_resetWith (cfg : Cfg) : Inv (State.resetWith cfg) where
  ieClear := rfl
  noCollision := rfl
  busFree := ⟨fun _ => rfl, fun _ => rfl⟩
  evPending := nofun
  stoPending := nofun
  placed := ⟨.anywhere, rfl, trivial, trivial⟩
  atRest _ := ⟨rfl, rfl, rfl⟩

theorem inv_delayUnit {s : State} (h : Inv s) : Inv (delayUnitStep s) where
  ieClear := h.ieClear
  noCollision := h.noCollision
  busFree := h.busFree
  evPending := h.evPending
  stoPending := h.stoPending
  placed := h.placed
  atRest hr := by
    obtain ⟨hcont, hbound, -⟩ := h.atRest hr
    exact ⟨hcont, hbound, rfl⟩

/-- A READY machine stands in a landed place that fits its phase. -/
theorem Inv.rests {s : State} (h : Inv s) (hr : s.sqr.seq = .ready) :
    ∃ pos : Pos, pos.realized s.per ∧ pos.landed ∧ pos.fits s.sqr.phase := by
  obtain ⟨pos, hreal, hco⟩ := h.placed
  obtain ⟨hcont, hbound, -⟩ := h.atRest hr
  rw [hcont, hbound] at hco
  exact ⟨pos, hreal, hco⟩

/-! ### The sequencer -/

theorem inv_finish {s : State} (h : Inv s) (hd : s.sqr.delay = none) {pos : Pos} (hreal : pos.realized s.per)
    (hl : pos.landed) (hfit : pos.fits s.sqr.phase) : Inv (finish s) where
  ieClear := h.ieClear
  noCollision := h.noCollision
  busFree := h.busFree
  evPending := h.evPending
  stoPending := h.stoPending
  placed := ⟨pos, hreal, hl, hfit⟩
  atRest _ := ⟨rfl, rfl, hd⟩

theorem inv_dataWrite {s : State} (h : Inv s) (hb : s.sqr.seq = .busy) {m : XMode} (hreal : (Pos.settled m).realized s.per) (b : Byte)
    {rest : List Task} (hco : Coherent rest s.sqr.bound.res (.loaded m b) s.sqr.phase) :
    Inv (logReg (.w .data b) (pop rest { s with per := writeReg .data b s.per })) := by
  rw [writeReg_data, writeData_taken (Pos.settled_int hreal)]
  obtain ⟨hev, hsto, hint, hm⟩ := hreal
  exact h.moved hb (pos := .loaded m b) h.ieClear rfl h.busFree h.evPending h.stoPending ⟨hev, hsto, hint, hm, rfl⟩ hco

/-- A STATUS or BITRATE write touches no field the invariant reads. -/
theorem inv_configWrite {s : State} (h : Inv s) (hb : s.sqr.seq = .busy) {pos : Pos} (hreal : pos.realized s.per) {r : Reg}
    (hr : r = .status ∨ r = .bitrate) (v : Byte) {rest : List Task} (hco : Coherent rest s.sqr.bound.res pos s.sqr.phase) :
    Inv (logReg (.w r v) (pop rest { s with per := writeReg r v s.per })) := by
  obtain rfl | rfl := hr <;>
    exact h.moved hb (pos := pos) h.ieClear h.noCollision h.busFree h.evPending h.stoPending
      ((Pos.realized_congr rfl rfl rfl rfl).2 hreal) hco

theorem inv_check {s : State} (h : Inv s) (hb : s.sqr.seq = .busy) {m : XMode} (hreal : (Pos.settled m).realized s.per) (st : Stage)
    {rest : List Task} (hpass : Coherent rest s.sqr.bound.res (.settled m) (phaseAfter st s.sqr.phase))
    (hfail : Coherent rest .err (.settled m) .failed) :
    Inv (checkStatus st (pop rest s)) ∧ (checkStatus st (pop rest s)).fault = s.fault := by
  cases hx : expected st (statusCode (readReg .status (pop rest s))) with
  | true => rw [checkStatus_pass hx]; exact ⟨h.same hb rfl hreal hpass, rfl⟩
  | false => rw [checkStatus_fail hx]; exact ⟨h.same hb rfl hreal hfail, rfl⟩

/-- A called instruction in its place runs a body in its place. -/
theorem call_inPlace {i : Instr} {res : Res} {pos : Pos} {ph : Phase} {rest : List Task}
    (h : inPlace (Coherent rest) res pos ph (.run i)) (s : State) :
    ∃ body, exec i s = expand body s ∧ Coherent (body ++ rest) res pos ph := by
  cases i with
  | addressByte addr dir =>
    obtain ⟨rfl, rfl, hok, herr⟩ := h
    refine ⟨_, exec_addressByte s addr dir, co_send (.inl ⟨rfl, ?_⟩) hok herr⟩
    rw [dirOf_addressByte]
    cases dir <;> rfl
  | commandFrame c | characterFrame c | backlightFrame reg val =>
    obtain ⟨rfl, hl, hok, herr⟩ := h
    exact ⟨_, rfl, co_transmit (addr_even _) hl hok herr⟩
  | lcdClear | lcdHome _ | lcdEntryMode _ _ | lcdDisplayControl _ _ _ | lcdFunctionSet _ _ _ _ | lcdSetDdram _ =>
    obtain ⟨rfl, ht⟩ := h
    exact ⟨_, rfl, rfl, ht⟩
  | _ => exact h.elim

theorem inv_call {s t : State} (h : Inv s) (hf : s.fault = none) (hb : s.sqr.seq = .busy) {pos : Pos} (hreal : pos.realized s.per)
    {i : Instr} {rest : List Task} (hi : inPlace (Coherent rest) s.sqr.bound.res pos s.sqr.phase (.run i))
    (hn : afterCall s (exec i (pop rest s)) = .next t) : Inv t ∧ t.fault = none := by
  obtain ⟨body, hexec, hco⟩ := call_inPlace hi (pop rest s)
  have hnext := expand_next body (s := pop rest s) hf
  rw [hexec, hnext, afterCall_next (by exact hf)] at hn
  rw [hn] at hnext
  exact inv_expand h hf hb hreal hnext hco

/-- A loop head's items, in their place, come before what is left. -/
theorem inv_iterate {s : State} (h : Inv s) (hb : s.sqr.seq = .busy) {pos : Pos} (hreal : pos.realized s.per) (i : Nat)
    {body rest : List Task} (hco : Coherent (body ++ rest) s.sqr.bound.res pos s.sqr.phase) : Inv (iterate i body rest s) :=
  h.same hb rfl hreal hco

theorem inv_runOp {s t : State} (h : Inv s) (hf : s.fault = none) (hb : s.sqr.seq = .busy) {pos : Pos} (hreal : pos.realized s.per)
    {op : Op} {rest : List Task} (hh : holds s op = false) (hi : inPlace (Coherent rest) s.sqr.bound.res pos s.sqr.phase op)
    (hn : runOp op rest s = .next t) : Inv t ∧ t.fault = none := by
  have answers : ∀ u : State, runOp op rest s = .next u → Inv u ∧ u.fault = s.fault → Inv t ∧ t.fault = none := by
    rintro u hu ⟨hinv, hfault⟩
    rw [hu] at hn
    injection hn with hn
    subst hn
    exact ⟨hinv, hfault.trans hf⟩
  cases op with
  | write r v =>
    cases r with
    | ctrl =>
      have h7 := bit7_of_ctrlWrite hi
      exact inv_trigger h hf hb hreal h7 hh hi (hn ▸ (if_pos ⟨rfl, h7⟩).symm)
    | data =>
      obtain ⟨m, rfl, hco⟩ := hi
      exact answers _ (runOp_write_plain (by simp) rest s) ⟨inv_dataWrite h hb hreal v hco, rfl⟩
    | status => exact answers _ (runOp_write_plain (by simp) rest s) ⟨inv_configWrite h hb hreal (.inl rfl) v hi, rfl⟩
    | bitrate => exact answers _ (runOp_write_plain (by simp) rest s) ⟨inv_configWrite h hb hreal (.inr rfl) v hi, rfl⟩
  | wait =>
    obtain ⟨e, rfl, hco⟩ := hi
    exact answers _ rfl ⟨h.same hb rfl (hreal.settles hh) hco, rfl⟩
  | check st =>
    obtain ⟨m, rfl, hpass, hfail⟩ := hi
    exact answers _ rfl (inv_check h hb hreal st hpass hfail)
  | take =>
    obtain ⟨m, rfl, hco⟩ := hi
    exact answers _ rfl ⟨h.same hb rfl hreal hco, rfl⟩
  | delay n => exact answers _ rfl ⟨h.same hb rfl hreal hi, rfl⟩
  | setPhase p => exact answers _ rfl ⟨h.same hb rfl hreal hi, rfl⟩
  | run i => exact inv_call h hf hb hreal hi hn
  | writeBytes i buf =>
    obtain ⟨hres, rfl, hok, herr⟩ := hi
    cases buf with
    | nil => exact answers _ rfl ⟨h.same hb rfl hreal (by rw [pop_bound, hres]; exact hok), rfl⟩
    | cons b bs =>
      refine answers _ rfl ⟨inv_iterate h hb hreal i ?_, rfl⟩
      rw [hres, List.append_assoc]
      exact co_send (.inr ⟨rfl, rfl⟩) ⟨rfl, rfl, hok, herr⟩ herr
  | readBytes i acked =>
    obtain ⟨hres, rfl, hok⟩ := hi
    cases acked with
    | zero =>
      refine answers _ rfl ⟨inv_iterate h hb hreal i ?_, rfl⟩
      rw [hres]
      exact .inr (.inr (.inl ⟨rfl, .inr (.inr ⟨rfl, _, rfl, _, rfl, hok⟩)⟩))
    | succ k =>
      refine answers _ rfl ⟨inv_iterate h hb hreal i ?_, rfl⟩
      rw [hres]
      exact .inr (.inr (.inr ⟨rfl, rfl, _, rfl, _, rfl, rfl, rfl, hok⟩))
  | putString i str =>
    cases str with
    | nil =>
      obtain ⟨hres, hok⟩ := hi
      exact answers _ rfl ⟨h.same hb rfl hreal (by rw [pop_bound, hres]; exact hok), rfl⟩
    | cons c cs =>
      obtain ⟨hres, hl, hok, herr⟩ := hi
      refine answers _ rfl ⟨inv_iterate h hb hreal i ?_, rfl⟩
      rw [hres]
      refine ⟨rfl, hl, ?_, herr⟩
      cases cs with
      | nil => exact ⟨rfl, hok⟩
      | cons d ds => exact ⟨rfl, trivial, hok, herr⟩
  | clearBody =>
    obtain ⟨hres, hl, hok, herr⟩ := hi
    refine answers _ rfl ⟨h.same hb rfl hreal ?_, rfl⟩
    rw [pop_bound, hres]
    exact co_lcd clearByte ⟨rfl, hl, hok, trivial, herr⟩

theorem busy_of_not_ready {q : Seq} (h : ¬ q = .ready) : q = .busy := by
  cases q with
  | ready => exact absurd rfl h
  | busy => rfl

theorem inv_sequencer {s t : State} (h : Inv s) (hf : s.fault = none) (hn : sequencerStep s = .next t) : Inv t ∧ t.fault = none := by
  unfold sequencerStep at hn
  split at hn
  · cases hn
    exact ⟨h, hf⟩
  · next hidle =>
    obtain ⟨hready, hdelay⟩ := not_or.1 hidle
    have hb : s.sqr.seq = .busy := busy_of_not_ready hready
    obtain ⟨pos, hreal, hco⟩ := h.placed
    obtain ⟨hend, hitem⟩ := pending_inPlace hco
    split at hn
    · next hp =>
      cases hn
      obtain ⟨hl, hfit⟩ := hend hp
      exact ⟨inv_finish h (by simpa using hdelay) hreal hl hfit, hf⟩
    · next item rest hp =>
      split at hn
      · cases hn
        exact ⟨h, hf⟩
      · next hh => exact inv_runOp h hf hb hreal (by simpa using hh) (hitem _ _ hp) hn

/-! ### The host -/

theorem inv_raise {s t : State} (h : Inv s) {f : Fault} (hn : raise f s = .next t) : Inv t := by
  cases hn
  exact h.keeps rfl rfl

theorem inv_command {s t : State} (h : Inv s) (hf : s.fault = none) (hr : s.sqr.seq = .ready) {i : Instr} (hi : isCommand i = true)
    (hn : exec i s = .next t) : Inv t := by
  obtain ⟨o, f, adm, out, body, he⟩ := exec_command hi s
  obtain ⟨-, ha⟩ | ⟨-, r, -, ha⟩ | ⟨-, -, -, ha⟩ | ⟨-, -, -, ha⟩ :=
    accept_cases (o := o) (f := f) (adm := adm) (out := out) (body := body) hf
  · exact inv_raise h (ha.symm.trans (he.symm.trans hn))
  · exact inv_raise h (ha.symm.trans (he.symm.trans hn))
  · exact inv_raise h (ha.symm.trans (he.symm.trans hn))
  · have ht : t.fault = none := by
      rw [he, ha] at hn
      cases hn
      exact hf
    obtain ⟨pos, hreal, hl, hfit⟩ := h.rests hr
    obtain ⟨hbusy, hper, hph, hco⟩ := co_body hi he hf hn ht hl hfit
    exact h.same hbusy hper hreal (hph ▸ hco)

theorem inv_present {s t : State} (h : Inv s) (hf : s.fault = none) (d : List Byte) (hn : presentDescriptor d s = .next t) : Inv t := by
  unfold presentDescriptor at hn
  split at hn
  · exact inv_raise h hn
  · next hr =>
    split at hn
    · exact inv_raise h hn
    · next i hd =>
      obtain hi | rfl := decode_hostCmd hd
      · exact inv_command h hf hr hi hn
      · exact inv_raise h ((exec_illegal_ready d hf hr).symm.trans hn)

theorem inv_readResult {back s t : State} (hback : Inv back) (h : Inv s) (hn : readResult back s = .next t) : Inv t := by
  unfold readResult at hn
  split at hn
  · exact inv_raise h hn
  · split at hn <;> cases hn
    · exact hback
    · exact h.keeps rfl rfl

theorem inv_host {s t : State} (h : Inv s) (hf : s.fault = none) (hn : hostStep s = .next t) : Inv t := by
  unfold hostStep at hn
  split at hn
  · cases hn
    exact h
  · next a rest _ =>
    have h' : Inv { s with env := { s.env with host := rest } } := h.keeps rfl rfl
    cases a with
    | present d => exact inv_present h' hf d hn
    | readResult => exact inv_readResult h h' hn

/-! ### One step -/

theorem nextAgent_eq (s : State) : ∃ sched, (nextAgent s).2 = { s with env := { s.env with sched := sched } } := by
  unfold nextAgent
  split <;> exact ⟨_, rfl⟩

/-- A step that answers a next state is one agent's step of a machine that is not marked; at most the schedule has moved on before it. -/
theorem step_next {s t : State} (h : step s = .next t) :
    s.fault = none ∧ ∃ (a : Agent) (sched : List Agent), agentStep a { s with env := { s.env with sched := sched } } = .next t := by
  have hf : s.fault = none := by
    cases hf : s.fault with
    | none => rfl
    | some f => rw [step, stepOnce, unlessFaulted_some hf] at h; cases h
  rw [step, stepOnce, unlessFaulted_none hf] at h
  split at h
  · obtain ⟨sched, hs⟩ := nextAgent_eq s
    rw [hs] at h
    exact ⟨hf, _, sched, h⟩
  · cases h

theorem inv_step {s t : State} (h : Inv s) (hn : step s = .next t) : Inv t := by
  obtain ⟨hf, a, sched, ha⟩ := step_next hn
  have h' : Inv { s with env := { s.env with sched := sched } } := h.keeps rfl rfl
  cases a with
  | host => exact inv_host h' hf ha
  | sequencer => exact (inv_sequencer h' hf ha).1
  | peripheral => cases ha; exact inv_peripheral h'
  | delayUnit => cases ha; exact inv_delayUnit h'

/-- Settles O51: each agent keeps the invariant, and the sequencer's items in their place raise no fault. -/
theorem everyStepKeepsTheInvariant : Obligations.EveryStepKeepsTheInvariant := by
  refine ⟨fun s t => inv_step, fun s t later h ht hn => ?_⟩
  rw [step_turn ht] at hn
  exact (inv_sequencer (s := onward later s) (h.keeps rfl rfl) ht.faultless hn).2

/-- Settles O50: a reset machine has nothing in flight and nothing left to run. -/
theorem invariantHoldsAtReset : Obligations.InvariantHoldsAtReset :=
  ⟨inv_resetWith, inv_resetWith Config.default⟩

/-! ### What the sequencer writes -/

theorem Inv.ctrlWrite_evNone {v : Byte} {g : Guard} {rest : List Task} {s : State} (h : Inv s)
    (hp : pending s = { op := .write .ctrl v, guard := g } :: rest) : s.per.ev = none := by
  obtain ⟨pos, hreal, hco⟩ := h.placed
  exact hreal.evNone (landed_of_ctrlWrite ((pending_inPlace hco).2 _ _ hp))

theorem Inv.dataWrite_int {v : Byte} {g : Guard} {rest : List Task} {s : State} (h : Inv s)
    (hp : pending s = { op := .write .data v, guard := g } :: rest) : s.per.ctrl.int = true := by
  obtain ⟨pos, hreal, hco⟩ := h.placed
  obtain ⟨m, rfl, -⟩ := (pending_inPlace hco).2 _ _ hp
  exact Pos.settled_int hreal

/-- Settles O22: R110's values, none of them with bit 0 set, under an invariant that has IE clear. -/
theorem sequencerWritesFiveControlValues : Obligations.SequencerWritesFiveControlValues := by
  intro v g rest s h hp
  refine ⟨h.ctrlWrite hp, ?_, h.ieClear⟩
  obtain rfl | rfl | ⟨rfl, -⟩ | ⟨rfl, -⟩ := h.ctrlWrite hp <;> rfl

/-- Settles O4: R35 by the flag, and the invariant has INT set wherever a DATA write is in its place. -/
theorem dataWriteNeedsTheFlag : Obligations.DataWriteNeedsTheFlag :=
  ⟨fun v rest s => runOp_write_plain (by simp) rest s, fun _ _ _ _ h hp => h.dataWrite_int hp⟩

/-- A trigger row's meaning is a use of `trigger`. -/
theorem exec_trigger {i : Instr} {m : XMode} (hl : i.layer = .ctrlTrigger m) (s : State) :
    ∃ v d f, exec i s = trigger v d f s := by
  cases i <;> cases hl <;> exact ⟨_, _, _, rfl⟩

/-- Settles O20: the in-flight fault comes after the hold and before the pair's, and a CTRL write in its place has no event in flight. -/
theorem triggerInFlightFaults : Obligations.TriggerInFlightFaults := by
  refine ⟨fun i m s hl hf hs he => ?_, fun _ _ _ _ h hp => h.ctrlWrite_evNone hp⟩
  obtain ⟨v, d, f, hx⟩ := exec_trigger hl s
  rw [hx, trigger, unlessFaulted_none hf, hs, Option.isSome_iff_ne_none.2 he]
  rfl

end Sys2Proof.Machine
end

section
/-! PROOFS. 30_encoding.md R104, R106 and 60_exceptions.md R303: what each command latches, checks and starts, and the checks of
acceptance in their order. -/

namespace Sys2Proof.Machine

/-! ### The acceptance of a command -/

/-- What a command's meaning gives `accept`, the phases it is admitted in apart. -/
structure Acceptance where
  opnd : Opnd
  fault : Option Fault
  out : Option (List Byte)
  body : List Task

/-- R106, R181 to R191, R233 to R241: the twenty commands. `exec_acceptance` ties the table to the meanings. -/
def acceptance (cfg : Cfg) : Instr → Acceptance
  | .busInit => ⟨latch 0x01#8 [] [], none, none, busInitBody cfg⟩
  | .beginTx ab => ⟨latch 0x02#8 [ab] [], none, none, beginBody ab⟩
  | .endTx => ⟨latch 0x03#8 [] [], none, none, endBody⟩
  | .writeByte b => ⟨latch 0x04#8 [b] [], none, none, writeByteBody b⟩
  | .writeBytes buf => ⟨latch 0x05#8 [countByte buf] buf, none, none, writeBytesBody buf⟩
  | .readAck => ⟨latch 0x06#8 [] [], none, some [], readAckBody⟩
  | .readNack => ⟨latch 0x07#8 [] [], none, some [], readNackBody⟩
  | .readBytes n => ⟨latch 0x08#8 [n] [], checkCount n, some [], readBytesBody n⟩
  | .transmitOne a b => ⟨latch 0x09#8 [a, b] [], checkAddress a, none, transmitBody (writeAddress a) [b]⟩
  | .transmitTwo a b0 b1 => ⟨latch 0x0A#8 [a, b0, b1] [], checkAddress a, none, transmitBody (writeAddress a) [b0, b1]⟩
  | .transmitMany a buf => ⟨latch 0x0B#8 [a, countByte buf] buf, checkAddress a, none, transmitBody (writeAddress a) buf⟩
  | .dispInit => ⟨latch 0x10#8 [] [], none, none, dispInitBody cfg⟩
  | .clear => ⟨latch 0x11#8 [] [], none, none, clearBodyTasks cfg⟩
  | .home => ⟨latch 0x12#8 [] [], none, none, homeBody cfg⟩
  | .setCursor col row => ⟨latch 0x13#8 [col, row] [], checkRow row, none, setCursorBody cfg col row⟩
  | .putChar c => ⟨latch 0x14#8 [c] [], none, none, chrBody c⟩
  | .putString str => ⟨latch 0x15#8 [countByte str] str, checkString str, none, putStringBody str⟩
  | .setBlReg reg val => ⟨latch 0x16#8 [reg, val] [], none, none, blWriteBody reg val⟩
  | .setBlRgb r g b => ⟨latch 0x17#8 [r, g, b] [], none, none, setBlRgbBody cfg r g b⟩
  | .setBlColor r g b => ⟨latch 0x18#8 [r, g, b] [], none, none, setBlRgbBody cfg r g b⟩
  | _ => ⟨latch 0x00#8 [] [], none, none, []⟩

/-- The state an accepted command starts in. -/
def begun (i : Instr) (s : State) : State :=
  accepted (acceptance s.cfg i).opnd (acceptance s.cfg i).out (acceptance s.cfg i).body s

theorem exec_acceptance {i : Instr} (hi : isCommand i = true) (s : State) : exec i s
    = accept (acceptance s.cfg i).opnd (acceptance s.cfg i).fault (admittedIn i s.sqr.phase) (acceptance s.cfg i).out
        (acceptance s.cfg i).body s := by
  cases i <;> cases hi <;> rfl

theorem checkAddress_none {a : Byte} (h : a.getLsbD 7 = false) : checkAddress a = none := by
  rw [checkAddress, h]
  rfl

theorem checkString_none_iff {str : List Byte} : checkString str = none ↔ 0#8 ∉ str := by
  simp [checkString]

/-- R104: a well-formed command passes its operand check. -/
theorem acceptance_fault_of_wf (cfg : Cfg) {i : Instr} (hw : i.wf = true) : (acceptance cfg i).fault = none := by
  cases i with
  | readBytes n => exact if_neg (by simpa [Instr.wf] using hw)
  | transmitOne a b => exact checkAddress_none (by simpa [Instr.wf] using hw)
  | transmitTwo a b0 b1 => exact checkAddress_none (by simpa [Instr.wf] using hw)
  | transmitMany a buf =>
    obtain ⟨ha, -⟩ : a.getLsbD 7 = false ∧ buf.length ≤ Config.maxBuf := by simpa [Instr.wf] using hw
    exact checkAddress_none ha
  | setCursor col row => exact if_pos (by simpa [Instr.wf] using hw)
  | putString str =>
    obtain ⟨-, hstr⟩ : str.length ≤ Config.maxBuf ∧ ∀ c ∈ str, c ≠ 0#8 := by simpa [Instr.wf] using hw
    exact checkString_none_iff.2 fun h => hstr _ h rfl
  | _ => rfl

/-- R104, R303: the fault of an ill-formed command that decodes. A decoded buffer is never too long. -/
theorem acceptance_fault_of_not_wf (cfg : Cfg) {op : Opcode} {args : List Byte} {i : Instr}
    (hd : decodeOperands op args = .ok i) (hw : i.wf = false) :
    (acceptance cfg i).fault = some (if i = .readBytes 0#8 then .readCountZero else .badOperand) := by
  cases op with
  | busInit | endTx | readAck | readNack | dispInit | clear | home =>
    obtain ⟨rfl, -⟩ := noOperand_eq_ok hd
    cases hw
  | beginTx | writeByte | putChar =>
    obtain ⟨a, rfl, -⟩ := oneOperand_eq_ok hd
    cases hw
  | readBytes =>
    obtain ⟨n, rfl, -⟩ := oneOperand_eq_ok hd
    obtain rfl : n = 0#8 := by simpa [Instr.wf] using hw
    rfl
  | setBlReg =>
    obtain ⟨a, b, rfl, -⟩ := twoOperands_eq_ok hd
    cases hw
  | transmitOne =>
    obtain ⟨a, b, rfl, -⟩ := twoOperands_eq_ok hd
    have ha : a.getLsbD 7 = true := by simpa [Instr.wf] using hw
    exact if_pos ha
  | setCursor =>
    obtain ⟨col, row, rfl, -⟩ := twoOperands_eq_ok hd
    exact if_neg (by simpa [Instr.wf] using hw)
  | setBlRgb | setBlColor =>
    obtain ⟨a, b, c, rfl, -⟩ := threeOperands_eq_ok hd
    cases hw
  | transmitTwo =>
    obtain ⟨a, b, c, rfl, -⟩ := threeOperands_eq_ok hd
    have ha : a.getLsbD 7 = true := by simpa [Instr.wf] using hw
    exact if_pos ha
  | writeBytes =>
    obtain ⟨buf, hlen, rfl, -⟩ := countedOperand_eq_ok hd
    simp [Instr.wf, hlen] at hw
  | putString =>
    obtain ⟨str, hlen, rfl, -⟩ := countedOperand_eq_ok hd
    exact if_pos (by simpa [Instr.wf, hlen] using hw)
  | transmitMany =>
    obtain ⟨a, buf, hlen, rfl, -⟩ := addressedOperand_eq_ok hd
    have ha : a.getLsbD 7 = true := by simpa [Instr.wf, hlen] using hw
    exact if_pos ha

theorem descriptorOf_acceptance (cfg : Cfg) {i : Instr} (hi : isCommand i = true) :
    descriptorOf (some (acceptance cfg i).opnd) = encode cfg i := by
  cases i <;> cases hi <;> rfl

theorem acceptance_idx (cfg : Cfg) (i : Instr) : (acceptance cfg i).opnd.idx = 0#8 := by
  cases i <;> rfl

theorem acceptance_body_ne_nil (cfg : Cfg) {i : Instr} (hi : isCommand i = true) : (acceptance cfg i).body ≠ [] := by
  cases i <;> cases hi <;> nofun

/-! ### The meanings of commands -/

section
variable {i : Instr} {s : State}

theorem exec_begun (hi : isCommand i = true) (hw : i.wf = true) (hf : s.fault = none) (hr : s.sqr.seq = .ready)
    (ha : admittedIn i s.sqr.phase = true) : exec i s = .next (begun i s) := by
  rw [exec_acceptance hi, acceptance_fault_of_wf _ hw, accept_ok hf hr ha]
  rfl

theorem exec_operandFault {f : Fault} (hi : isCommand i = true) (hf : s.fault = none) (hr : s.sqr.seq = .ready)
    (ho : (acceptance s.cfg i).fault = some f) : exec i s = .next { s with fault := some f } := by
  rw [exec_acceptance hi, ho, accept_operand hf hr]

theorem exec_not_admitted (hi : isCommand i = true) (ho : (acceptance s.cfg i).fault = none) (hf : s.fault = none)
    (hr : s.sqr.seq = .ready) (ha : admittedIn i s.sqr.phase = false) : exec i s = .next { s with fault := some .phase } := by
  rw [exec_acceptance hi, ho, accept_phase hf hr ha]

end

/-- Settles O26: the table's latch spells the descriptor, and no body is empty. -/
theorem acceptanceLatchesTheCommand : Obligations.AcceptanceLatchesTheCommand := by
  intro i s hi hw hf hr ha
  exact ⟨_, _, _, exec_begun hi hw hf hr ha, descriptorOf_acceptance s.cfg hi, acceptance_idx s.cfg i,
    acceptance_body_ne_nil s.cfg hi⟩

/-! ### Presenting a descriptor -/

theorem step_presents {d : List Byte} {more : List HostAction} {later : List Agent} {s : State} (ht : Turn .host s later)
    (hh : s.env.host = .present d :: more) :
    step s = presentDescriptor d { s with env := { s.env with host := more, sched := later } } := by
  rw [step_turn ht]
  simp only [agentStep, hostStep, onward, hh]

theorem presentDescriptor_busy (d : List Byte) {s : State} (hb : s.sqr.seq = .busy) :
    presentDescriptor d s = .next { s with fault := some .reentrant } := by
  simp only [presentDescriptor, hb, raise]

/-- A descriptor that decodes to a command has an opcode. -/
theorem decodeOperands_of_command {d : List Byte} {i : Instr} (hd : decodeDescriptor d = .ok i) (hi : isCommand i = true) :
    ∃ op args, decodeOperands op args = .ok i := by
  cases d with
  | nil => cases hd; cases hi
  | cons d0 args =>
    cases ho : opcodeOf d0 with
    | none => rw [decodeDescriptor_none ho] at hd; cases hd; cases hi
    | some op => exact ⟨op, args, (decodeDescriptor_some ho args).symm.trans hd⟩

/-- Settles O27: re-entrance and the decoder's two checks come first, then the command's operand check, then its phase. -/
theorem acceptChecksInOrder : Obligations.AcceptChecksInOrder := by
  intro d more later s ht hh s' faults
  have hf : s'.fault = none := ht.faultless
  have hstep : step s = presentDescriptor d s' := step_presents ht hh
  refine ⟨fun hb => hstep.trans (presentDescriptor_busy d hb), fun hr => ⟨fun hd => ?_, fun hd => ?_, fun i hd hi => ?_⟩⟩
  · exact hstep.trans ((presentDescriptor_ok (s := s') hr hd).trans (exec_illegal_ready d hf hr))
  · exact hstep.trans (presentDescriptor_error (s := s') hr hd)
  have hexec : step s = exec i s' := hstep.trans (presentDescriptor_ok (s := s') hr hd)
  obtain ⟨op, args, hops⟩ := decodeOperands_of_command hd hi
  refine ⟨fun hz => ?_, fun hz hw => ?_, fun hw ha => ?_, fun hw ha => ⟨hexec, begun i s', ?_, hf, rfl⟩⟩
  · subst hz
    exact hexec.trans (exec_operandFault hi hf hr rfl)
  · exact hexec.trans (exec_operandFault hi hf hr (by rw [acceptance_fault_of_not_wf _ hops hw, if_neg hz]))
  · exact hexec.trans (exec_not_admitted hi (acceptance_fault_of_wf _ hw) hf hr ha)
  · exact hexec.trans (exec_begun hi hw hf hr ha)

end Sys2Proof.Machine
end

section
/-! PROOFS. 41_bus_master.md: the steps of every accepted command end where its pseudocode ends, on a live bus and in the default
order. -/

namespace Sys2Proof.Machine

/-! ### From acceptance to the pseudocode's end -/

@[simp] theorem begun_per (i : Instr) (s : State) : (begun i s).per = s.per := rfl

theorem Calm.quiet_begun {s : State} (h : Calm s) (i : Instr) : Quiet (begun i s) :=
  ⟨h.legal, h.faultless, h.live, h.default, h.evNone, h.noDelay⟩

/-- In an open transaction no stop is pending, so a stop performed first leaves its consequences. -/
theorem PhaseMatches.stopped {s : State} (h : PhaseMatches s) : PhaseMatches (stopped s) := by
  constructor
  · intro hp
    rw [stopped_sqr] at hp
    obtain ⟨hm, hint, hs⟩ := h.write hp
    rw [stopped_of_none hs]
    exact ⟨hm, hint, hs⟩
  · intro hp
    rw [stopped_sqr] at hp
    obtain ⟨hm, hs⟩ := h.read hp
    rw [stopped_of_none hs]
    exact ⟨hm, hs⟩

theorem PhaseMatches.begun {s : State} (h : PhaseMatches s) (i : Instr) : PhaseMatches (begun i s) :=
  ⟨h.write, h.read⟩

theorem does_readNackBody {s : State} (r : Running s) (hr : s.sqr.bound.res = .ok) (hm : s.per.xmode = .xmr) :
    Does readNackBody s (setPhase .readDone (recvNackP s), .ok) := by
  have h := does_recvNack r hr hm
  exact h.andThen (f := fun s => (setPhase .readDone s, .ok)) (fun _ => does_setPhase h.running.1 h.running.2 _) (.cons .nil)

/-- Each command's items do what its pseudocode does, from a state that its phase matches. -/
theorem does_body {i : Instr} (hi : isCommand i = true) {s : State} (r : Running s) (hr : s.sqr.bound.res = .ok)
    (hp : PhaseMatches s) (ha : admittedIn i s.sqr.phase = true) : Does (acceptance s.cfg i).body s (bodyP i s) := by
  have inXmr : s.sqr.phase = .read → s.per.xmode = .xmr := fun h => (hp.read h).1
  cases i with
  | busInit => exact does_busInit r hr
  | beginTx ab => exact does_begin r hr ab
  | endTx => exact does_end r hr
  | writeByte b =>
    obtain ⟨hm, hint, -⟩ := hp.write (by simpa [admittedIn] using ha)
    exact does_writeByte r hr hint hm b
  | writeBytes buf =>
    obtain ⟨hm, hint, -⟩ := hp.write (by simpa [admittedIn] using ha)
    exact does_writeBytes buf 0 r hr hint hm
  | readAck => exact does_recvAck r hr (inXmr (by simpa [admittedIn] using ha))
  | readNack => exact does_readNackBody r hr (inXmr (by simpa [admittedIn] using ha))
  | readBytes n => exact does_readBytes _ 0 r hr (inXmr (by simpa [admittedIn] using ha))
  | transmitOne a b => exact does_transmit r hr (getLsbD_zero_writeAddress a) _
  | transmitTwo a b0 b1 => exact does_transmit r hr (getLsbD_zero_writeAddress a) _
  | transmitMany a buf => exact does_transmit r hr (getLsbD_zero_writeAddress a) _
  | dispInit => exact does_dispInit r hr
  | clear => exact does_clear r hr
  | home => exact does_home r hr
  | setCursor col row => exact does_cmd r hr _
  | putChar c => exact does_chr r hr c
  | putString str => exact does_putString str 0 r hr
  | setBlReg reg val => exact does_blWrite r hr reg val
  | setBlRgb red g b => exact does_setBlRgb r hr s.cfg red g b
  | setBlColor red g b => exact does_setBlRgb r hr s.cfg red g b
  | illegal _ | start | sendAddr | sendData | recvAck | recvNack | stop | ctrlUndefined _ _ | lcdClear | lcdHome _
  | lcdEntryMode _ _ | lcdDisplayControl _ _ _ | lcdFunctionSet _ _ _ _ | lcdSetDdram _ | addressByte _ _
  | commandFrame _ | characterFrame _ | backlightFrame _ _ => cases hi

section
variable {i : Instr} {s : State}

/-- The pseudocode starts in a running machine, a stop still pending performed. -/
theorem Calm.does_bodyP (h : Calm s) (hi : isCommand i = true) (ha : admittedIn i s.sqr.phase = true)
    (r : Running (stopped (begun i s))) : Does (acceptance s.cfg i).body (stopped (begun i s)) (bodyP i (stopped (begun i s))) := by
  have hd := does_body hi r (by rw [stopped_sqr]; rfl) (h.toPhaseMatches.begun i).stopped (by rw [stopped_sqr]; exact ha)
  rwa [stopped_cfg] at hd

theorem Calm.reaches_runP (h : Calm s) (hi : isCommand i = true) (ha : admittedIn i s.sqr.phase = true) :
    Reaches (begun i s) (runP i (begun i s)) :=
  run_does (h.quiet_begun i) rfl rfl rfl (h.does_bodyP hi ha)

theorem Calm.ends_runP (h : Calm s) (hi : isCommand i = true) (hw : i.wf = true) (ha : admittedIn i s.sqr.phase = true) :
    Ends i s (runP i (begun i s)) :=
  ⟨begun i s, exec_begun hi hw h.faultless h.ready ha, h.reaches_runP hi ha⟩

/-- The machine a stop's performance leaves is running. -/
theorem Calm.running_stopped (h : Calm s) (i : Instr) : Running (stopped (begun i s)) where
  legal := by rw [stopped_cfg]; exact h.legal
  faultless := by rw [stopped_fault]; exact h.faultless
  live := by rw [stopped_env]; exact h.live
  default := by rw [stopped_env]; exact h.default
  busy := by rw [stopped_sqr]; rfl
  evNone := by rw [stopped_ev]; exact h.evNone
  noStop := stopped_sto _
  noDelay := by rw [stopped_sqr]; exact h.noDelay

end

/-- Settles O49: the accepted command's items do what the pseudocode does, and the end is the pseudocode's. -/
theorem commandsFollowTheirPseudocode : Obligations.CommandsFollowTheirPseudocode := fun i s hi hw h ha =>
  ⟨begun i s, exec_begun hi hw h.faultless h.ready ha, h.reaches_runP hi ha, rfl⟩

end Sys2Proof.Machine
end

section
/-! PROOFS. 41_bus_master.md sections 1 to 4: the raw bus master commands, each with the whole state it ends in. -/

namespace Sys2Proof.Machine

/-! ### The end of a command -/

/-- The state a command's pseudocode starts in: a stop still pending has been performed. -/
def launched (i : Instr) (s : State) : State := begun i { s with per := (stopped s).per }

theorem stopped_begun (i : Instr) (s : State) : stopped (begun i s) = launched i s :=
  stopped_accepted _ _ _ s

theorem launched_of_noStop (i : Instr) {s : State} (h : s.per.ctrl.sto = false) : launched i s = begun i s := by
  rw [launched, stopped_of_none h]

/-- What a command that started in `s` leaves in `x` when its pseudocode is through: the phase, the bytes to report, the latch, and
what it added to the two traces. -/
structure Leaves (s x : State) (ph : Phase) (rdata : List Byte) (o : Opnd) (bus : List BusEvent) (regs : List RegEvent) : Prop where
  cfg : x.cfg = s.cfg
  fault : x.fault = s.fault
  phase : x.sqr.phase = ph
  rdata : x.sqr.bound.out.getD x.sqr.rdata = rdata
  opnd : x.sqr.opnd = some o
  delay : x.sqr.delay = none
  trace : x.obs.trace = s.obs.trace ++ bus
  regTrace : x.obs.regTrace = s.obs.regTrace ++ regs
  reports : x.obs.reports = s.obs.reports
  seen : x.obs.seen = s.obs.seen

theorem Leaves.finishWith_eq {s x : State} {ph rdata o bus regs} (h : Leaves s x ph rdata o bus regs) (r : Res) {p : Periph} {v : Env}
    (hp : x.per = p) (hv : x.env = v) :
    finishWith (x, r) = { ended ph r rdata o bus regs s with per := p, env := v } := by
  obtain ⟨hcfg, hfault, hph, hrd, ho, hd, htr, hreg, hrep, hseen⟩ := h
  rw [Machine.finishWith_eq hd ho]
  simp only [ended, hcfg, hfault, hph, hrd, htr, hreg, hrep, hseen, hp, hv]

section
variable {i : Instr} {s : State}

/-- A command ends where its pseudocode ends. -/
theorem Calm.ends_bodyP (h : Calm s) (hi : isCommand i = true) (hw : i.wf = true) (ha : admittedIn i s.sqr.phase = true) :
    Ends i s (finishWith (bodyP i (launched i s))) := by
  have hrun := h.ends_runP hi hw ha
  rwa [runP, stopped_begun] at hrun

/-- A command ends in what its pseudocode leaves. -/
theorem Calm.ends_of (h : Calm s) (hi : isCommand i = true) (hw : i.wf = true) (ha : admittedIn i s.sqr.phase = true)
    {x : State} {r : Res} (hx : bodyP i (launched i s) = (x, r)) {ph rdata o bus regs} (hl : Leaves s x ph rdata o bus regs)
    {p : Periph} {v : Env} (hp : x.per = p) (hv : x.env = v) :
    Ends i s { ended ph r rdata o bus regs s with per := p, env := v } := by
  have hend := h.ends_bodyP hi hw ha
  rwa [hx, hl.finishWith_eq r hp hv] at hend

/-- A phase the command is not admitted in, with no operand to check. -/
theorem exec_wrongPhase (hi : isCommand i = true) (ho : (acceptance s.cfg i).fault = none) {p : Phase}
    (hadm : admittedIn i s.sqr.phase = (s.sqr.phase == p)) (hf : s.fault = none) (hr : s.sqr.seq = .ready)
    (hp : s.sqr.phase ≠ p) : exec i s = .next { s with fault := some .phase } :=
  exec_not_admitted hi ho hf hr (by rw [hadm]; exact beq_false_of_ne hp)

end

/-! ### BUS_INIT -/

/-- R181: the state BUS_INIT ends in. -/
def afterBusInit (s : State) : State :=
  { ended s.sqr.phase .ok s.sqr.rdata (latch 0x01#8 [] []) [] [.w .status 0x00#8, .w .bitrate (bitRate s.cfg)] s with
    per := { (stopped s).per with status := { (stopped s).per.status with ps := 0#2 }, bitrate := bitRate s.cfg } }

theorem Calm.ends_busInit {s : State} (h : Calm s) : Ends .busInit s (afterBusInit s) :=
  h.ends_of (x := busInitP (launched .busInit s)) rfl rfl rfl rfl
    ⟨rfl, rfl, rfl, rfl, rfl, h.noDelay, (List.append_nil _).symm, List.append_assoc .., rfl, rfl⟩ rfl rfl

theorem Calm.afterBusInit {s : State} (h : Calm s) : Calm (afterBusInit s) where
  legal := h.legal
  faultless := h.faultless
  live := h.live
  default := h.default
  evNone := (stopped_ev s).trans h.evNone
  noDelay := rfl
  write hp := by
    obtain ⟨hm, hint, hs⟩ := h.write hp
    rw [Machine.afterBusInit, stopped_of_none hs]
    exact ⟨hm, hint, hs⟩
  read hp := by
    obtain ⟨hm, hs⟩ := h.read hp
    rw [Machine.afterBusInit, stopped_of_none hs]
    exact ⟨hm, hs⟩
  ready := rfl

/-- R9: the divisor of a legal configuration fits its register. -/
theorem toNat_bitRate {cfg : Cfg} (h : legalCfg cfg = true) : (bitRate cfg).toNat = bitRateValue cfg := by
  obtain ⟨-, -, -, hfit, -⟩ := (legalCfg_iff cfg).1 h
  rw [bitRate, BitVec.toNat_ofNat, Nat.mod_eq_of_lt (by omega)]

/-- Settles O30: BUS_INIT ends in `afterBusInit`, which is calm again and which a second BUS_INIT leaves as it is but for its report and
the register trace. -/
theorem busInitRuns : Obligations.BusInitRuns := by
  intro s h q br t
  have hs : (afterBusInit s).per.ctrl.sto = false := stopped_sto s
  refine ⟨h.ends_busInit, toNat_bitRate h.legal, afterBusInit t, h.afterBusInit.ends_busInit, ?_, rfl, rfl, List.append_nil _⟩
  show (afterBusInit (afterBusInit s)).per = _
  rw [afterBusInit, stopped_of_none hs]
  rfl

/-! ### BEGIN -/

theorem beginP_noStart {s : State} {a : Answer} {as : List Answer} (hs : s.env.script = a :: as) (ab : Byte)
    (hx : expected .start (a.sc ++ 0#3) = false) : beginP ab s = (setPhase .failed (afterStart a s), .err) := by
  rw [beginP, startP_script hs, hx]
  rfl

theorem beginP_started {s : State} {a b : Answer} {as : List Answer} (hs : s.env.script = a :: b :: as) (ab : Byte)
    (hx : expected .start (a.sc ++ 0#3) = true) : beginP ab s
      = if expected (.addr (dirOf ab)) (b.sc ++ 0#3) then
          (setPhase (phaseAfter (.addr (dirOf ab)) s.sqr.phase) (afterSend ab (.sendAddr ab) b (afterStart a s)), .ok)
        else (setPhase .failed (afterSend ab (.sendAddr ab) b (afterStart a s)), .err) := by
  have hb : (afterStart a s).env.script = b :: as := by
    show s.env.script.drop 1 = _
    rw [hs]
    rfl
  rw [beginP, startP_script hs, hx]
  exact sendP_script hb rfl ab rfl _

/-- R164: the start's expected set. -/
theorem expected_start (c : Byte) : expected .start c = true ↔ c = 0x08#8 ∨ c = 0x10#8 := by
  simp [expected]

/-- R164: an address's expected code, by its direction bit. -/
theorem expected_addr (ab c : Byte) : expected (.addr (dirOf ab)) c = true ↔ c = if ab.getLsbD 0 then 0x40#8 else 0x18#8 := by
  unfold dirOf
  cases ab.getLsbD 0 <;> simp [expected]

theorem expected_data (c : Byte) : expected .data c = true ↔ c = 0x28#8 := by
  simp [expected]

theorem phaseAfter_addr (ab : Byte) (p : Phase) : phaseAfter (.addr (dirOf ab)) p = if ab.getLsbD 0 then .read else .write := by
  unfold dirOf
  cases ab.getLsbD 0 <;> rfl

/-- Settles O31: the start's answer, then the address's, decide which of the three ends BEGIN has. -/
theorem beginRuns : Obligations.BeginRuns := by
  intro s ab a b as h hscript o q ca cb started addressed regs regs'
  have hq : q.ev = none := (stopped_ev s).trans h.evNone
  have through : ∀ {ph r},
      beginP ab (launched (.beginTx ab) s) = (setPhase ph (afterSend ab (.sendAddr ab) b (afterStart a (launched (.beginTx ab) s))), r) →
      Ends (.beginTx ab) s { ended ph r s.sqr.rdata o [.start ca, .addr ab cb] (regs ++ regs') s with
        per := addressed, env := answered 2 s } := by
    intro ph r hx
    refine h.ends_of (i := .beginTx ab) rfl rfl rfl hx
      ⟨rfl, rfl, rfl, rfl, rfl, h.noDelay, List.append_assoc .., List.append_assoc .., rfl, rfl⟩ ?_
      (answered_succ 1 s (afterStart a (launched (.beginTx ab) s)) rfl)
    simp only [setPhase_per, afterSend, afterStart, launched, begun_per, addressed, started, hq]
    rfl
  refine ⟨fun hca => ?_, fun hca => ⟨fun hcb => ?_, fun hcb => ?_⟩⟩
  · have hx : expected .start ca = false := by
      rw [← Bool.not_eq_true, expected_start]
      exact not_or.2 hca
    refine h.ends_of (i := .beginTx ab) rfl rfl rfl (beginP_noStart (s := launched _ s) hscript ab hx)
      ⟨rfl, rfl, rfl, rfl, rfl, h.noDelay, rfl, rfl, rfl, rfl⟩ ?_ rfl
    simp only [setPhase_per, afterStart, launched, begun_per, started, hq]
    rfl
  · rw [← phaseAfter_addr ab s.sqr.phase]
    exact through ((beginP_started (s := launched (.beginTx ab) s) hscript ab ((expected_start ca).2 hca)).trans
      (if_pos ((expected_addr ab cb).2 hcb)))
  · exact through ((beginP_started (s := launched (.beginTx ab) s) hscript ab ((expected_start ca).2 hca)).trans
      (if_neg (mt (expected_addr ab cb).1 hcb)))

end Sys2Proof.Machine
end

section
/-! PROOFS. 41_bus_master.md sections 2 to 4: END, the byte commands and the buffer commands. -/

namespace Sys2Proof.Machine

theorem Calm.ends_of_noStop {i : Instr} {s : State} (h : Calm s) (hs : s.per.ctrl.sto = false) (hi : isCommand i = true)
    (hw : i.wf = true) (ha : admittedIn i s.sqr.phase = true) {x : State} {r : Res} (hx : bodyP i (begun i s) = (x, r))
    {ph rdata o bus regs} (hl : Leaves s x ph rdata o bus regs) {p : Periph} {v : Env} (hp : x.per = p) (hv : x.env = v) :
    Ends i s { ended ph r rdata o bus regs s with per := p, env := v } :=
  h.ends_of hi hw ha (by rw [launched_of_noStop i hs]; exact hx) hl hp hv

/-! ### A bus that is not live -/

/-- A BUSY machine in the default order on a bus that is not live: every step is the sequencer's. -/
structure OnDeadBus (s : State) : Prop where
  legal : legalCfg s.cfg = true
  faultless : s.fault = none
  default : s.env.sched = []
  dead : s.env.live = false
  busy : s.sqr.seq = .busy
  noDelay : s.sqr.delay = none

namespace OnDeadBus
variable {s : State} (h : OnDeadBus s)
include h

theorem step_eq : step s = sequencerStep s := by
  rw [step_eq_agentStep h.legal h.faultless h.default]
  simp [defaultAgent, h.dead, h.noDelay, h.busy, agentStep]

theorem step_head {t : Task} {ts : List Task} (hp : pending s = t :: ts) (hh : holds s t.op = false) :
    step s = runOp t.op ts s := by
  rw [h.step_eq]
  simp [sequencerStep, h.busy, h.noDelay, hp, hh]

theorem step_held {t : Task} {ts : List Task} (hp : pending s = t :: ts) (hh : holds s t.op = true) : step s = .next s := by
  rw [h.step_eq]
  simp [sequencerStep, h.busy, h.noDelay, hp, hh]

theorem step_finish (hp : pending s = []) : step s = .next (finish s) := by
  rw [h.step_eq]
  simp [sequencerStep, h.busy, h.noDelay, hp]

end OnDeadBus

/-! ### END -/

/-- R158, R183: the STOP trigger of END_body and the phase it leaves; on a bus that is not live the stop stays pending. -/
def endNotPerformed (s : State) : State :=
  setPhase .idle (pop [] (logReg (.w .ctrl 0x94#8) (logBus .stop { s with per := writeCtrlFields 0x94#8 s.per })))

theorem OnDeadBus.reaches_end {s : State} (h : OnDeadBus s) (hs : s.per.ctrl.sto = false) (he : s.per.ev = none)
    (hb : s.sqr.bound.res = .ok) (hc : s.sqr.cont = endBody) : Reaches s (finish (endNotPerformed s)) := by
  let triggered := logReg (.w .ctrl 0x94#8) (pop [always (.setPhase .idle)]
    (logBus .stop { s with per := writeCtrlFields 0x94#8 s.per }))
  have h1 : step s = .next triggered := by
    rw [h.step_head ((pending_ok hb).trans hc) (by simp [always, holds, hs])]
    show afterTrigger _ _ (exec (decodeTrigger 0x94#8 s.per.xmode) s) = _
    rw [decodeTrigger_stop, exec_stop, trigger_begins h.faultless he hs]
    simp [afterTrigger, h.faultless, triggered]
  have h2 : step triggered = .next (endNotPerformed s) :=
    OnDeadBus.step_head (s := triggered) (t := always (.setPhase .idle)) (ts := [])
      ⟨h.legal, h.faultless, h.default, h.dead, h.busy, h.noDelay⟩ (pending_ok hb) rfl
  have h3 : step (endNotPerformed s) = .next (finish (endNotPerformed s)) :=
    OnDeadBus.step_finish (s := endNotPerformed s) ⟨h.legal, h.faultless, h.default, h.dead, h.busy, h.noDelay⟩ (pending_ok hb)
  exact .step_then h1 (.step_then h2 (.of_step h3))

/-- Settles O32: on a live bus END's pseudocode performs its stop, and on one that is not live three steps of the sequencer alone end
the command. -/
theorem endRuns : Obligations.EndRuns := by
  unfold Obligations.EndRuns
  intro o
  refine ⟨fun s h => ?_, fun s hl hf hd hv hr hn hs he => ?_⟩
  · exact h.ends_of (x := endP (launched .endTx s)) rfl rfl rfl rfl
      ⟨rfl, rfl, rfl, rfl, rfl, h.noDelay, rfl, rfl, rfl, rfl⟩ rfl rfl
  · have hrun := OnDeadBus.reaches_end (s := begun .endTx s) ⟨hl, hf, hd, hv, rfl, hn⟩ hs he rfl rfl
    have hleft : Leaves s (endNotPerformed (begun .endTx s)) .idle s.sqr.rdata o [.stop] [.w .ctrl 0x94#8] :=
      ⟨rfl, rfl, rfl, rfl, rfl, hn, rfl, rfl, rfl, rfl⟩
    refine ⟨begun .endTx s, exec_begun rfl rfl hf hr rfl, ?_⟩
    exact (hleft.finishWith_eq .ok rfl rfl) ▸ hrun

/-! ### The byte commands -/

/-- Settles O33: the one status decides between the two ends, and every phase but WRITE is not admitted. -/
theorem writeByteRuns : Obligations.WriteByteRuns := by
  refine ⟨fun s b a as h hph hscript => ?_, fun s b hf hr hph => exec_wrongPhase rfl rfl rfl hf hr hph⟩
  intro o c after
  obtain ⟨-, hint, hs⟩ := h.write hph
  have hev := h.evNone
  have ends : ∀ {ph r}, writeByteP b (begun (.writeByte b) s) = (setPhase ph (afterSend b (.sendData b) a (begun (.writeByte b) s)), r) →
      Ends (.writeByte b) s (after ph r) := by
    intro ph r hx
    refine h.ends_of_noStop (i := .writeByte b) hs rfl rfl (by rw [hph]; rfl) hx
      ⟨rfl, rfl, rfl, rfl, rfl, h.noDelay, rfl, rfl, rfl, rfl⟩ ?_ rfl
    simp only [setPhase_per, afterSend, begun_per, hev]
    rfl
  have hx := sendP_script (s := begun (.writeByte b) s) hscript hint b (e := .sendData b) rfl .data
  refine ⟨fun hc => ends ?_, fun hc => ends (hx.trans (if_neg (mt (expected_data c).1 hc)))⟩
  rw [← hph]
  exact hx.trans (if_pos ((expected_data c).2 hc))

/-- Settles O35: the answer's byte is taken whatever its status. -/
theorem readAckRuns : Obligations.ReadAckRuns := by
  refine ⟨fun s a as h hph hscript => ?_, fun s hf hr hph => exec_wrongPhase rfl rfl rfl hf hr hph⟩
  obtain ⟨-, hs⟩ := h.read hph
  have hev := h.evNone
  refine h.ends_of_noStop (i := .readAck) hs rfl rfl (by rw [hph]; rfl) (congrArg (·, Res.ok) (recvAckP_script hscript))
    ⟨rfl, rfl, hph, rfl, rfl, h.noDelay, rfl, rfl, rfl, rfl⟩ ?_ rfl
  simp only [afterRecv, begun_per, hev]

/-- Settles O36: the answer's byte is taken whatever its status, and the phase is READ_DONE. -/
theorem readNackRuns : Obligations.ReadNackRuns := by
  refine ⟨fun s a as h hph hscript => ?_, fun s hf hr hph => exec_wrongPhase rfl rfl rfl hf hr hph⟩
  obtain ⟨-, hs⟩ := h.read hph
  have hev := h.evNone
  refine h.ends_of_noStop (i := .readNack) hs rfl rfl (by rw [hph]; rfl)
    (congrArg (fun t => (setPhase .readDone t, Res.ok)) (recvNackP_script hscript))
    ⟨rfl, rfl, rfl, rfl, rfl, h.noDelay, rfl, rfl, rfl, rfl⟩ ?_ rfl
  simp only [setPhase_per, afterRecv, begun_per, hev]

end Sys2Proof.Machine
end

section
/-! PROOFS. 41_bus_master.md R185, R188: the buffer commands. -/

namespace Sys2Proof.Machine

/-! ### What the end of a command reports -/

theorem Via.finishWith_rdata {u t : State} {tr} (v : Via u tr t) (r : Res) :
    (finishWith (t, r)).sqr.rdata = u.sqr.bound.out.getD u.sqr.rdata := by
  show t.sqr.bound.out.getD t.sqr.rdata = _
  rw [v.bound, v.rdata]

theorem Via.finishWith_reports {u t : State} {tr} (v : Via u tr t) (r : Res) : (finishWith (t, r)).obs.reports
    = u.obs.reports ++ [{ command := descriptorOf u.sqr.opnd, result := r, rdata := u.sqr.bound.out.getD u.sqr.rdata }] := by
  show t.obs.reports ++ [{ command := descriptorOf t.sqr.opnd, result := r, rdata := t.sqr.bound.out.getD t.sqr.rdata }] = _
  rw [v.reports, v.desc, v.bound, v.rdata]

/-! ### WRITE_BYTES -/

/-- Settles O34: the bytes are sent one by one in XMT, the mode WRITE implies. -/
theorem writeBytesRuns : Obligations.WriteBytesRuns := by
  refine ⟨fun s buf h hph hlen => ?_, fun s buf hf hr hph => exec_wrongPhase rfl rfl rfl hf hr hph⟩
  obtain ⟨hm, hint, hs⟩ := h.write hph
  let u := begun (.writeBytes buf) s
  have hends : Ends (.writeBytes buf) s (finishWith (writeBytesP 0 buf u)) := by
    have hend := h.ends_bodyP (i := .writeBytes buf) rfl (decide_eq_true hlen) (by rw [hph]; rfl)
    rwa [launched_of_noStop _ hs] at hend
  obtain ⟨tr, v, hsent, -, -, hev, hmode, hbus, hphase, -⟩ := writeBytes_via buf 0 u hint hm h.evNone hs
  refine ⟨_, tr, (writeBytesP 0 buf u).2, hends, hsent, v.follows, v.ended rfl h.faultless rfl rfl rfl rfl h.noDelay hev, v.trace,
    rfl, v.finishWith_rdata _, ?_, v.finishWith_reports _, hmode.trans hm.symm, hbus, ?_⟩
  · exact hphase.trans (by rw [show u.sqr.phase = .write from hph])
  · rintro rfl
    exact ⟨rfl, rfl⟩

/-! ### READ_BYTES -/

/-- A state with another read buffer. -/
def withOut (out : Option (List Byte)) (s : State) : State :=
  { s with sqr := { s.sqr with bound := { s.sqr.bound with out := out } } }

theorem withOut_self {out : Option (List Byte)} {s : State} (h : s.sqr.bound.out = out) : withOut out s = s := by
  subst h
  rfl

/-- A receive keeps everything `Via` names, the read buffer apart. -/
theorem recv_via {u : State} {a : Answer} {as : List Answer} (hs : u.env.script = a :: as) (e : Event) (v : Byte)
    (ea : Bool) (out : Option (List Byte)) :
    Via (withOut out u) [completionEvent e a] (withOut out (afterRecv v e ea a u)) := by
  refine via_event (sc := a.sc) ?_ (fun b bs hb => ?_) rfl rfl rfl rfl rfl rfl rfl rfl rfl rfl rfl rfl rfl rfl rfl
    List.drop_one
  · cases e <;> rfl
  · rw [show u.env.script = b :: bs from hb] at hs
    injection hs with hs
    rw [hs]

/-- What the reads of READ_BYTES leave when every answer is scripted. -/
structure ReadOut (first : List Answer) (last : Answer) (before : List Byte) (u t : State) : Prop where
  via : Via (withOut (some (before ++ first.map (·.data) ++ [last.data])) u)
    ((first.map fun a => .rxa a.data (a.sc ++ 0#3)) ++ [.rxn last.data (last.sc ++ 0#3)]) t
  env : t.env = answered (first.length + 1) u
  data : t.per.data = last.data
  int : t.per.ctrl.int = true
  evNone : t.per.ev = none
  xmode : t.per.xmode = u.per.xmode
  bus : t.per.bus = u.per.bus
  phase : t.sqr.phase = .readDone

theorem readBytesP_script {last : Answer} {as : List Answer} (first : List Answer) : ∀ (i : Nat) {before : List Byte} {u : State},
    u.env.script = first ++ last :: as → u.sqr.bound.out = some before →
    ReadOut first last before u (readBytesP i first.length u) := by
  induction first with
  | nil =>
    intro i before u hs hb
    let w := afterRecv 0x84#8 .recvNack false last (indexP i u)
    have hrecv : readBytesP i 0 u = setPhase .readDone w := by
      rw [readBytesP, recvNackP_script (s := indexP i u) hs]
    have hout : w.sqr.bound.out = some (before ++ [last.data]) := by
      show Option.map _ u.sqr.bound.out = _
      rw [hb]
      rfl
    have v : Via (indexP i (withOut (some (before ++ [last.data])) u)) [.rxn last.data (last.sc ++ 0#3)] w := by
      rw [← withOut_self hout]
      exact recv_via (u := indexP i u) hs .recvNack 0x84#8 false _
    rw [List.length_nil, hrecv]
    exact ⟨by simpa using via_setPhase .readDone ((via_index i _).nil_left v), rfl, rfl, rfl, rfl, rfl, rfl, rfl⟩
  | cons a first ih =>
    intro i before u hs hb
    let w := afterRecv 0xC4#8 .recvAck true a (indexP i u)
    have hrecv : readBytesP i (first.length + 1) u = readBytesP (i + 1) first.length w := by
      rw [readBytesP, recvAckP_script (s := indexP i u) hs]
    have hw : w.env.script = first ++ last :: as := by
      show u.env.script.drop 1 = _
      rw [hs]
      rfl
    have hout : w.sqr.bound.out = some (before ++ [a.data]) := by
      show Option.map _ u.sqr.bound.out = _
      rw [hb]
      rfl
    obtain ⟨v, henv, hdata, hint, hev, hm, hbus, hph⟩ := ih (i + 1) hw hout
    let out := some (before ++ [a.data] ++ first.map (·.data) ++ [last.data])
    have v₀ : Via (indexP i (withOut out u)) [.rxa a.data (a.sc ++ 0#3)] (withOut out w) :=
      recv_via (u := indexP i u) hs .recvAck 0xC4#8 true out
    rw [List.length_cons, hrecv]
    refine ⟨by simpa [out] using (via_index i (withOut out u)).nil_left (v₀.trans v), henv.trans ?_, hdata, hint, hev, hm, hbus, hph⟩
    simp [w, answered, afterRecv, indexP, Nat.add_comm, Nat.add_left_comm]

/-- Settles O37: the n - 1 acknowledged reads and the last one, in XMR, the mode READ implies. -/
theorem readBytesRuns : Obligations.ReadBytesRuns := by
  refine ⟨fun s n first last as h hph hscript hn => ?_, fun s hf hr => exec_operandFault rfl hf hr rfl, fun s n hf hr hn hph => ?_⟩
  · obtain ⟨hm, hs⟩ := h.read hph
    let u := begun (.readBytes n) s
    have hw : (Instr.readBytes n).wf = true := by
      have hn0 : n ≠ 0#8 := fun h0 => by subst h0; simp at hn
      simpa [Instr.wf] using hn0
    have hends : Ends (.readBytes n) s (finishWith (readBytesP 0 first.length u, .ok)) := by
      have hend := h.ends_bodyP (i := .readBytes n) rfl hw (by rw [hph]; rfl)
      rwa [launched_of_noStop _ hs, bodyP, hn, Nat.add_sub_cancel] at hend
    obtain ⟨v, henv, hdata, hint, hev, hmode, hbus, hphase⟩ := readBytesP_script (u := u) first 0 hscript rfl
    refine ⟨_, hends, v.ended rfl h.faultless rfl rfl rfl rfl h.noDelay hev, ?_, ?_, rfl, hphase, hdata, hint, hmode.trans hm, hbus,
      henv, ?_⟩
    · rw [List.append_assoc]
      exact v.trace
    · exact v.finishWith_rdata _
    · exact v.finishWith_reports _
  · exact exec_wrongPhase rfl (if_neg hn) rfl hf hr hph

end Sys2Proof.Machine
end

section
/-! PROOFS. 41_bus_master.md section 5, 42_display.md and the lower layers: the transmit compositions, the display commands and the calls
as their pieces. -/

namespace Sys2Proof.Machine

/-! ### Composed commands -/

theorem admittedIn_of_acts {cfg : Cfg} {i : Instr} {acts : List Act} (h : actsOf cfg i = some acts) (p : Phase) :
    admittedIn i p = true := by
  cases i <;> cases h <;> rfl

theorem acceptance_out_of_acts {cfg : Cfg} {i : Instr} {acts : List Act} (h : actsOf cfg i = some acts) :
    (acceptance cfg i).out = none := by
  cases i <;> cases h <;> rfl

theorem launched_ev {s : State} (h : Calm s) (i : Instr) : (launched i s).per.ev = none :=
  (stopped_ev s).trans h.evNone

/-- A composed command performs its pieces. -/
theorem Calm.performs {i : Instr} {acts : List Act} {s : State} (h : Calm s) (hacts : actsOf s.cfg i = some acts)
    (hw : i.wf = true) : CommandPerforms i acts s := by
  obtain ⟨hi, hlast, hperf⟩ := body_acts i acts (launched i s) hacts hw (launched_ev h i)
  have hrun := h.reaches_runP hi (admittedIn_of_acts hacts _)
  rw [runP, stopped_begun] at hrun
  exact ⟨begun i s, exec_begun hi hw h.faultless h.ready (admittedIn_of_acts hacts _),
    performs_of (w := launched i s) hrun rfl h.faultless rfl rfl rfl h.noDelay (acceptance_out_of_acts hacts) rfl (descriptorOf_acceptance s.cfg hi) rfl
      hlast hperf⟩

/-- R105: the address byte of a 7-bit address. -/
theorem toNat_shiftLeft_one : ∀ a : Byte, a.getLsbD 7 = false → (a <<< 1).toNat = 2 * a.toNat := by
  decide

/-- Settles O38: each composition is one piece, and its address is checked before anything else. -/
theorem transmitsAreOneTransaction : Obligations.TransmitsAreOneTransaction := by
  refine ⟨fun s a buf h ha hlen => ⟨h.performs rfl ?_, toNat_shiftLeft_one a ha⟩, fun s a b h ha => h.performs rfl ?_,
    fun s a b0 b1 h ha => h.performs rfl ?_, fun s a b0 b1 buf hf hr ha => ⟨?_, ?_, ?_⟩⟩
  · rw [Instr.wf, ha]
    exact decide_eq_true hlen
  · rw [Instr.wf, ha]
    rfl
  · rw [Instr.wf, ha]
    rfl
  · exact exec_operandFault (i := .transmitMany a buf) rfl hf hr (if_pos ha)
  · exact exec_operandFault (i := .transmitOne a b0) rfl hf hr (if_pos ha)
  · exact exec_operandFault (i := .transmitTwo a b0 b1) rfl hf hr (if_pos ha)

/-- Settles O40: the stages of DISP_INIT are its pieces, in their order. -/
theorem dispInitRuns : Obligations.DispInitRuns := fun _ h => h.performs rfl rfl

/-- Settles O41: the two pieces, and R9's order of the two delays. -/
theorem clearAndHomeRun : Obligations.ClearAndHomeRun := by
  intro s h lcd
  obtain ⟨-, -, -, -, -, -, htimes, -⟩ := (legalCfg_iff s.cfg).1 h.legal
  exact ⟨h.performs rfl rfl, h.performs rfl rfl, htimes⟩

/-- Settles O42: one piece for both rows, and the operand check for any other. -/
theorem setCursorRuns : Obligations.SetCursorRuns := by
  refine ⟨fun s col row h hrow => h.performs rfl ?_, fun s col row hf hr h0 h1 => ?_⟩
  · simpa [Instr.wf] using hrow
  · exact exec_operandFault (i := .setCursor col row) rfl hf hr (if_neg (not_or.2 ⟨h0, h1⟩))

/-- Settles O43: one piece a character, and the operand check for a string with a 0x00. -/
theorem charactersRun : Obligations.CharactersRun := by
  refine ⟨fun s c h => h.performs rfl rfl, fun s str h hlen h0 => h.performs rfl ?_, fun s str hf hr h0 => ?_⟩
  · simpa [Instr.wf, Config.maxBuf, hlen] using fun c hc (hz : c = 0#8) => h0 (hz ▸ hc)
  · exact exec_operandFault (i := .putString str) rfl hf hr (if_pos (by simpa using h0))

/-- Settles O44: one piece, and three in their order. -/
theorem backlightRuns : Obligations.BacklightRuns := fun _ h =>
  ⟨fun _ _ => h.performs rfl rfl, fun _ _ _ => ⟨h.performs rfl rfl, h.performs rfl rfl⟩⟩

/-- Settles O60: on the ideal oracle every piece ends with OK and leaves its whole trace. -/
theorem idealTracesAreWhole : Obligations.IdealTracesAreWhole := by
  intro i acts s hacts hw h hbus hscript hmode
  obtain ⟨hi, -, hperf⟩ := body_acts i acts (launched i s) hacts hw (launched_ev h i)
  obtain ⟨tr, v, -, hwhole⟩ := hperf.ex
  have hideal : IdealOracle (launched i s) := ⟨hscript, hmode⟩
  refine ⟨_, h.ends_bodyP hi hw (admittedIn_of_acts hacts _), rfl, congrArg some (hperf.ok hideal), ?_⟩
  rw [← hwhole hideal hbus]
  exact v.trace

/-! ### Calls -/

theorem stopped_pop (ts : List Task) (s : State) : stopped (pop ts s) = pop ts (stopped s) := by
  unfold stopped
  rw [pop_per]
  split <;> rfl

theorem Calling.quiet_pop {s : State} (h : Calling s) (ts : List Task) : Quiet (pop ts s) :=
  ⟨h.legal, h.faultless, h.live, h.default, h.evNone, h.noDelay⟩

/-- A call made last runs its body. -/
theorem Calling.exec_expand {s : State} (h : Calling s) {i : Instr} {body : List Task} (hx : exec i s = expand body s) :
    exec i s = .next (pop body s) := by
  rw [hx, expand_next body h.faultless, h.last, List.append_nil]

theorem Calling.reaches {s : State} (h : Calling s) {body : List Task} {x : Ran}
    (hd : Running (pop body (stopped s)) → Does body (pop body (stopped s)) x) : Reaches (pop body s) (finishWith x) :=
  run_does (h.quiet_pop body) h.busy (by rw [pop_bound, h.bound]) rfl (by rw [stopped_pop]; exact hd)

/-- A called instruction whose body does one piece performs it. -/
theorem Calling.performs {s : State} (h : Calling s) {i : Instr} {body : List Task} {act : Act} (hx : exec i s = expand body s)
    (hd : ∀ w, Running w → w.sqr.bound.res = .ok → w.cfg = s.cfg → Does body w (actP w act)) (heven : act.even)
    (hwait : ¬ act.isWait) : CallPerforms i [act] s := by
  let w := pop body (stopped s)
  have hcfg : w.cfg = s.cfg := stopped_cfg s
  have hsqr : w.sqr = { s.sqr with cont := body } := by
    show { (stopped s).sqr with cont := body } = _
    rw [stopped_sqr]
  have hbound : w.sqr.bound = { res := .ok, out := none } := by rw [hsqr, h.bound]
  have hev : w.per.ev = none := (stopped_ev s).trans h.evNone
  have hrun : Reaches (pop body s) (finishWith (actP w act)) := h.reaches fun r => hd w r (by rw [hbound]) hcfg
  have hperf := acts_res [act] w hev (by simpa using heven)
  rw [actsP_one] at hperf
  refine ⟨_, h.exec_expand hx, performs_of (w := w) hrun hcfg ((stopped_fault s).trans h.faultless) rfl (stopped_obs s) (stopped_env s)
    (by rw [hsqr, h.noDelay]) (by rw [hbound]) (by rw [hsqr]) (by rw [hsqr]) (by rw [hsqr]) (by simpa using hwait) hperf⟩

theorem Calling.performs_frame {s : State} (h : Calling s) {i : Instr} (addr : Addr7) (buf : List Byte)
    (hx : exec i s = expand (transmitBody (addressByte addr .w) buf) s) :
    CallPerforms i [.frame (addressByte addr .w) buf] s :=
  h.performs hx (fun _ r hr _ => does_transmit r hr (addr_even addr) buf) (addr_even addr) id

/-- R231: an LCD row called as its byte's command frame. -/
theorem Calling.performs_lcd {s : State} (h : Calling s) {i : Instr} {c : Byte} (hx : exec i s = sendCommand (lcdByte i) s)
    (hc : lcdByte i = c) : CallPerforms i [.frame (addressByte s.cfg.lcdAddr .w) [s.cfg.selCmd, c]] s := by
  refine h.performs hx (fun w r hr hw => ?_) (addr_even _) id
  rw [hc, ← hw]
  exact does_commandFrame r hr c

/-- Settles O46: a frame's body is one transmit composition of its selector or register byte and its payload. -/
theorem framesAreOneTransaction : Obligations.FramesAreOneTransaction := fun s h =>
  ⟨fun c => h.performs_frame _ _ (exec_commandFrame s c), fun c => h.performs_frame _ _ (exec_characterFrame s c),
    fun reg val => h.performs_frame _ _ (exec_backlightFrame s reg val)⟩

/-- Settles O47: each row's byte is its bit pattern, field by field. -/
theorem lcdCommandsSendTheirPattern : Obligations.LcdCommandsSendTheirPattern := by
  unfold Obligations.LcdCommandsSendTheirPattern
  intro b s h sends
  refine ⟨h.performs_lcd (exec_lcdClear s) rfl, fun x => h.performs_lcd (exec_lcdHome s x) ?_,
    fun i sh => h.performs_lcd (exec_lcdEntryMode s i sh) ?_, fun d c bl => h.performs_lcd (exec_lcdDisplayControl s d c bl) ?_,
    fun dl n f x => h.performs_lcd (exec_lcdFunctionSet s dl n f x) ?_, fun a => h.performs_lcd (exec_lcdSetDdram s a) ?_⟩
  · revert x; decide
  · revert i sh; decide
  · revert d c bl; decide
  · revert dl n f x; decide
  · revert a; decide

/-! ### The address byte -/

/-- A called address byte is sent in XADDR, and its one answer decides the result. -/
theorem Calling.address_ends {s : State} (h : Calling s) {addr : Addr7} {dir : Dir} {a : Answer} {as : List Answer}
    (hm : s.per.xmode = .xaddr) (hint : s.per.ctrl.int = true) (hs : s.per.ctrl.sto = false) (hscript : s.env.script = a :: as) :
    ∃ u t r, exec (.addressByte addr dir) s = .next u ∧ Reaches u t ∧ Frame s t
      ∧ t.obs.trace = s.obs.trace ++ [.addr (addressByte addr dir) (a.sc ++ 0#3)]
      ∧ t.obs.regTrace = s.obs.regTrace
          ++ [.w .data (addressByte addr dir), .w .ctrl 0x84#8, .p, .r .status (a.sc ++ 0#1 ++ s.per.status.ps)]
      ∧ t.per.data = addressByte addr dir ∧ t.per.xmode = dirMode dir ∧ t.per.bus = s.per.bus ∧ t.sqr.result = some r
      ∧ (r, t.sqr.phase) = if expected (.addr dir) (a.sc ++ 0#3) then (.ok, phaseAfter (.addr dir) s.sqr.phase) else (.err, .failed) := by
  let ab := addressByte addr dir
  let u := pop (sendTasks ab (.addr dir)) s
  have hmode : modeAfter (.sendAddr ab) s.per.xmode = dirMode dir := by
    rw [modeAfter, Machine.dirOf_addressByte]
    cases dir <;> rfl
  have hrun : Reaches u (finishWith (sendP ab (.sendAddr ab) (.addr dir) u)) := by
    refine h.reaches fun r => ?_
    rw [stopped_of_none hs] at r ⊢
    exact does_send r (by rw [pop_bound, h.bound]) hint (.inl ⟨hm, rfl⟩) _
  rw [sendP_script (s := u) hscript hint ab rfl] at hrun
  have hexec := h.exec_expand (exec_addressByte s addr dir)
  cases hx : expected (.addr dir) (a.sc ++ 0#3) with
  | true =>
    rw [hx] at hrun
    exact ⟨u, _, .ok, hexec, hrun, ⟨rfl, h.faultless, rfl, rfl, rfl, rfl, rfl, rfl, h.noDelay, rfl, rfl, rfl, rfl, rfl⟩, rfl, rfl, rfl,
      hmode, rfl, rfl, rfl⟩
  | false =>
    rw [hx] at hrun
    exact ⟨u, _, .err, hexec, hrun, ⟨rfl, h.faultless, rfl, rfl, rfl, rfl, rfl, rfl, h.noDelay, rfl, rfl, rfl, rfl, rfl⟩, rfl, rfl, rfl,
      hmode, rfl, rfl, rfl⟩

/-- Settles O48: the bytes by both directions, and the two ends of a called address byte by its direction's code. -/
theorem addressByteIsSentAndChecked : Obligations.AddressByteIsSentAndChecked := by
  refine ⟨fun addr dir => ?_, fun s addr dir a as h hm hint hs hscript => ?_⟩
  · cases dir <;> revert addr <;> decide
  · obtain ⟨u, t, r, hexec, hrun, hframe, htr, hreg, hdata, hmode, hbus, hres, hout⟩ :=
      h.address_ends (addr := addr) (dir := dir) hm hint hs hscript
    refine ⟨u, t, hexec, hrun, hframe, htr, hreg, hdata, ?_, hbus, fun hc => ?_, fun hc => ?_⟩
    · rw [hmode]
      cases dir <;> rfl
    · have hx : expected (.addr dir) (a.sc ++ 0#3) = true := by cases dir <;> exact beq_iff_eq.2 hc
      rw [hx] at hout
      obtain ⟨rfl, hph⟩ := Prod.mk.inj hout
      refine ⟨hres, hph.trans ?_⟩
      cases dir <;> rfl
    · have hx : expected (.addr dir) (a.sc ++ 0#3) = false := by cases dir <;> exact beq_false_of_ne hc
      rw [hx] at hout
      obtain ⟨rfl, hph⟩ := Prod.mk.inj hout
      exact ⟨hres, hph⟩

end Sys2Proof.Machine
end

section
/-! PROOFS. 41_bus_master.md R192, 30_encoding.md R108 and 90_conflicts.md C4: the phase and the result every command ends with, and the
expansions of the pseudo-instructions. -/

namespace Sys2Proof.Machine

/-! ### The outcome of a command's pseudocode -/

/-- What every command's pseudocode leaves: the phase of R192's table by its result, OK where the command cannot fail and on the ideal
oracle, and the host's queue. -/
structure Outcome (i : Instr) (w : State) (x : Ran) : Prop where
  phase : x.1.sqr.phase = phaseTable i x.2 w.sqr.phase
  sure : cannotFail i = true → x.2 = .ok
  ideal : IdealOracle w → x.2 = .ok
  host : x.1.env.host = w.env.host

/-- A composed command leaves IDLE if it has any piece, and one with none is an empty string. -/
theorem phaseTable_of_acts {cfg : Cfg} {i : Instr} {acts : List Act} (h : actsOf cfg i = some acts) (r : Res) (p : Phase) :
    (acts ≠ [] → phaseTable i r p = .idle ∧ cannotFail i = false) ∧ (acts = [] → phaseTable i r p = p) := by
  cases i with
  | putString str => cases str <;> cases h <;> simp [phaseTable, cannotFail]
  | transmitOne _ _ | transmitTwo _ _ _ | transmitMany _ _ | dispInit | clear | home | setCursor _ _ | putChar _ | setBlReg _ _
  | setBlRgb _ _ _ | setBlColor _ _ _ => cases h; exact ⟨fun _ => ⟨rfl, rfl⟩, nofun⟩
  | _ => cases h

theorem outcome_of_acts {i : Instr} {acts : List Act} {w : State} (hacts : actsOf w.cfg i = some acts) (hw : i.wf = true)
    (hev : w.per.ev = none) : Outcome i w (bodyP i w) := by
  obtain ⟨-, hlast, hperf⟩ := body_acts i acts w hacts hw hev
  obtain ⟨tr, v, -, -⟩ := hperf.ex
  obtain ⟨hsome, hnone⟩ := phaseTable_of_acts hacts (bodyP i w).2 w.sqr.phase
  by_cases hn : acts = []
  · refine ⟨?_, fun _ => ?_, hperf.ok, v.host⟩
    · rw [hnone hn, hperf.noop hn]
    · rw [hperf.noop hn]
  · obtain ⟨hidle, hmay⟩ := hsome hn
    refine ⟨?_, fun hc => ?_, hperf.ok, v.host⟩
    · rw [hidle, (hperf.idle hn hlast).phase]
    · rw [hmay] at hc
      cases hc

theorem readBytesP_keeps (k : Nat) : ∀ (i : Nat) (w : State),
    (readBytesP i k w).sqr.phase = .readDone ∧ (readBytesP i k w).env.host = w.env.host := by
  induction k with
  | zero => exact fun i w => ⟨rfl, rfl⟩
  | succ k ih => exact fun i w => ih (i + 1) (recvAckP (indexP i w))

theorem outcome_begin (ab : Byte) (w : State) : Outcome (.beginTx ab) w (beginP ab w) := by
  obtain ⟨tr, v, -, -, -, -, -, hph, hideal, -⟩ := begin_via ab w
  refine ⟨hph.trans ?_, nofun, hideal, v.host⟩
  cases (beginP ab w).2 <;> rfl

theorem outcome_writeByte (b : Byte) {w : State} (hint : w.per.ctrl.int = true) (hw : w.sqr.phase = .write) :
    Outcome (.writeByte b) w (writeByteP b w) := by
  obtain ⟨v, -, -, -, -, -, hres, hph⟩ := send_via w hint b .data (.inr rfl)
  refine ⟨hph.trans ?_, nofun, fun h => hres.2 ?_, v.host⟩
  · rw [hw]
    show _ = phaseTable (.writeByte b) (sendP b (.sendData b) .data w).2 .write
    cases (sendP b (.sendData b) .data w).2 <;> rfl
  · rw [idealCode_data b w h]
    rfl

theorem outcome_writeBytes (buf : List Byte) {w : State} (hint : w.per.ctrl.int = true) (hm : w.per.xmode = .xmt)
    (hev : w.per.ev = none) (hs : w.per.ctrl.sto = false) (hw : w.sqr.phase = .write) :
    Outcome (.writeBytes buf) w (writeBytesP 0 buf w) := by
  obtain ⟨tr, v, -, -, -, -, -, -, hph, hideal⟩ := writeBytes_via buf 0 w hint hm hev hs
  refine ⟨hph.trans ?_, nofun, hideal, v.host⟩
  rw [hw]
  cases (writeBytesP 0 buf w).2 <;> rfl

theorem bodyP_outcome {i : Instr} (hi : isCommand i = true) (hw : i.wf = true) {w : State} (hev : w.per.ev = none)
    (hs : w.per.ctrl.sto = false) (hp : PhaseMatches w) (ha : admittedIn i w.sqr.phase = true) : Outcome i w (bodyP i w) := by
  cases i with
  | busInit => exact ⟨rfl, fun _ => rfl, fun _ => rfl, rfl⟩
  | beginTx ab => exact outcome_begin ab w
  | endTx => exact ⟨rfl, fun _ => rfl, fun _ => rfl, rfl⟩
  | writeByte b =>
    have hph : w.sqr.phase = .write := by simpa [admittedIn] using ha
    obtain ⟨-, hint, -⟩ := hp.write hph
    exact outcome_writeByte b hint hph
  | writeBytes buf =>
    have hph : w.sqr.phase = .write := by simpa [admittedIn] using ha
    obtain ⟨hm, hint, -⟩ := hp.write hph
    exact outcome_writeBytes buf hint hm hev hs hph
  | readAck =>
    have hph : w.sqr.phase = .read := by simpa [admittedIn] using ha
    exact ⟨hph, fun _ => rfl, fun _ => rfl, rfl⟩
  | readNack => exact ⟨rfl, fun _ => rfl, fun _ => rfl, rfl⟩
  | readBytes n =>
    obtain ⟨hph, hhost⟩ := readBytesP_keeps (n.toNat - 1) 0 w
    exact ⟨hph, fun _ => rfl, fun _ => rfl, hhost⟩
  | transmitOne _ _ | transmitTwo _ _ _ | transmitMany _ _ | dispInit | clear | home | setCursor _ _ | putChar _ | putString _
  | setBlReg _ _ | setBlRgb _ _ _ | setBlColor _ _ _ => exact outcome_of_acts rfl hw hev
  | illegal _ | start | sendAddr | sendData | recvAck | recvNack | stop | ctrlUndefined _ _ | lcdClear | lcdHome _
  | lcdEntryMode _ _ | lcdDisplayControl _ _ _ | lcdFunctionSet _ _ _ _ | lcdSetDdram _ | addressByte _ _
  | commandFrame _ | characterFrame _ | backlightFrame _ _ => cases hi

section
variable {i : Instr} {s : State}

theorem Calm.outcome (h : Calm s) (hi : isCommand i = true) (hw : i.wf = true) (ha : admittedIn i s.sqr.phase = true) :
    Outcome i (launched i s) (bodyP i (launched i s)) := by
  have hp := (h.toPhaseMatches.begun i).stopped
  rw [stopped_begun] at hp
  exact bodyP_outcome hi hw (launched_ev h i) (stopped_sto s) hp ha

/-- The pseudocode ends in a running machine: nothing in flight, no stop pending, no fault. -/
theorem Calm.running_bodyP (h : Calm s) (hi : isCommand i = true) (ha : admittedIn i s.sqr.phase = true) :
    Running (bodyP i (launched i s)).1 := by
  have hd := (h.does_bodyP hi ha (h.running_stopped i)).running
  rw [stopped_begun] at hd
  exact hd.1

end

/-- Settles O29: outside its phases a command faults, inside them it has the table's outcome, and a READY machine that keeps the invariant
stands in the place its phase names. -/
theorem phaseTableHolds : Obligations.PhaseTable := by
  refine ⟨fun i s hi hw hf hr ha => exec_not_admitted hi (acceptance_fault_of_wf _ hw) hf hr ha, fun i s hi hw h ha => ?_,
    fun s h hr => ?_⟩
  · have hout := h.outcome hi hw ha
    exact ⟨_, (bodyP i (launched i s)).2, h.ends_bodyP hi hw ha, rfl, rfl, hout.phase, hout.sure⟩
  · obtain ⟨pos, hreal, -, hfit⟩ := h.rests hr
    refine ⟨fun hph => ?_, ?_⟩
    · rw [hph] at hfit
      subst hfit
      exact Pos.settled_xmode hreal
    · rintro (hph | hph) <;>
      · rw [hph] at hfit
        subst hfit
        exact Pos.settled_xmode hreal

/-- Settles O59: on the ideal oracle the outcome is OK, and the machine it ends in meets each condition of R359. -/
theorem idealOracleMeansSuccess : Obligations.IdealOracleMeansSuccess := by
  intro i s hi hw h ha hscript hmode
  have hout := h.outcome hi hw ha
  have hrun := h.running_bodyP hi ha
  refine ⟨_, h.ends_bodyP hi hw ha, rfl, congrArg some (hout.ideal ⟨hscript, hmode⟩), hrun.faultless, fun hq => observation_ended ?_⟩
  refine runEnded_iff.2 ⟨rfl, hrun.noStop, hrun.evNone, fun d hd => hq d ?_, hrun.faultless⟩
  have hhost : (finishWith (bodyP i (launched i s))).env.host = s.env.host := hout.host
  rwa [hhost] at hd

/-! ### Expansions -/

/-- A state with another latch. -/
def withOpnd (o : Option Opnd) (s : State) : State :=
  { s with sqr := { s.sqr with opnd := o } }

/-- Two answers that differ in the latch only. -/
def SameButOpnd (x y : Ran) : Prop :=
  ∃ o, y = (withOpnd o x.1, x.2)

/-- A program that reads nothing of the latch. -/
def IgnoresOpnd (f : State → Ran) : Prop :=
  ∀ o s, SameButOpnd (f s) (f (withOpnd o s))

theorem IgnoresOpnd.andThen {f g : State → Ran} (hf : IgnoresOpnd f) (hg : IgnoresOpnd g) :
    IgnoresOpnd fun s => Machine.andThen (f s) g := by
  intro o s
  obtain ⟨o', he⟩ := hf o s
  show SameButOpnd (Machine.andThen (f s) g) (Machine.andThen (f (withOpnd o s)) g)
  rw [he]
  obtain ⟨t, r⟩ := f s
  cases r with
  | ok => exact hg o' t
  | err => exact ⟨o', rfl⟩

theorem check_ignoresOpnd (st : Stage) : IgnoresOpnd fun s => checkP st (statusP s) := by
  intro o s
  refine ⟨o, ?_⟩
  simp only [check_cases]
  show (if expected st (s.per.status.sc ++ 0#3) then _ else _) = _
  split <;> rfl

theorem start_ignoresOpnd : IgnoresOpnd startP := fun o s => check_ignoresOpnd .start o (eventP 0xA4#8 .start s)

theorem send_ignoresOpnd (b : Byte) (e : Event) (st : Stage) : IgnoresOpnd (sendP b e st) := fun o s =>
  check_ignoresOpnd st o (eventP 0x84#8 e (logReg (.w .data b) { s with per := writeReg .data b s.per }))

theorem begin_ignoresOpnd (ab : Byte) : IgnoresOpnd (beginP ab) :=
  start_ignoresOpnd.andThen (send_ignoresOpnd _ _ _)

/-- The loop index is the one field of the latch that a program writes. -/
theorem writeBytes_ignoresOpnd (buf : List Byte) : ∀ i, IgnoresOpnd (writeBytesP i buf) := by
  induction buf with
  | nil => exact fun i o s => ⟨o, rfl⟩
  | cons b bs ih =>
    intro i o s
    let o' := o.map fun o => { o with idx := BitVec.ofNat 8 i }
    have hindex : indexP i (withOpnd o s) = withOpnd o' (indexP i s) := rfl
    rw [writeBytesP, writeBytesP, hindex]
    exact (IgnoresOpnd.andThen (send_ignoresOpnd b (.sendData b) .data) (ih (i + 1))) o' (indexP i s)

theorem transmit_ignoresOpnd (ab : Byte) (buf : List Byte) : IgnoresOpnd (transmitP ab buf) := by
  intro o s
  obtain ⟨o', he⟩ := ((begin_ignoresOpnd ab).andThen (writeBytes_ignoresOpnd buf 0)) o s
  refine ⟨o', ?_⟩
  simp only [transmitP, he]
  rfl

theorem blWrite_ignoresOpnd (reg val : Byte) : IgnoresOpnd (blWriteP reg val) := fun o s =>
  transmit_ignoresOpnd (addressByte s.cfg.rgbAddr .w) [reg, val] o s

theorem setBlRgb_ignoresOpnd (cfg : Cfg) (r g b : Byte) : IgnoresOpnd (setBlRgbP cfg r g b) :=
  (blWrite_ignoresOpnd _ _).andThen ((blWrite_ignoresOpnd _ _).andThen (blWrite_ignoresOpnd _ _))

/-- Settles O39: an instruction and its expansion run the same program from states that differ in the latch only. -/
theorem expansionsAgree : Obligations.ExpansionsAgree := by
  unfold Obligations.ExpansionsAgree
  intro same s h
  have agree : ∀ {i j : Instr}, isCommand i = true → isCommand j = true → i.wf = true → j.wf = true →
      admittedIn i s.sqr.phase = true → admittedIn j s.sqr.phase = true →
      SameButOpnd (bodyP j (launched j s)) (bodyP i (launched i s)) → same i j s := by
    intro i j hi hj hwi hwj hai haj hsame
    obtain ⟨o, he⟩ := hsame
    refine ⟨_, _, h.ends_bodyP hi hwi hai, h.ends_bodyP hj hwj haj, rfl, rfl, ?_⟩
    rw [he]
    exact ⟨rfl, rfl, rfl, rfl, rfl, rfl, rfl⟩
  refine ⟨fun a b ha => ?_, fun a b0 b1 ha => ?_, fun r g b => ?_⟩
  · refine agree rfl rfl ?_ ?_ rfl rfl (transmit_ignoresOpnd (writeAddress a) [b] _ (launched (.transmitMany a [b]) s))
    · rw [Instr.wf, ha]; rfl
    · rw [Instr.wf, ha]; rfl
  · refine agree rfl rfl ?_ ?_ rfl rfl (transmit_ignoresOpnd (writeAddress a) [b0, b1] _ (launched (.transmitMany a [b0, b1]) s))
    · rw [Instr.wf, ha]; rfl
    · rw [Instr.wf, ha]; rfl
  · exact agree rfl rfl rfl rfl rfl rfl (setBlRgb_ignoresOpnd s.cfg r g b _ (launched (.setBlRgb r g b) s))

end Sys2Proof.Machine
end

section
/-! PROOFS. 10_state.md sections 4 and 5, 60_exceptions.md and 70_reset_and_hazards.md: what no step changes, the end of a command, the
fault state, hangs and the end of a run. -/

namespace Sys2Proof.Machine

/-! ### Observations -/

/-- The configuration is kept, and each observation is at most added to. -/
structure Grown (s t : State) : Prop where
  cfg : t.cfg = s.cfg
  trace : s.obs.trace <+: t.obs.trace
  regTrace : s.obs.regTrace <+: t.obs.regTrace
  reports : s.obs.reports <+: t.obs.reports
  seen : s.obs.seen <+: t.obs.seen

theorem Grown.of_obs {s t : State} (hc : t.cfg = s.cfg) (ho : t.obs = s.obs) : Grown s t := by
  constructor <;> simp [hc, ho]

theorem Did.grown {s t : State} (h : Did s t) : Grown s t := by
  cases h with
  | faulted f => exact .of_obs rfl rfl
  | held => exact .of_obs rfl rfl
  | accepts o out body _ => exact .of_obs rfl rfl
  | begins v e => exact .of_obs rfl rfl
  | stops v => exact ⟨rfl, ⟨_, rfl⟩, List.prefix_refl _, List.prefix_refl _, List.prefix_refl _⟩
  | calls items => exact .of_obs rfl rfl

theorem peripheralStep_grown (s : State) : Grown s (peripheralStep s) := by
  unfold peripheralStep
  split
  · exact .of_obs rfl rfl
  · split
    · exact ⟨rfl, ⟨_, rfl⟩, List.prefix_refl _, List.prefix_refl _, List.prefix_refl _⟩
    · exact .of_obs rfl rfl

theorem Moved.grown {s t : State} (h : Moved s t) : Grown s t := by
  cases h with
  | stays => exact .of_obs rfl rfl
  | did d => exact d.grown
  | called rest d _ =>
    obtain ⟨hcfg, htr, hreg, hrep, hseen⟩ := d.grown
    exact ⟨hcfg, htr, hreg, hrep, hseen⟩
  | triggered v rest d _ =>
    obtain ⟨hcfg, htr, hreg, hrep, hseen⟩ := d.grown
    exact ⟨hcfg, htr, hreg.trans (List.prefix_append _ _), hrep, hseen⟩
  | works w => exact ⟨w.cfg, w.trace, w.regTrace, by rw [w.reports], by rw [w.seen]⟩
  | finishes _ => exact ⟨rfl, List.prefix_refl _, List.prefix_refl _, ⟨_, rfl⟩, List.prefix_refl _⟩
  | peripheral => exact peripheralStep_grown s
  | reads r _ => exact ⟨rfl, List.prefix_refl _, List.prefix_refl _, List.prefix_refl _, ⟨_, rfl⟩⟩
  | delayEnds => exact .of_obs rfl rfl

theorem step_grown {s t : State} (h : step s = .next t) : Grown s t := by
  obtain ⟨-, queue, sched, hm⟩ := step_moved h
  obtain ⟨hcfg, htr, hreg, hrep, hseen⟩ := hm.grown
  exact ⟨hcfg, htr, hreg, hrep, hseen⟩

/-! ### A run that has ended -/

/-- R359: where the run has ended, what any agent does keeps it ended and adds no event and no report, a faulting read apart. -/
theorem agentStep_ended {a : Agent} {s t : State} (h : runEnded s = true) (hn : agentStep a s = .next t) (hf : t.fault = none) :
    runEnded t = true ∧ t.obs.trace = s.obs.trace ∧ t.obs.reports = s.obs.reports := by
  obtain ⟨hready, hsto, hev, hq, hfs⟩ := runEnded_iff.1 h
  cases a with
  | sequencer =>
    have hstay : sequencerStep s = .next s := if_pos (.inl hready)
    rw [agentStep, hstay] at hn
    cases hn
    exact ⟨h, rfl, rfl⟩
  | peripheral =>
    have hstay : peripheralStep s = s := by simp [peripheralStep, hsto, hev]
    rw [agentStep, hstay] at hn
    cases hn
    exact ⟨h, rfl, rfl⟩
  | delayUnit =>
    cases hn
    exact ⟨h, rfl, rfl⟩
  | host =>
    rw [agentStep, hostStep] at hn
    split at hn
    · cases hn
      exact ⟨h, rfl, rfl⟩
    · next action rest hhost =>
      cases action with
      | present d => exact absurd (hhost ▸ List.mem_cons_self) (hq d)
      | readResult =>
        simp only [readResult, hready] at hn
        split at hn
        · cases hn
          cases hf
        · cases hn
          refine ⟨runEnded_iff.2 ⟨hready, hsto, hev, fun d hd => hq d ?_, hfs⟩, rfl, rfl⟩
          rw [hhost]
          exact List.mem_cons_of_mem _ hd

/-- Settles O53: observations grow by what the agents can do, and an ended run's next step is one of four that add nothing. -/
theorem observationsOnlyGrow : Obligations.ObservationsOnlyGrow := by
  intro s t h
  obtain ⟨hcfg, htr, hreg, hrep, hseen⟩ := step_grown h
  refine ⟨hcfg, htr, hreg, hrep, hseen, fun hend hf => ?_⟩
  obtain ⟨-, a, sched, ha⟩ := step_next h
  obtain ⟨hend', htrace, hreports⟩ := agentStep_ended (s := { s with env := { s.env with sched := sched } }) hend ha hf
  rw [observation_ended hend', observation_ended hend, htrace, hreports]

/-! ### The end of a command -/

/-- RESULT and RDATA are kept, and the machine is not made READY. -/
structure KeepsResults (s t : State) : Prop where
  result : t.sqr.result = s.sqr.result
  rdata : t.sqr.rdata = s.sqr.rdata
  seq : t.sqr.seq = .ready → s.sqr.seq = .ready

theorem KeepsResults.of_sqr {s t : State} (h : t.sqr = s.sqr) : KeepsResults s t := by
  constructor <;> simp [h]

theorem Did.keepsResults {s t : State} (h : Did s t) : KeepsResults s t := by
  cases h with
  | faulted f => exact .of_sqr rfl
  | held => exact .of_sqr rfl
  | accepts o out body hr => exact ⟨rfl, rfl, fun _ => hr⟩
  | begins v e => exact .of_sqr rfl
  | stops v => exact .of_sqr rfl
  | calls items => exact ⟨rfl, rfl, id⟩

theorem peripheralStep_sqr (s : State) : (peripheralStep s).sqr = s.sqr := by
  unfold peripheralStep
  split
  · rfl
  · split <;> rfl

theorem Moved.keepsResults {s t : State} (h : Moved s t) : KeepsResults s t ∨ (s.sqr.seq = .busy ∧ t = finish s) := by
  cases h with
  | stays => exact .inl (.of_sqr rfl)
  | did d => exact .inl d.keepsResults
  | called rest d _ =>
    obtain ⟨hres, hrd, hseq⟩ := d.keepsResults
    exact .inl ⟨hres, hrd, hseq⟩
  | triggered v rest d _ =>
    obtain ⟨hres, hrd, hseq⟩ := d.keepsResults
    exact .inl ⟨hres, hrd, hseq⟩
  | works w => exact .inl ⟨w.result, w.rdata, fun hr => w.seq ▸ hr⟩
  | finishes hb => exact .inr ⟨hb, rfl⟩
  | peripheral => exact .inl (.of_sqr (peripheralStep_sqr s))
  | reads r _ => exact .inl (.of_sqr rfl)
  | delayEnds => exact .inl ⟨rfl, rfl, id⟩

/-- Settles O54: only the end of a command changes what a step keeps otherwise. -/
theorem resultsChangeAtTheEnd : Obligations.ResultsChangeAtTheEnd := by
  intro s t h hchange
  obtain ⟨-, queue, sched, hm⟩ := step_moved h
  obtain ⟨hres, hrd, hseq⟩ | ⟨hb, rfl⟩ := hm.keepsResults
  · obtain hne | hne | ⟨hb, hr⟩ := hchange
    · exact absurd hres hne
    · exact absurd hrd hne
    · exact nomatch (hseq hr).symm.trans hb
  · exact ⟨hb, rfl, rfl, rfl, rfl, _, rfl, rfl⟩

/-! ### The fault state -/

theorem Did.faults {s t : State} (h : Did s t) (hf : s.fault = none) {f : Fault} (ht : t.fault = some f) :
    t = { s with fault := some f } := by
  cases h with
  | faulted g => cases ht; rfl
  | held | accepts _ _ _ _ | begins _ _ | stops _ | calls _ => exact nomatch hf.symm.trans ht

theorem peripheralStep_fault (s : State) : (peripheralStep s).fault = s.fault := by
  unfold peripheralStep
  split
  · rfl
  · split <;> rfl

/-- R306: what sets the mark sets nothing else. -/
theorem Moved.faults {s t : State} (h : Moved s t) (hf : s.fault = none) {f : Fault} (ht : t.fault = some f) :
    t = { s with fault := some f } := by
  cases h with
  | did d => exact d.faults hf ht
  | called rest d hn => exact nomatch hn.symm.trans ht
  | triggered v rest d hn => exact nomatch hn.symm.trans ht
  | works w => exact nomatch (w.fault.trans hf).symm.trans ht
  | peripheral => exact nomatch ((peripheralStep_fault s).trans hf).symm.trans ht
  | stays | finishes _ | reads _ _ | delayEnds => exact nomatch hf.symm.trans ht

theorem exec_marked {s : State} {f : Fault} (h : s.fault = some f) (i : Instr) : exec i s = .fault f := by
  cases i <;> exact unlessFaulted_some h _

/-- Settles O28: a fault's only effect is its mark, and a marked machine answers it. -/
theorem faultIsFinal : Obligations.FaultIsFinal := by
  refine ⟨fun s t f hf h ht => ?_, fun s f hf => ⟨unlessFaulted_some hf _, exec_marked hf, ?_⟩⟩
  · obtain ⟨-, queue, sched, hm⟩ := step_moved h
    rw [hm.faults hf ht]
  · rw [Bool.eq_false_iff]
    intro hend
    obtain ⟨-, -, -, -, hnone⟩ := runEnded_iff.1 hend
    exact nomatch hnone.symm.trans hf

/-! ### Hangs -/

theorem run_of_step_self {s : State} (h : step s = .next s) (k : Nat) : Host.Core.run Sys2Proof.core k s = .next s := by
  induction k with
  | zero => rfl
  | succ k ih =>
    have hstep : Sys2Proof.core.step s = .next s := h
    simp only [Host.Core.run, hstep, ih]

/-- Settles O57: the head item holds, and on a bus that is not live nothing else has a step. -/
theorem deadBusHangs : Obligations.DeadBusHangs := by
  intro s hl hf hd hv hb hn hitem
  have hdead : OnDeadBus s := ⟨hl, hf, hd, hv, hb, hn⟩
  have hstep : step s = .next s := by
    obtain ⟨g, rest, hp, hev⟩ | ⟨v, g, rest, hp, h7, hs⟩ := hitem
    · exact hdead.step_held hp (by simp [holds, Option.isSome_iff_ne_none.2 hev])
    · exact hdead.step_held hp (by simp only [holds, h7, hs, Bool.and_self])
  refine ⟨run_of_step_self hstep, ?_⟩
  rw [Bool.eq_false_iff]
  intro hend
  obtain ⟨hready, -⟩ := runEnded_iff.1 hend
  exact nomatch hready.symm.trans hb

/-! ### A machine for every legal configuration -/

theorem runOp_answers (op : Op) (rest : List Task) {s : State} (hf : s.fault = none) : ∃ t, runOp op rest s = .next t := by
  cases op with
  | write r v =>
    by_cases hc : r = .ctrl ∧ v.getLsbD 7 = true
    · obtain ⟨t, ht, -⟩ := exec_did (decodeTrigger v s.per.xmode) hf
      rw [runOp, if_pos hc, ht, afterTrigger]
      split <;> exact ⟨_, rfl⟩
    · exact ⟨_, runOp_write_plain hc rest s⟩
  | run i =>
    obtain ⟨t, ht, -⟩ := exec_did i (s := pop rest s) hf
    rw [runOp, ht, afterCall]
    split <;> exact ⟨_, rfl⟩
  | writeBytes i buf => cases buf <;> exact ⟨_, rfl⟩
  | readBytes i k => cases k <;> exact ⟨_, rfl⟩
  | putString i str => cases str <;> exact ⟨_, rfl⟩
  | wait | check _ | take | delay _ | setPhase _ | clearBody => exact ⟨_, rfl⟩

theorem sequencerStep_answers {s : State} (hf : s.fault = none) : ∃ t, sequencerStep s = .next t := by
  unfold sequencerStep
  split
  · exact ⟨_, rfl⟩
  · split
    · exact ⟨_, rfl⟩
    · split
      · exact ⟨_, rfl⟩
      · exact runOp_answers _ _ hf

theorem presentDescriptor_answers (d : List Byte) {s : State} (hf : s.fault = none) : ∃ t, presentDescriptor d s = .next t := by
  unfold presentDescriptor
  split
  · exact ⟨_, rfl⟩
  · split
    · exact ⟨_, rfl⟩
    · next i _ =>
      obtain ⟨t, ht, -⟩ := exec_did i hf
      exact ⟨t, ht⟩

theorem readResult_answers (back s : State) : ∃ t, readResult back s = .next t := by
  unfold readResult
  split
  · exact ⟨_, rfl⟩
  · split <;> exact ⟨_, rfl⟩

theorem hostStep_answers {s : State} (hf : s.fault = none) : ∃ t, hostStep s = .next t := by
  unfold hostStep
  split
  · exact ⟨_, rfl⟩
  · next action rest _ =>
    cases action with
    | present d => exact presentDescriptor_answers d hf
    | readResult => exact readResult_answers s _

theorem agentStep_answers (a : Agent) {s : State} (hf : s.fault = none) : ∃ t, agentStep a s = .next t := by
  cases a with
  | host => exact hostStep_answers hf
  | sequencer => exact sequencerStep_answers hf
  | peripheral => exact ⟨_, rfl⟩
  | delayUnit => exact ⟨_, rfl⟩

/-- Settles O58: a legal configuration's machine has its agent's step, and any other is refused before an agent is chosen. -/
theorem illegalConfigurationsAreRefused : Obligations.IllegalConfigurationsAreRefused := by
  intro s hf c legal
  have hiff : legalCfg s.cfg = true ↔ legal := legalCfg_iff s.cfg
  refine ⟨fun h => ?_, fun h => ?_⟩
  · obtain ⟨sched, hs⟩ := nextAgent_eq s
    rw [step, stepOnce, unlessFaulted_none hf, if_pos (hiff.2 h), hs]
    exact agentStep_answers _ hf
  · rw [step, stepOnce, unlessFaulted_none hf, if_neg (mt hiff.1 h)]

/-! ### Whose turn it is -/

/-- A row of a lower layer is a call. -/
theorem exec_call {i : Instr} (hl : i.layer = .lcdCmd ∨ i.layer = .wireAddress ∨ i.layer = .wireDisplay ∨ i.layer = .wireBacklight)
    (s : State) : ∃ items, items ≠ [] ∧ exec i s = expand items s := by
  cases i with
  | lcdClear | lcdHome _ | lcdEntryMode _ _ | lcdDisplayControl _ _ _ | lcdFunctionSet _ _ _ _ | lcdSetDdram _ | addressByte _ _
  | commandFrame _ | characterFrame _ | backlightFrame _ _ => exact ⟨_, List.cons_ne_nil _ _, rfl⟩
  | _ => simp [Instr.layer] at hl

/-- Settles O45: each row of a lower layer is a call of a body that is not empty. -/
theorem callsChangeOnlyTheContinuation : Obligations.CallsChangeOnlyTheContinuation := by
  intro i s hl hf
  obtain ⟨items, hne, hx⟩ := exec_call hl s
  exact ⟨items, hne, hx.trans (expand_next items hf)⟩

theorem runOp_trigger {v : Byte} (h : v.getLsbD 7 = true) (rest : List Task) (s : State) :
    runOp (.write .ctrl v) rest s = afterTrigger v rest (exec (decodeTrigger v s.per.xmode) s) :=
  if_pos ⟨rfl, h⟩

theorem step_triggers {v : Byte} {g : Guard} {rest : List Task} {s : State} {later : List Agent}
    (h : ItemNext { op := .write .ctrl v, guard := g } rest s later) (h7 : v.getLsbD 7 = true) (hs : s.per.ctrl.sto = false) :
    step s = afterTrigger v rest (exec (decodeTrigger v s.per.xmode) (onward later s)) := by
  rw [step_itemNext h (by simp [holds, hs]), runOp_trigger h7]
  rfl

/-- Settles O52: a descriptor on the host's turn, a trigger value and a call on the sequencer's. -/
theorem stepRunsTheDecodedInstruction : Obligations.StepRunsTheDecodedInstruction := by
  refine ⟨fun d i more later s ht hh hr hd => ?_, fun v i g rest s later h hs hd => ?_, fun i g rest s later h => ?_⟩
  · rw [step_presents ht hh]
    exact presentDescriptor_ok (s := { s with env := { s.env with host := more, sched := later } }) hr hd
  · by_cases h7 : v.getLsbD 7 = true
    · rw [decode_trigger s.cfg h7] at hd
      injection hd with hd
      rw [step_triggers h h7 hs, hd]
    · rw [decode, if_neg h7] at hd
      cases hd
  · exact step_itemNext h rfl

/-- Settles O19: the hold comes first in `trigger`, and it keeps the sequencer's item where it is. -/
theorem triggersHoldForAPendingStop : Obligations.TriggersHoldForAPendingStop := by
  refine ⟨fun i m s hl hf hs => ?_, fun v g rest s later h7 h => ⟨fun hs => ?_, step_triggers h h7⟩⟩
  · obtain ⟨v, d, f, hx⟩ := exec_trigger hl s
    rw [hx, trigger, unlessFaulted_none hf, if_pos hs]
  · exact step_held h (by simp only [holds, h7, hs, Bool.and_self])

/-- Settles O55: the three cases of the host's read. -/
theorem hostReadsTheResult : Obligations.HostReadsTheResult := by
  intro s more later ht hh s'
  have hstep : step s = readResult (onward later s) s' := by
    rw [step_turn ht]
    simp only [agentStep, hostStep, onward, hh]
    rfl
  refine ⟨fun hn => ?_, fun r hr => ⟨fun hready => ?_, fun hb => ?_⟩⟩
  · simp only [hstep, readResult, show s'.sqr.result = none from hn, raise]
  · simp only [hstep, readResult, show s'.sqr.result = some r from hr, show s'.sqr.seq = .ready from hready]
    cases r <;> rfl
  · simp only [hstep, readResult, show s'.sqr.result = some r from hr, show s'.sqr.seq = .busy from hb]

/-- Settles O56: the delay item's step, the sequencer's hold, and the delay unit's step. -/
theorem delaysAreTracedAndEnd : Obligations.DelaysAreTracedAndEnd := by
  refine ⟨fun n g rest s later h => step_itemNext h rfl, fun s later n hd => ⟨fun ht => ?_, fun ht => step_turn ht⟩⟩
  have hhold : (onward later s).sqr.seq = .ready ∨ (onward later s).sqr.delay.isSome = true :=
    .inr (Option.isSome_iff_exists.2 ⟨n, hd⟩)
  rw [step_turn ht, agentStep, sequencerStep, if_pos hhold]

end Sys2Proof.Machine
end

section
/-! PROOFS. 10_state.md sections 1 and 6 and 40_bus_events.md: the reset values, the register writes, the five events, the wait, the status
checks and the oracles. -/

namespace Sys2Proof.Machine

/-! ### Reset and registers -/

theorem ctrlByte_reset : ctrlByte Periph.reset.ctrl = 0x00#8 := by decide

/-- R53: SC is 0b11111 and PS is 0. -/
theorem statusByte_reset : statusByte Periph.reset.status = 0xF8#8 := by decide

/-- Settles O1: the reset values, and a reset machine whose host has nothing to do. -/
theorem resetLeavesTheListedValues : Obligations.ResetLeavesTheListedValues :=
  ⟨fun _ => ⟨ctrlByte_reset, statusByte_reset, rfl, rfl, rfl, rfl, rfl, rfl, rfl, rfl, rfl, rfl, rfl, rfl, rfl⟩, rfl,
    step_eq_agentStep (s := State.reset) rfl rfl rfl⟩

/-- R36: SC above a clear bit 2 above PS. -/
theorem statusByte_eq_or (t : Status) : statusByte t = (t.sc.setWidth 8 <<< 3) ||| t.ps.setWidth 8 := by
  obtain ⟨sc, ps⟩ := t
  revert sc ps
  decide

/-- Settles O5: the byte of a STATUS read, and the two plain register writes. -/
theorem configurationRegisterWrites : Obligations.ConfigurationRegisterWrites :=
  ⟨fun s => statusByte_eq_or s.per.status, fun v rest s => runOp_write_plain (by simp) rest s,
    fun v rest s => runOp_write_plain (by simp) rest s, fun _ => statusByte_reset⟩

/-! ### Events -/

/-- R158: on the peripheral's turn a pending stop is performed. -/
theorem step_turn_performs_stop {s : State} {later : List Agent} (h : Turn .peripheral s later) (hs : s.per.ctrl.sto = true) :
    step s = .next (performStop (onward later s)) := by
  have hp : peripheralStep (onward later s) = performStop (onward later s) := if_pos hs
  rw [step_turn h, agentStep, hp]

/-- Settles O13: the trigger fires in any mode, and the completion is the peripheral's turn. -/
theorem startEvent : Obligations.StartEvent :=
  ⟨fun s h => (exec_start s).trans (trigger_fires h _ _ rfl), fun _ _ ht hs he => step_turn_completes ht hs he⟩

/-- Settles O16: the trigger fires in XMR, and the completion is the peripheral's turn. -/
theorem receiveAndAcknowledgeEvent : Obligations.ReceiveAndAcknowledgeEvent :=
  ⟨fun s h hm => (exec_recvAck s).trans (trigger_fires h _ _ (by rw [hm]; rfl)),
    fun _ _ ht hs he => step_turn_completes ht hs he⟩

/-- Settles O17: the trigger fires in XMR, and the completion is the peripheral's turn. -/
theorem receiveLastEvent : Obligations.ReceiveLastEvent :=
  ⟨fun s h hm => (exec_recvNack s).trans (trigger_fires h _ _ (by rw [hm]; rfl)),
    fun _ _ ht hs he => step_turn_completes ht hs he⟩

/-- Settles O18: the trigger fires in any mode and leaves STO set, and the performance is the peripheral's turn. -/
theorem stopEvent : Obligations.StopEvent :=
  ⟨fun s h => (exec_stop s).trans (trigger_fires h _ _ rfl), fun _ _ ht hs => step_turn_performs_stop ht hs⟩

/-! ### The wait and the checks -/

theorem getLsbD_seven_bits8 : ∀ b7 b6 b5 b4 b3 b2 b1 b0 : Bool, (bits8 b7 b6 b5 b4 b3 b2 b1 b0).getLsbD 7 = b7 := by
  decide

/-- Settles O23: the item holds with an event in flight, and is one step with none and INT set. -/
theorem waitHoldsForTheEvent : Obligations.WaitHoldsForTheEvent := by
  refine fun g rest s later h => ⟨fun he => ?_, fun he hint => ⟨?_, ?_⟩⟩
  · exact step_held h (by simp [holds, Option.isSome_iff_ne_none.2 he])
  · exact step_itemNext h (by simp [holds, he, hint])
  · exact (getLsbD_seven_bits8 ..).trans hint

/-- R166: the code of a STATUS byte does not read its prescaler bits. -/
theorem statusCode_prescaler (t : Status) (p : BitVec 2) : statusCode (statusByte { t with ps := p }) = statusCode (statusByte t) := by
  rw [statusCode_statusByte, statusCode_statusByte]

/-- Settles O24: each stage's expected set is R164's, the two answers of a check, the masked prescaler, and the read that checks nothing. -/
theorem statusChecks : Obligations.StatusChecks := by
  unfold Obligations.StatusChecks
  intro expectedSet
  have hset : ∀ (st : Stage) (c : Byte), expected st c = true ↔ c ∈ expectedSet st := by
    rintro (_ | (_ | _) | _) c <;> simp [expected, expectedSet]
  refine ⟨fun st rest s => ?_, statusCode_prescaler, fun rest s => rfl⟩
  intro v s'
  refine ⟨fun hin => ?_, fun hout => ?_⟩
  · have hx : expected st (statusCode (readReg .status (pop rest s))) = true := (hset st _).2 hin
    refine congrArg Host.Outcome.next ((checkStatus_pass hx).trans ?_)
    rcases st with _ | (_ | _) | _ <;> rfl
  · have hx : expected st (statusCode (readReg .status (pop rest s))) = false := Bool.eq_false_iff.2 (mt (hset st _).1 hout)
    exact congrArg Host.Outcome.next (checkStatus_fail hx)

/-! ### The oracles -/

/-- Settles O25: the script's answer, the ideal code of each event, the read stream, and the one code the failing oracle replaces. -/
theorem oracleAnswers : Obligations.OracleAnswers := by
  unfold Obligations.OracleAnswers
  intro ideal
  have hcode : ∀ (e : Event) (b : Bus), idealCode e b ++ 0#3 = ideal e b := by
    intro e b
    cases e with
    | sendAddr a =>
      cases b <;> (simp only [idealCode, ideal]; split <;> rfl)
    | sendData _ => cases b <;> exact (by decide : (0x05#5 ++ 0#3 : Byte) = 0x28#8)
    | start | recvAck | recvNack => cases b <;> rfl
  refine ⟨fun s a as e hs => draw_script hs e, fun s e hs hm => ⟨?_, fun d ds hr => ⟨?_, ?_⟩⟩, fun s e k sc hs hm => ?_⟩
  · rw [← hcode]
    simp only [draw, hs, hm]
  · simp only [draw, hs, hm, hr, List.head?_cons, Option.getD_some]
  · cases e <;> simp [afterDraw, receives, hs, hm, hr]
  · rw [← hcode]
    simp only [draw, hs, hm]
    split <;> rfl

end Sys2Proof.Machine
end
